-- ==== Sys2Proof/Word.lean ====
section
/-! DEFINITION. The word types of the engine (00_scope.md R8, R20, R21): 32-bit words, 8-bit memory
cells, and the index of one of the 32 general registers. Addition, subtraction and the bitwise
operators of `BitVec 32` are the spec's (modulo 2^32, R21). -/

namespace Sys2Proof

/-- A 32-bit pattern: a register value, an immediate, an address, the pc, an instruction word (R8, R21). -/
abbrev Word := BitVec 32

/-- One memory cell (R8: "byte-addressable"). -/
abbrev Byte := BitVec 8

/-- A register index, 0 to 31; a 5-bit field can name no other (10_state.md R37). -/
abbrev Reg := Fin 32

end Sys2Proof
end

