-- ==== Sys2Proof/Syntax.lean ====
section
/-! DEFINITION. The 38 instructions of 30_encoding.md R118, one constructor per row of the opcode
table, in its order. An instruction holds the decoded fields of its format (R92, R117): register
indices and the 32-bit decoded immediate (R100). Bits of the word that its rule does not examine
(R116) are kept in a last field, so that an instruction still determines its word
(notes/assumptions/9.md); for the shifts by an immediate they are part of `imm`. -/

namespace Sys2Proof

inductive Instr where
  -- format R (40_alu_reg.md)
  | add (rd rs1 rs2 : Reg)
  | sub (rd rs1 rs2 : Reg)
  | sll (rd rs1 rs2 : Reg) (funct7 : BitVec 7)
  | slt (rd rs1 rs2 : Reg) (funct7 : BitVec 7)
  | sltu (rd rs1 rs2 : Reg) (funct7 : BitVec 7)
  | xor (rd rs1 rs2 : Reg) (funct7 : BitVec 7)
  | srl (rd rs1 rs2 : Reg)
  | sra (rd rs1 rs2 : Reg)
  | or (rd rs1 rs2 : Reg) (funct7 : BitVec 7)
  | and (rd rs1 rs2 : Reg) (funct7 : BitVec 7)
  -- format I (41_alu_imm.md)
  | addi (rd rs1 : Reg) (imm : Word)
  | slli (rd rs1 : Reg) (imm : Word)
  | slti (rd rs1 : Reg) (imm : Word)
  | sltiu (rd rs1 : Reg) (imm : Word)
  | xori (rd rs1 : Reg) (imm : Word)
  | srli (rd rs1 : Reg) (imm : Word)
  | srai (rd rs1 : Reg) (imm : Word)
  | ori (rd rs1 : Reg) (imm : Word)
  | andi (rd rs1 : Reg) (imm : Word)
  -- format S (42_store_load.md)
  | sb (rs1 rs2 : Reg) (imm : Word)
  | sh (rs1 rs2 : Reg) (imm : Word)
  | sw (rs1 rs2 : Reg) (imm : Word)
  -- format L (42_store_load.md)
  | lb (rd rs1 : Reg) (imm : Word)
  | lh (rd rs1 : Reg) (imm : Word)
  | lw (rd rs1 : Reg) (imm : Word)
  | lbu (rd rs1 : Reg) (imm : Word)
  | lhu (rd rs1 : Reg) (imm : Word)
  -- format U (43_upper_imm.md)
  | auipc (rd : Reg) (imm : Word)
  | lui (rd : Reg) (imm : Word)
  -- format B (44_control_transfer.md)
  | beq (rs1 rs2 : Reg) (imm : Word)
  | bne (rs1 rs2 : Reg) (imm : Word)
  | blt (rs1 rs2 : Reg) (imm : Word)
  | bge (rs1 rs2 : Reg) (imm : Word)
  | bltu (rs1 rs2 : Reg) (imm : Word)
  | bgeu (rs1 rs2 : Reg) (imm : Word)
  -- format J and format JALR (44_control_transfer.md)
  | jal (rd : Reg) (imm : Word)
  | jalr (rd rs1 : Reg) (imm : Word) (funct3 : BitVec 3)
  -- format SYS (45_system.md)
  | ecall (rest : BitVec 25)
deriving DecidableEq, Repr

end Sys2Proof
end

