-- ==== Sys2Proof/WellFormed.lean ====
section
/-! DEFINITION. Which terms of `Instr` an instruction word can stand for: the immediate lies in its
format's range (30_encoding.md R101 to R106), and bit 30 of a right shift by an immediate, which is
bit 10 of `imm`, selects SRLI or SRAI (R109). Register indices and don't-care fields need no check:
their types hold exactly the values the fields can have. -/

namespace Sys2Proof

/-- R101, R102: "range -2048 to +2047" (formats I, L and JALR). -/
def fitsI (imm : Word) : Bool := decide (-2048 ≤ imm.toInt) && decide (imm.toInt ≤ 2047)

/-- R103: "range 0 to 4095" (format S, zero-extended). -/
def fitsS (imm : Word) : Bool := decide (imm.toNat ≤ 4095)

/-- R104: "an even value in the range -4096 to +4094" (format B). -/
def fitsB (imm : Word) : Bool :=
  decide (-4096 ≤ imm.toInt) && decide (imm.toInt ≤ 4094) && !imm.getLsbD 0

/-- R105: "The low 12 bits are always 0" (format U). -/
def fitsU (imm : Word) : Bool := imm.setWidth 12 == 0#12

/-- R106: "an even value in the range -1048576 to +1048574" (format J). -/
def fitsJ (imm : Word) : Bool :=
  decide (-1048576 ≤ imm.toInt) && decide (imm.toInt ≤ 1048574) && !imm.getLsbD 0

/-- The instruction is one that some word decodes to. -/
def Instr.wellFormed : Instr → Bool
  | .add _ _ _ => true
  | .sub _ _ _ => true
  | .sll _ _ _ _ => true
  | .slt _ _ _ _ => true
  | .sltu _ _ _ _ => true
  | .xor _ _ _ _ => true
  | .srl _ _ _ => true
  | .sra _ _ _ => true
  | .or _ _ _ _ => true
  | .and _ _ _ _ => true
  | .addi _ _ imm => fitsI imm
  | .slli _ _ imm => fitsI imm
  | .slti _ _ imm => fitsI imm
  | .sltiu _ _ imm => fitsI imm
  | .xori _ _ imm => fitsI imm
  | .srli _ _ imm => fitsI imm && !imm.getLsbD 10
  | .srai _ _ imm => fitsI imm && imm.getLsbD 10
  | .ori _ _ imm => fitsI imm
  | .andi _ _ imm => fitsI imm
  | .sb _ _ imm => fitsS imm
  | .sh _ _ imm => fitsS imm
  | .sw _ _ imm => fitsS imm
  | .lb _ _ imm => fitsI imm
  | .lh _ _ imm => fitsI imm
  | .lw _ _ imm => fitsI imm
  | .lbu _ _ imm => fitsI imm
  | .lhu _ _ imm => fitsI imm
  | .auipc _ imm => fitsU imm
  | .lui _ imm => fitsU imm
  | .beq _ _ imm => fitsB imm
  | .bne _ _ imm => fitsB imm
  | .blt _ _ imm => fitsB imm
  | .bge _ _ imm => fitsB imm
  | .bltu _ _ imm => fitsB imm
  | .bgeu _ _ imm => fitsB imm
  | .jal _ imm => fitsJ imm
  | .jalr _ _ imm _ => fitsI imm
  | .ecall _ => true

end Sys2Proof
end

