-- ==== Sys2Proof/Decode.lean ====
section
/-! DEFINITION. The Decoder (30_encoding.md): field extraction, the immediates, the format of an
opcode, the dispatch inside each format, and `decode`, total on all 2^32 words and rejecting by
name. After it the encoder, written from the same layout rules (R93 to R99), the opcode table as
mask and match rows (R118), and the reading of an instruction from bytes. -/

namespace Sys2Proof

/-! ### Bytes and words -/

/-- The little-endian word of four bytes, the first at the lowest offset (20_memory.md R64). -/
def wordOfBytes (b0 b1 b2 b3 : Byte) : Word := b3 ++ b2 ++ b1 ++ b0

/-- Byte k of a word: bits 8k+7 to 8k (20_memory.md R66, R69). -/
def byteOf (w : Word) (k : Nat) : Byte := w.extractLsb' (8 * k) 8

/-- The four bytes of a word as the image holds them, lowest offset first (R64). -/
def bytesOfWord (w : Word) : List Byte := [byteOf w 0, byteOf w 1, byteOf w 2, byteOf w 3]

/-! ### Fields (R91, R92) -/

/-- The index a 5-bit field names (10_state.md R37). -/
def regOfBits (b : BitVec 5) : Reg := b.toFin

/-- `w[6:0]` (R91). -/
def opcode (w : Word) : BitVec 7 := w.extractLsb' 0 7

/-- `w[11:7]` (R92). -/
def rdField (w : Word) : Reg := regOfBits (w.extractLsb' 7 5)

/-- `w[14:12]` (R92). -/
def funct3 (w : Word) : BitVec 3 := w.extractLsb' 12 3

/-- `w[19:15]` (R92). -/
def rs1Field (w : Word) : Reg := regOfBits (w.extractLsb' 15 5)

/-- `w[24:20]` (R92). -/
def rs2Field (w : Word) : Reg := regOfBits (w.extractLsb' 20 5)

/-- `w[31:25]` (R92). -/
def funct7 (w : Word) : BitVec 7 := w.extractLsb' 25 7

/-! ### Immediates (R101 to R106) -/

/-- `sext_12(w[31:20])` (R101; R102 for formats L and JALR). -/
def immI (w : Word) : Word := (w.extractLsb' 20 12).signExtend 32

/-- `zext_12({w[31:25], w[11:7]})`: the store offset is zero-extended (R103). -/
def immS (w : Word) : Word := (w.extractLsb' 25 7 ++ w.extractLsb' 7 5).setWidth 32

/-- `sext_13({w[31], w[7], w[30:25], w[11:8], 1'b0})`: the canonical layout (R104). -/
def immB (w : Word) : Word :=
  (w.extractLsb' 31 1 ++ w.extractLsb' 7 1 ++ w.extractLsb' 25 6 ++ w.extractLsb' 8 4 ++ 0#1).signExtend 32

/-- `{w[31:12], 12'b0}` (R105). -/
def immU (w : Word) : Word := w.extractLsb' 12 20 ++ 0#12

/-- `sext_21({w[31], w[19:12], w[20], w[30:21], 1'b0})` (R106). -/
def immJ (w : Word) : Word :=
  (w.extractLsb' 31 1 ++ w.extractLsb' 12 8 ++ w.extractLsb' 20 1 ++ w.extractLsb' 21 10 ++ 0#1).signExtend 32

/-! ### Formats (R91) -/

/-- The nine format tags. -/
inductive Format where
  | r | i | s | l | u | b | j | jalr | sys
deriving DecidableEq, Repr

/-- R91: the opcode selects the format; any other opcode selects none. -/
def formatOf (op : BitVec 7) : Option Format :=
  if op = 0x33#7 then some .r
  else if op = 0x13#7 then some .i
  else if op = 0x23#7 then some .s
  else if op = 0x03#7 then some .l
  else if op = 0x37#7 then some .u
  else if op = 0x17#7 then some .u
  else if op = 0x63#7 then some .b
  else if op = 0x6F#7 then some .j
  else if op = 0x67#7 then some .jalr
  else if op = 0x73#7 then some .sys
  else none

/-! ### Dispatch inside a format (R108 to R114) -/

/-- Why no instruction is read: the six classes of R115, in its order, and the case of fewer than
four bytes, which `decode` itself never meets (the engine ends the stream there, 20_memory.md R70). -/
inductive DecodeReject where
  /-- R115 item 1. -/
  | unknownOpcode
  /-- R115 item 2: opcode 0x33, funct3 0, funct7 neither 0x00 nor 0x20. -/
  | addSubFunct7
  /-- R115 item 3: opcode 0x33, funct3 5, funct7 neither 0x00 nor 0x20. -/
  | rightShiftFunct7
  /-- R115 item 4: opcode 0x23, funct3 3 to 7. -/
  | storeFunct3
  /-- R115 item 5: opcode 0x03, funct3 3, 6 or 7. -/
  | loadFunct3
  /-- R115 item 6: opcode 0x63, funct3 2 or 3. -/
  | branchFunct3
  /-- Fewer than four bytes (raised by `decodeBytes` only). -/
  | shortWord
deriving DecidableEq, Repr

/-- R108: funct7 is examined only for funct3 0 and 5. -/
def decodeR (w : Word) : Except DecodeReject Instr :=
  if funct3 w = 0#3 then
    if funct7 w = 0x00#7 then .ok (.add (rdField w) (rs1Field w) (rs2Field w))
    else if funct7 w = 0x20#7 then .ok (.sub (rdField w) (rs1Field w) (rs2Field w))
    else .error .addSubFunct7
  else if funct3 w = 1#3 then .ok (.sll (rdField w) (rs1Field w) (rs2Field w) (funct7 w))
  else if funct3 w = 2#3 then .ok (.slt (rdField w) (rs1Field w) (rs2Field w) (funct7 w))
  else if funct3 w = 3#3 then .ok (.sltu (rdField w) (rs1Field w) (rs2Field w) (funct7 w))
  else if funct3 w = 4#3 then .ok (.xor (rdField w) (rs1Field w) (rs2Field w) (funct7 w))
  else if funct3 w = 5#3 then
    if funct7 w = 0x00#7 then .ok (.srl (rdField w) (rs1Field w) (rs2Field w))
    else if funct7 w = 0x20#7 then .ok (.sra (rdField w) (rs1Field w) (rs2Field w))
    else .error .rightShiftFunct7
  else if funct3 w = 6#3 then .ok (.or (rdField w) (rs1Field w) (rs2Field w) (funct7 w))
  else .ok (.and (rdField w) (rs1Field w) (rs2Field w) (funct7 w))

/-- R109: every funct3 is assigned; for funct3 5 bit 30 selects SRLI or SRAI. -/
def decodeI (w : Word) : Except DecodeReject Instr :=
  if funct3 w = 0#3 then .ok (.addi (rdField w) (rs1Field w) (immI w))
  else if funct3 w = 1#3 then .ok (.slli (rdField w) (rs1Field w) (immI w))
  else if funct3 w = 2#3 then .ok (.slti (rdField w) (rs1Field w) (immI w))
  else if funct3 w = 3#3 then .ok (.sltiu (rdField w) (rs1Field w) (immI w))
  else if funct3 w = 4#3 then .ok (.xori (rdField w) (rs1Field w) (immI w))
  else if funct3 w = 5#3 then
    if w.getLsbD 30 = false then .ok (.srli (rdField w) (rs1Field w) (immI w))
    else .ok (.srai (rdField w) (rs1Field w) (immI w))
  else if funct3 w = 6#3 then .ok (.ori (rdField w) (rs1Field w) (immI w))
  else .ok (.andi (rdField w) (rs1Field w) (immI w))

/-- R110. -/
def decodeS (w : Word) : Except DecodeReject Instr :=
  if funct3 w = 0#3 then .ok (.sb (rs1Field w) (rs2Field w) (immS w))
  else if funct3 w = 1#3 then .ok (.sh (rs1Field w) (rs2Field w) (immS w))
  else if funct3 w = 2#3 then .ok (.sw (rs1Field w) (rs2Field w) (immS w))
  else .error .storeFunct3

/-- R111. -/
def decodeL (w : Word) : Except DecodeReject Instr :=
  if funct3 w = 0#3 then .ok (.lb (rdField w) (rs1Field w) (immI w))
  else if funct3 w = 1#3 then .ok (.lh (rdField w) (rs1Field w) (immI w))
  else if funct3 w = 2#3 then .ok (.lw (rdField w) (rs1Field w) (immI w))
  else if funct3 w = 4#3 then .ok (.lbu (rdField w) (rs1Field w) (immI w))
  else if funct3 w = 5#3 then .ok (.lhu (rdField w) (rs1Field w) (immI w))
  else .error .loadFunct3

/-- R112: the funct3 values of the six branches are the spec's decision D5 (notes/assumptions/8.md). -/
def decodeB (w : Word) : Except DecodeReject Instr :=
  if funct3 w = 0#3 then .ok (.beq (rs1Field w) (rs2Field w) (immB w))
  else if funct3 w = 1#3 then .ok (.bne (rs1Field w) (rs2Field w) (immB w))
  else if funct3 w = 4#3 then .ok (.blt (rs1Field w) (rs2Field w) (immB w))
  else if funct3 w = 5#3 then .ok (.bge (rs1Field w) (rs2Field w) (immB w))
  else if funct3 w = 6#3 then .ok (.bltu (rs1Field w) (rs2Field w) (immB w))
  else if funct3 w = 7#3 then .ok (.bgeu (rs1Field w) (rs2Field w) (immB w))
  else .error .branchFunct3

/-- R113: opcode 0x37 is LUI, 0x17 is AUIPC. -/
def decodeU (w : Word) : Except DecodeReject Instr :=
  if opcode w = 0x37#7 then .ok (.lui (rdField w) (immU w))
  else .ok (.auipc (rdField w) (immU w))

/-- R117: `Decode(w)`, a function of the word alone. -/
def decode (w : Word) : Except DecodeReject Instr :=
  match formatOf (opcode w) with
  | some .r => decodeR w
  | some .i => decodeI w
  | some .s => decodeS w
  | some .l => decodeL w
  | some .u => decodeU w
  | some .b => decodeB w
  | some .j => .ok (.jal (rdField w) (immJ w))
  | some .jalr => .ok (.jalr (rdField w) (rs1Field w) (immI w) (funct3 w))
  | some .sys => .ok (.ecall (w.extractLsb' 7 25))
  | none => .error .unknownOpcode

/-- The instruction at the head of a sequence of bytes and the bytes after it (R90, R64). -/
def decodeBytes : List Byte → Except DecodeReject (Instr × List Byte)
  | b0 :: b1 :: b2 :: b3 :: rest =>
    match decode (wordOfBytes b0 b1 b2 b3) with
    | .ok i => .ok (i, rest)
    | .error e => .error e
  | _ => .error .shortWord

/-! ### The encoder (R93 to R99) -/

/-- The 5-bit field that names a register. -/
def regBits (r : Reg) : BitVec 5 := BitVec.ofFin r

/-- Format R (R93). -/
def packR (f7 : BitVec 7) (rs2 rs1 : Reg) (f3 : BitVec 3) (rd : Reg) (op : BitVec 7) : Word :=
  f7 ++ regBits rs2 ++ regBits rs1 ++ f3 ++ regBits rd ++ op

/-- Formats I, L and JALR (R94). -/
def packI (imm : Word) (rs1 : Reg) (f3 : BitVec 3) (rd : Reg) (op : BitVec 7) : Word :=
  imm.extractLsb' 0 12 ++ regBits rs1 ++ f3 ++ regBits rd ++ op

/-- Format S (R95). -/
def packS (imm : Word) (rs2 rs1 : Reg) (f3 : BitVec 3) (op : BitVec 7) : Word :=
  imm.extractLsb' 5 7 ++ regBits rs2 ++ regBits rs1 ++ f3 ++ imm.extractLsb' 0 5 ++ op

/-- Format B (R96). -/
def packB (imm : Word) (rs2 rs1 : Reg) (f3 : BitVec 3) (op : BitVec 7) : Word :=
  imm.extractLsb' 12 1 ++ imm.extractLsb' 5 6 ++ regBits rs2 ++ regBits rs1 ++ f3
    ++ imm.extractLsb' 1 4 ++ imm.extractLsb' 11 1 ++ op

/-- Format U (R97). -/
def packU (imm : Word) (rd : Reg) (op : BitVec 7) : Word :=
  imm.extractLsb' 12 20 ++ regBits rd ++ op

/-- Format J (R98). -/
def packJ (imm : Word) (rd : Reg) (op : BitVec 7) : Word :=
  imm.extractLsb' 20 1 ++ imm.extractLsb' 1 10 ++ imm.extractLsb' 11 1 ++ imm.extractLsb' 12 8
    ++ regBits rd ++ op

/-- Format SYS (R99). -/
def packSys (rest : BitVec 25) (op : BitVec 7) : Word := rest ++ op

/-- The word of an instruction. -/
def encode : Instr → Word
  | .add rd rs1 rs2 => packR 0x00#7 rs2 rs1 0#3 rd 0x33#7
  | .sub rd rs1 rs2 => packR 0x20#7 rs2 rs1 0#3 rd 0x33#7
  | .sll rd rs1 rs2 f7 => packR f7 rs2 rs1 1#3 rd 0x33#7
  | .slt rd rs1 rs2 f7 => packR f7 rs2 rs1 2#3 rd 0x33#7
  | .sltu rd rs1 rs2 f7 => packR f7 rs2 rs1 3#3 rd 0x33#7
  | .xor rd rs1 rs2 f7 => packR f7 rs2 rs1 4#3 rd 0x33#7
  | .srl rd rs1 rs2 => packR 0x00#7 rs2 rs1 5#3 rd 0x33#7
  | .sra rd rs1 rs2 => packR 0x20#7 rs2 rs1 5#3 rd 0x33#7
  | .or rd rs1 rs2 f7 => packR f7 rs2 rs1 6#3 rd 0x33#7
  | .and rd rs1 rs2 f7 => packR f7 rs2 rs1 7#3 rd 0x33#7
  | .addi rd rs1 imm => packI imm rs1 0#3 rd 0x13#7
  | .slli rd rs1 imm => packI imm rs1 1#3 rd 0x13#7
  | .slti rd rs1 imm => packI imm rs1 2#3 rd 0x13#7
  | .sltiu rd rs1 imm => packI imm rs1 3#3 rd 0x13#7
  | .xori rd rs1 imm => packI imm rs1 4#3 rd 0x13#7
  | .srli rd rs1 imm => packI imm rs1 5#3 rd 0x13#7
  | .srai rd rs1 imm => packI imm rs1 5#3 rd 0x13#7
  | .ori rd rs1 imm => packI imm rs1 6#3 rd 0x13#7
  | .andi rd rs1 imm => packI imm rs1 7#3 rd 0x13#7
  | .sb rs1 rs2 imm => packS imm rs2 rs1 0#3 0x23#7
  | .sh rs1 rs2 imm => packS imm rs2 rs1 1#3 0x23#7
  | .sw rs1 rs2 imm => packS imm rs2 rs1 2#3 0x23#7
  | .lb rd rs1 imm => packI imm rs1 0#3 rd 0x03#7
  | .lh rd rs1 imm => packI imm rs1 1#3 rd 0x03#7
  | .lw rd rs1 imm => packI imm rs1 2#3 rd 0x03#7
  | .lbu rd rs1 imm => packI imm rs1 4#3 rd 0x03#7
  | .lhu rd rs1 imm => packI imm rs1 5#3 rd 0x03#7
  | .auipc rd imm => packU imm rd 0x17#7
  | .lui rd imm => packU imm rd 0x37#7
  | .beq rs1 rs2 imm => packB imm rs2 rs1 0#3 0x63#7
  | .bne rs1 rs2 imm => packB imm rs2 rs1 1#3 0x63#7
  | .blt rs1 rs2 imm => packB imm rs2 rs1 4#3 0x63#7
  | .bge rs1 rs2 imm => packB imm rs2 rs1 5#3 0x63#7
  | .bltu rs1 rs2 imm => packB imm rs2 rs1 6#3 0x63#7
  | .bgeu rs1 rs2 imm => packB imm rs2 rs1 7#3 0x63#7
  | .jal rd imm => packJ imm rd 0x6F#7
  | .jalr rd rs1 imm f3 => packI imm rs1 f3 rd 0x67#7
  | .ecall rest => packSys rest 0x73#7

/-! ### The opcode table (R118) -/

/-- The 38 mnemonics of R118 (also the `mnemonic` of the trace record, 00_scope.md R19). -/
inductive Mnemonic where
  | add | sub | sll | slt | sltu | xor | srl | sra | or | and
  | addi | slli | slti | sltiu | xori | srli | srai | ori | andi
  | sb | sh | sw | lb | lh | lw | lbu | lhu | auipc | lui
  | beq | bne | blt | bge | bltu | bgeu | jal | jalr | ecall
deriving DecidableEq, Repr

/-- The row of R118 an instruction belongs to. -/
def Instr.mnemonic : Instr → Mnemonic
  | .add _ _ _ => .add
  | .sub _ _ _ => .sub
  | .sll _ _ _ _ => .sll
  | .slt _ _ _ _ => .slt
  | .sltu _ _ _ _ => .sltu
  | .xor _ _ _ _ => .xor
  | .srl _ _ _ => .srl
  | .sra _ _ _ => .sra
  | .or _ _ _ _ => .or
  | .and _ _ _ _ => .and
  | .addi _ _ _ => .addi
  | .slli _ _ _ => .slli
  | .slti _ _ _ => .slti
  | .sltiu _ _ _ => .sltiu
  | .xori _ _ _ => .xori
  | .srli _ _ _ => .srli
  | .srai _ _ _ => .srai
  | .ori _ _ _ => .ori
  | .andi _ _ _ => .andi
  | .sb _ _ _ => .sb
  | .sh _ _ _ => .sh
  | .sw _ _ _ => .sw
  | .lb _ _ _ => .lb
  | .lh _ _ _ => .lh
  | .lw _ _ _ => .lw
  | .lbu _ _ _ => .lbu
  | .lhu _ _ _ => .lhu
  | .auipc _ _ => .auipc
  | .lui _ _ => .lui
  | .beq _ _ _ => .beq
  | .bne _ _ _ => .bne
  | .blt _ _ _ => .blt
  | .bge _ _ _ => .bge
  | .bltu _ _ _ => .bltu
  | .bgeu _ _ _ => .bgeu
  | .jal _ _ => .jal
  | .jalr _ _ _ _ => .jalr
  | .ecall _ => .ecall

/-- One row of R118: a word is the row's instruction exactly when `w & mask = pattern`. -/
structure OpcodeRow where
  mnemonic : Mnemonic
  mask : Word
  pattern : Word
deriving DecidableEq, Repr

/-- R118, format R. -/
def opcodeRowsR : List OpcodeRow :=
  [⟨.add, 0xFE00707F#32, 0x00000033#32⟩, ⟨.sub, 0xFE00707F#32, 0x40000033#32⟩,
   ⟨.sll, 0x0000707F#32, 0x00001033#32⟩, ⟨.slt, 0x0000707F#32, 0x00002033#32⟩,
   ⟨.sltu, 0x0000707F#32, 0x00003033#32⟩, ⟨.xor, 0x0000707F#32, 0x00004033#32⟩,
   ⟨.srl, 0xFE00707F#32, 0x00005033#32⟩, ⟨.sra, 0xFE00707F#32, 0x40005033#32⟩,
   ⟨.or, 0x0000707F#32, 0x00006033#32⟩, ⟨.and, 0x0000707F#32, 0x00007033#32⟩]

/-- R118, format I. -/
def opcodeRowsI : List OpcodeRow :=
  [⟨.addi, 0x0000707F#32, 0x00000013#32⟩, ⟨.slli, 0x0000707F#32, 0x00001013#32⟩,
   ⟨.slti, 0x0000707F#32, 0x00002013#32⟩, ⟨.sltiu, 0x0000707F#32, 0x00003013#32⟩,
   ⟨.xori, 0x0000707F#32, 0x00004013#32⟩, ⟨.srli, 0x4000707F#32, 0x00005013#32⟩,
   ⟨.srai, 0x4000707F#32, 0x40005013#32⟩, ⟨.ori, 0x0000707F#32, 0x00006013#32⟩,
   ⟨.andi, 0x0000707F#32, 0x00007013#32⟩]

/-- R118, formats S, L and U. -/
def opcodeRowsSLU : List OpcodeRow :=
  [⟨.sb, 0x0000707F#32, 0x00000023#32⟩, ⟨.sh, 0x0000707F#32, 0x00001023#32⟩,
   ⟨.sw, 0x0000707F#32, 0x00002023#32⟩, ⟨.lb, 0x0000707F#32, 0x00000003#32⟩,
   ⟨.lh, 0x0000707F#32, 0x00001003#32⟩, ⟨.lw, 0x0000707F#32, 0x00002003#32⟩,
   ⟨.lbu, 0x0000707F#32, 0x00004003#32⟩, ⟨.lhu, 0x0000707F#32, 0x00005003#32⟩,
   ⟨.auipc, 0x0000007F#32, 0x00000017#32⟩, ⟨.lui, 0x0000007F#32, 0x00000037#32⟩]

/-- R118, formats B, J, JALR and SYS. -/
def opcodeRowsControl : List OpcodeRow :=
  [⟨.beq, 0x0000707F#32, 0x00000063#32⟩, ⟨.bne, 0x0000707F#32, 0x00001063#32⟩,
   ⟨.blt, 0x0000707F#32, 0x00004063#32⟩, ⟨.bge, 0x0000707F#32, 0x00005063#32⟩,
   ⟨.bltu, 0x0000707F#32, 0x00006063#32⟩, ⟨.bgeu, 0x0000707F#32, 0x00007063#32⟩,
   ⟨.jal, 0x0000007F#32, 0x0000006F#32⟩, ⟨.jalr, 0x0000007F#32, 0x00000067#32⟩,
   ⟨.ecall, 0x0000007F#32, 0x00000073#32⟩]

/-- The 38 rows of R118, in its order. -/
def opcodeTable : List OpcodeRow :=
  opcodeRowsR ++ opcodeRowsI ++ opcodeRowsSLU ++ opcodeRowsControl

/-- The mnemonic of the instruction a word decodes to, none on a decode fault. -/
def mnemonicOf (w : Word) : Option Mnemonic :=
  match decode w with
  | .ok i => some i.mnemonic
  | .error _ => none

/-! ### The host's reading of one table word -/

/-- The instruction read from a word given as a number, bit 0 the least significant bit of its
first byte; bits at and above `nbits` are 0. The bytes are laid out as the image holds them and
given to `decodeBytes`. -/
def decodeTableWord (nbits w : Nat) : Option Instr :=
  match decodeBytes (bytesOfWord (BitVec.ofNat 32 (w % 2 ^ nbits))) with
  | .ok (i, _) => some i
  | .error _ => none

end Sys2Proof
end

