-- ==== Sys2Proof/Config.lean ====
section
/-! DEFINITION. The implementation parameters of 00_scope.md R9 to R15, as plain data. They are
constant for a run (70_reset_and_hazards.md R281). The model fixes none of them: a state carries
its configuration (notes/assumptions/1.md), so a statement about every state is about every
configuration. The B-format immediate layout is no parameter: CANONICAL B-IMMEDIATE SEMANTICS ARE
ACTIVE (R16, 30_encoding.md R104, 92_eei_decisions.md D1). -/

namespace Sys2Proof

/-- `DECODE_FAULT_POLICY` (00_scope.md R14): what an undecodable word does. -/
inductive DecodeFaultPolicy where
  | halt
  | skip
deriving DecidableEq, Repr

/-- The parameters of a run and its program image. -/
structure Config where
  /-- `DMEM_SIZE`, the number of bytes of DataMemory (R9). -/
  dmemSize : Nat
  /-- `IMAGE`, the immutable program image (R10, 10_state.md R43). -/
  image : List Byte
  /-- `SEED_DMEM`: reset copies the image into DataMemory (R11). -/
  seedDmem : Bool
  /-- `DMEM_INIT`: reset contents of DataMemory as (address, byte) pairs; an address that is not
  listed is 0x00, the first pair of an address counts (R12, notes/assumptions/4.md). -/
  dmemInit : List Host.Cell
  /-- `LOCK_INIT`: bit i is the reset value of register i's lock flag; bit 0 counts as 1 (R13). -/
  lockInit : Word
  /-- `DECODE_FAULT_POLICY` (R14). -/
  decodeFaultPolicy : DecodeFaultPolicy
  /-- `MAX_STEPS` (R15). -/
  maxSteps : Option Nat
deriving DecidableEq, Repr

/-- `IMAGE_SIZE` (R10). -/
def Config.imageSize (c : Config) : Nat := c.image.length

/-- The default of every parameter (R9, R11 to R15), with an empty image: a program is supplied
from outside (notes/assumptions/2.md, notes/assumptions/5.md). -/
def Config.defaults : Config where
  dmemSize := 1048576
  image := []
  seedDmem := false
  dmemInit := []
  lockInit := 0x00000001#32
  decodeFaultPolicy := .halt
  maxSteps := none

end Sys2Proof
end

