-- ==== Sys2Proof/Machine/State.lean ====
section
/-! DEFINITION. The complete state of the engine (10_state.md R30), the reasons a step can stop, and
the state after reset (R50). -/

namespace Sys2Proof.Machine

/-- What `halt_cause` can hold (60_exceptions.md R241); the codes are `HaltCause.code`. -/
inductive HaltCause where
  /-- Running. -/
  | none
  /-- A word with opcode 0x73 was executed (R242). -/
  | ecallHalt
  /-- The fetch found no word (R243). -/
  | endOfStream
  /-- The word decodes to no instruction (R244). -/
  | decodeFault
  /-- A load or store outside DataMemory (R245). -/
  | memoryBoundsFault
  /-- `MAX_STEPS` cycles have completed (R246). -/
  | stepLimit
deriving DecidableEq, Repr

/-- DataMemory as (address, byte) pairs; an address that is not listed reads as `unlistedByte`. -/
abbrev Memory := List Host.Cell

/-- The state of the engine, R30 (a) to (f), and the parameters of the run, which no step changes
(notes/assumptions/1.md). -/
structure State where
  /-- `RF.value[0..31]` (R30 a). -/
  rfValue : Vector Word 32
  /-- `RF.locked[0..31]` (R30 b). -/
  rfLocked : Vector Bool 32
  /-- `pc`, the byte address in the image of the instruction being executed (R30 c, R38). -/
  pc : Word
  /-- `DMEM` (R30 d, R42). -/
  dmem : Memory
  /-- `halted` (R30 e, R44). -/
  halted : Bool
  /-- `halt_cause` (R30 e, R44). -/
  haltCause : HaltCause
  /-- `halt_pc` (R30 e, R45). -/
  haltPc : Word
  /-- `halt_word` (R30 e, R45). -/
  haltWord : Word
  /-- `halt_addr` (R30 e, R45). -/
  haltAddr : Word
  /-- `steps`, the cycles completed without halting since reset (R30 f, R46). -/
  steps : Nat
  /-- The parameters and the image: not state of the engine (R43), constant for the run (R281). -/
  cfg : Config
deriving DecidableEq, Repr

/-- Reasons a step ends in the interface's fault: there is none. Every exceptional condition of the
engine halts it, and a halt is state (60_exceptions.md R240, notes/assumptions/7.md). -/
inductive Fault where
deriving DecidableEq, Repr

/-- Reasons a request has no meaning. No step of the engine raises one. -/
inductive Refusal where
  /-- An instruction without a meaning. Raised by no arm of `exec`: every instruction has one. Safe. -/
  | notModelled (mnemonic : String)
  /-- A reset with `DMEM_SIZE` = 0 or above 2^32 (70_reset_and_hazards.md R282). Raised by
  `resetWith` and the clock edge with `rst` = 1. Safe: the spec gives no reset state. -/
  | dmemSizeOutOfRange
  /-- A reset with an image of more than 2^32 bytes (R282). Raised as the one before. Safe. -/
  | imageSizeOutOfRange
  /-- `ImageTooLargeError`: seeding with an image larger than DataMemory (R282, 60_exceptions.md
  R248). Raised as the one before. Safe. -/
  | imageTooLarge
deriving DecidableEq, Repr

/-- The state after reset with the default parameters and no program (R50; the image is supplied
from outside, notes/assumptions/5.md). `resetWith` is reset for every configuration. -/
def State.reset : State where
  rfValue := Vector.replicate 32 0#32
  rfLocked := (Vector.replicate 32 false).set 0 true
  pc := 0#32
  dmem := []
  halted := false
  haltCause := .none
  haltPc := 0#32
  haltWord := 0#32
  haltAddr := 0#32
  steps := 0
  cfg := Config.defaults

end Sys2Proof.Machine
end

