-- ==== Sys2Proof/Machine/Ops.lean ====
section
/-! DEFINITION. The shared operations: DataMemory byte by byte, the register file with its write
lock, the memory primitives `MemRead` and `MemWrite`, `Fetch`, halting, and the end of a cycle. -/

namespace Sys2Proof.Machine

/-! ### DataMemory as a list of cells -/

/-- What a byte that is not listed reads as (00_scope.md R12: "Default: every byte 0x00"; other
reset contents are listed at reset; notes/assumptions/3.md). -/
def unlistedByte : Byte := 0#8

/-- The byte at an address. -/
def Memory.read : Memory → Nat → Byte
  | [], _ => unlistedByte
  | c :: m, a => if c.1 = a then c.2 else Memory.read m a

/-- The memory without any cell for an address. -/
def Memory.erase (m : Memory) (a : Nat) : Memory := m.filter fun c => !(c.1 == a)

/-- A cell put before the first cell of a higher address. -/
def Memory.insert : Memory → Nat → Byte → Memory
  | [], a, v => [(a, v)]
  | c :: m, a, v => if a < c.1 then (a, v) :: c :: m else c :: Memory.insert m a v

/-- One byte stored. Storing what an unlisted address reads as removes the cell. -/
def Memory.write (m : Memory) (a : Nat) (v : Byte) : Memory :=
  if v = unlistedByte then Memory.erase m a else Memory.insert (Memory.erase m a) a v

/-- Cells stored one after the other, the first first. -/
def Memory.writeAll (m : Memory) (cells : List Host.Cell) : Memory :=
  cells.foldl (fun m c => Memory.write m c.1 c.2) m

/-- The canonical form: addresses strictly rising, no cell equal to an unlisted one. -/
abbrev Memory.wf (m : Memory) : Prop :=
  m.Pairwise (fun c d => c.1 < d.1) ∧ ∀ c ∈ m, c.2 ≠ unlistedByte

/-- DataMemory replaced. -/
def State.setDmem (s : State) (m : Memory) : State := { s with dmem := m }

/-- `DMEM[a]` (10_state.md R42). -/
def State.readByte (s : State) (a : Nat) : Byte := Memory.read s.dmem a

/-! ### The register file (10_state.md R31 to R35) -/

/-- `x[i]` (R33): always succeeds, whatever the lock; register 0 is hardwired to 0 (R32). -/
def State.readReg (s : State) (i : Reg) : Word := if i = 0 then 0#32 else s.rfValue[i.val]

/-- `RF.locked[i]`; register 0 is permanently locked (R32). -/
def State.isLocked (s : State) (i : Reg) : Bool := i = 0 || s.rfLocked[i.val]

/-- The register file with value i replaced. -/
def State.setReg (s : State) (i : Reg) (v : Word) : State :=
  { s with rfValue := s.rfValue.set i.val v }

/-- `x[i] <- v` through the lock check (R34): a write to a locked register changes nothing. -/
def State.writeReg (s : State) (i : Reg) (v : Word) : State :=
  if s.isLocked i then s else s.setReg i v

/-- The snapshot of all 32 registers, value and lock flag (R58). -/
def State.snapshot (s : State) : Vector (Word × Bool) 32 :=
  Vector.ofFn fun i => (s.readReg i, s.isLocked i)

/-! ### The program counter (10_state.md R49) -/

/-- `pc <- t`. -/
def State.setPc (s : State) (t : Word) : State := { s with pc := t }

/-- The implicit `pc <- pc + 4`, modulo 2^32 (00_scope.md R25). -/
def State.advancePc (s : State) : State := s.setPc (s.pc + 4#32)

/-! ### MemRead and MemWrite (20_memory.md R65 to R67) -/

/-- The widths of a data access (R72). -/
inductive Width where
  | byte
  | half
  | word
deriving DecidableEq, Repr

/-- The number of bytes n of an access, in 1, 2, 4. -/
def Width.bytes : Width → Nat
  | .byte => 1
  | .half => 2
  | .word => 4

/-- R67: in bounds exactly when `u(addr) + n ≤ DMEM_SIZE`, on unbounded integers. -/
def State.inBounds (s : State) (addr : Word) (n : Width) : Bool :=
  decide (addr.toNat + n.bytes ≤ s.cfg.dmemSize)

/-- The little-endian value of the n bytes at an address, zero-extended to a word (R65). -/
def Memory.readValue (m : Memory) (a : Nat) : Width → Word
  | .byte => (Memory.read m a).setWidth 32
  | .half => (Memory.read m (a + 1) ++ Memory.read m a).setWidth 32
  | .word => Memory.read m (a + 3) ++ Memory.read m (a + 2) ++ Memory.read m (a + 1) ++ Memory.read m a

/-- The (address, byte) pairs a store writes: byte k of the value at address + k (R66). -/
def storeCells (a : Nat) (n : Width) (v : Word) : List Host.Cell :=
  (List.range n.bytes).map fun k => (a + k, byteOf v k)

/-- `MemRead(addr, n)`: none when out of bounds (R65). -/
def State.memRead (s : State) (addr : Word) (n : Width) : Option Word :=
  if s.inBounds addr n then some (Memory.readValue s.dmem addr.toNat n) else none

/-- `MemWrite(addr, n, v)`: none when out of bounds, and then no byte is written (R66). -/
def State.memWrite (s : State) (addr : Word) (n : Width) (v : Word) : Option State :=
  if s.inBounds addr n then
    some (s.setDmem (Memory.writeAll s.dmem (storeCells addr.toNat n v)))
  else none

/-! ### Fetch (20_memory.md R70) -/

/-- `Fetch(pc)`: the little-endian word at offset pc of the image, none (`EndOfStream`) when
`u(pc) + 4 > IMAGE_SIZE`. -/
def State.fetch (s : State) : Option Word :=
  let a := s.pc.toNat
  let img := s.cfg.image
  if s.cfg.imageSize < a + 4 then none
  else some (wordOfBytes (img.getD a 0#8) (img.getD (a + 1) 0#8) (img.getD (a + 2) 0#8) (img.getD (a + 3) 0#8))

/-! ### Halting (60_exceptions.md R240 to R254) -/

/-- The 3-bit code of a cause (R241). -/
def HaltCause.code : HaltCause → BitVec 3
  | .none => 0#3
  | .ecallHalt => 1#3
  | .endOfStream => 2#3
  | .decodeFault => 3#3
  | .memoryBoundsFault => 4#3
  | .stepLimit => 5#3

/-- `raise cause(pc, word, addr)`, the engine's taking of an exception: the run status is written,
`halt_pc` with the pc of the cycle, and nothing else changes (R249, R253). There is no return from
a halt (R254); only reset leaves it. -/
def State.haltWith (s : State) (cause : HaltCause) (word addr : Word) : State :=
  { s with halted := true, haltCause := cause, haltPc := s.pc, haltWord := word, haltAddr := addr }

/-- The check of step 1 of the cycle: `MAX_STEPS` = some n and steps ≥ n (10_state.md R55). -/
def State.stepLimitReached (s : State) : Bool :=
  match s.cfg.maxSteps with
  | some n => decide (n ≤ s.steps)
  | none => false

/-- One more cycle completed without halting (10_state.md R46). -/
def State.countStep (s : State) : State := { s with steps := s.steps + 1 }

/-- The outcomes of the engine. -/
abbrev Result := Host.Outcome State Fault Refusal

/-- Step 5 of the cycle: `steps` is incremented unless the instruction halted (R55, R252). -/
def finishCycle : Result → Result
  | .next t => .next (if t.halted then t else t.countStep)
  | .fault r => .fault r
  | .refused r => .refused r

/-- An undecodable word (R244): halt, or with the skip policy pass over it. -/
def State.decodeFault (s : State) (w : Word) : State :=
  match s.cfg.decodeFaultPolicy with
  | .halt => s.haltWith .decodeFault w 0#32
  | .skip => s.advancePc.countStep

end Sys2Proof.Machine
end

