-- ==== Sys2Proof/Machine/Flags.lean ====
section
/-! DEFINITION. The engine has no status flags (10_state.md R39): compares write 0 or 1 into a
register and branches compare two registers directly. This file holds those comparisons (00_scope.md
R21, 40_alu_reg.md R142). -/

namespace Sys2Proof.Machine

/-- `a <s b`: s(a) < s(b). -/
def ltSigned (a b : Word) : Bool := decide (a.toInt < b.toInt)

/-- `a <u b`: u(a) < u(b). -/
def ltUnsigned (a b : Word) : Bool := decide (a.toNat < b.toNat)

/-- `c ? 1 : 0`. -/
def boolWord (c : Bool) : Word := if c then 1#32 else 0#32

end Sys2Proof.Machine
end

