-- ==== Sys2Proof/Machine/Operands.lean ====
section
/-! DEFINITION. The operand forms: the one addressing mode, the shift amount, the targets of control
transfers, the extension of loaded data, and the two ways a register-writing or a branching
instruction ends. -/

namespace Sys2Proof.Machine

/-- The effective address `x[rs1] + imm` modulo 2^32: the one addressing mode (20_memory.md R82,
42_store_load.md R180). -/
def State.effAddr (s : State) (rs1 : Reg) (imm : Word) : Word := s.readReg rs1 + imm

/-- `v & 0x1F`, 0 to 31 (30_encoding.md R107, 40_alu_reg.md R143). -/
def shiftAmount (v : Word) : Nat := (v &&& 0x0000001F#32).toNat

/-- `a << n` (00_scope.md R21). -/
def shiftLeft (a : Word) (n : Nat) : Word := a <<< n

/-- `a >>u n`, zeros enter at the top (R21). -/
def shiftRightLogical (a : Word) (n : Nat) : Word := a >>> n

/-- `a >>s n`, copies of bit 31 enter at the top (R21). -/
def shiftRightArith (a : Word) (n : Nat) : Word := a.sshiftRight n

/-- `pc + imm` modulo 2^32, the target of a taken branch and of JAL (44_control_transfer.md R200, R207). -/
def State.pcRelative (s : State) (imm : Word) : Word := s.pc + imm

/-- `(x[rs1] + imm) & 0xFFFFFFFE`, the target of JALR (R208). -/
def State.jalrTarget (s : State) (rs1 : Reg) (imm : Word) : Word :=
  (s.readReg rs1 + imm) &&& 0xFFFFFFFE#32

/-- The extension of a loaded value. -/
inductive Extend where
  | sign
  | zero
deriving DecidableEq, Repr

/-- `sext_8n` or `zext_8n` of the n bytes a load read (42_store_load.md R174; for LW a 32-bit value
is itself, R177). -/
def extendLoaded (e : Extend) (n : Width) (v : Word) : Word :=
  match e, n with
  | .zero, _ => v
  | .sign, .byte => (v.setWidth 8).signExtend 32
  | .sign, .half => (v.setWidth 16).signExtend 32
  | .sign, .word => v

/-- The end of an R, I, L or U instruction: `x[rd] <- v`, then `pc <- pc + 4`. -/
def writeResult (rd : Reg) (v : Word) (s : State) : Result :=
  .next (s.writeReg rd v).advancePc

/-- The end of a branch: `pc + imm` when the condition holds, else `pc + 4` (R200). -/
def branchOn (cond : Bool) (imm : Word) (s : State) : Result :=
  .next (if cond then s.setPc (s.pcRelative imm) else s.advancePc)

/-- The end of a jump: the link `pc + 4` through the lock check, then the target (R207, R208, R212). -/
def jumpAndLink (rd : Reg) (target : Word) (s : State) : Result :=
  .next ((s.writeReg rd (s.pc + 4#32)).setPc target)

/-- A load (R174): `w` is the instruction's word, recorded when the access is out of bounds (R245). -/
def loadValue (w : Word) (n : Width) (e : Extend) (rd rs1 : Reg) (imm : Word) (s : State) : Result :=
  match s.memRead (s.effAddr rs1 imm) n with
  | some v => writeResult rd (extendLoaded e n v) s
  | none => .next (s.haltWith .memoryBoundsFault w (s.effAddr rs1 imm))

/-- A store (R170): `w` is the instruction's word, recorded when the access is out of bounds (R245). -/
def storeValue (w : Word) (n : Width) (rs1 rs2 : Reg) (imm : Word) (s : State) : Result :=
  match s.memWrite (s.effAddr rs1 imm) n (s.readReg rs2) with
  | some t => .next t.advancePc
  | none => .next (s.haltWith .memoryBoundsFault w (s.effAddr rs1 imm))

end Sys2Proof.Machine
end

