-- ==== Sys2Proof/Machine/AluImm.lean ====
section
/-! DEFINITION. Register-immediate ALU instructions (41_alu_imm.md): ADDI to ANDI. -/

namespace Sys2Proof.Machine

/-- R151. -/
def execAddi (rd rs1 : Reg) (imm : Word) (s : State) : Result :=
  writeResult rd (s.readReg rs1 + imm) s

/-- R152. -/
def execSlli (rd rs1 : Reg) (imm : Word) (s : State) : Result :=
  writeResult rd (shiftLeft (s.readReg rs1) (shiftAmount imm)) s

/-- R153. -/
def execSlti (rd rs1 : Reg) (imm : Word) (s : State) : Result :=
  writeResult rd (boolWord (ltSigned (s.readReg rs1) imm)) s

/-- R154: the sign-extended immediate is read as unsigned. -/
def execSltiu (rd rs1 : Reg) (imm : Word) (s : State) : Result :=
  writeResult rd (boolWord (ltUnsigned (s.readReg rs1) imm)) s

/-- R155. -/
def execXori (rd rs1 : Reg) (imm : Word) (s : State) : Result :=
  writeResult rd (s.readReg rs1 ^^^ imm) s

/-- R156. -/
def execSrli (rd rs1 : Reg) (imm : Word) (s : State) : Result :=
  writeResult rd (shiftRightLogical (s.readReg rs1) (shiftAmount imm)) s

/-- R157. -/
def execSrai (rd rs1 : Reg) (imm : Word) (s : State) : Result :=
  writeResult rd (shiftRightArith (s.readReg rs1) (shiftAmount imm)) s

/-- R158. -/
def execOri (rd rs1 : Reg) (imm : Word) (s : State) : Result :=
  writeResult rd (s.readReg rs1 ||| imm) s

/-- R159. -/
def execAndi (rd rs1 : Reg) (imm : Word) (s : State) : Result :=
  writeResult rd (s.readReg rs1 &&& imm) s

end Sys2Proof.Machine
end

