-- ==== Sys2Proof/Machine/AluReg.lean ====
section
/-! DEFINITION. Register-register ALU instructions (40_alu_reg.md): ADD to AND. -/

namespace Sys2Proof.Machine

/-- R131. -/
def execAdd (rd rs1 rs2 : Reg) (s : State) : Result :=
  writeResult rd (s.readReg rs1 + s.readReg rs2) s

/-- R132. -/
def execSub (rd rs1 rs2 : Reg) (s : State) : Result :=
  writeResult rd (s.readReg rs1 - s.readReg rs2) s

/-- R133. -/
def execSll (rd rs1 rs2 : Reg) (s : State) : Result :=
  writeResult rd (shiftLeft (s.readReg rs1) (shiftAmount (s.readReg rs2))) s

/-- R134. -/
def execSlt (rd rs1 rs2 : Reg) (s : State) : Result :=
  writeResult rd (boolWord (ltSigned (s.readReg rs1) (s.readReg rs2))) s

/-- R135. -/
def execSltu (rd rs1 rs2 : Reg) (s : State) : Result :=
  writeResult rd (boolWord (ltUnsigned (s.readReg rs1) (s.readReg rs2))) s

/-- R136. -/
def execXor (rd rs1 rs2 : Reg) (s : State) : Result :=
  writeResult rd (s.readReg rs1 ^^^ s.readReg rs2) s

/-- R137. -/
def execSrl (rd rs1 rs2 : Reg) (s : State) : Result :=
  writeResult rd (shiftRightLogical (s.readReg rs1) (shiftAmount (s.readReg rs2))) s

/-- R138. -/
def execSra (rd rs1 rs2 : Reg) (s : State) : Result :=
  writeResult rd (shiftRightArith (s.readReg rs1) (shiftAmount (s.readReg rs2))) s

/-- R139. -/
def execOr (rd rs1 rs2 : Reg) (s : State) : Result :=
  writeResult rd (s.readReg rs1 ||| s.readReg rs2) s

/-- R140. -/
def execAnd (rd rs1 rs2 : Reg) (s : State) : Result :=
  writeResult rd (s.readReg rs1 &&& s.readReg rs2) s

end Sys2Proof.Machine
end

