-- ==== Sys2Proof/Machine/ControlTransfer.lean ====
section
/-! DEFINITION. Control-transfer instructions (44_control_transfer.md): BEQ to BGEU, JAL, JALR. No
target is checked for alignment (R210); a target outside the image ends the next cycle (R243). -/

namespace Sys2Proof.Machine

/-- R201. -/
def execBeq (rs1 rs2 : Reg) (imm : Word) (s : State) : Result :=
  branchOn (s.readReg rs1 == s.readReg rs2) imm s

/-- R202. -/
def execBne (rs1 rs2 : Reg) (imm : Word) (s : State) : Result :=
  branchOn (!(s.readReg rs1 == s.readReg rs2)) imm s

/-- R203. -/
def execBlt (rs1 rs2 : Reg) (imm : Word) (s : State) : Result :=
  branchOn (ltSigned (s.readReg rs1) (s.readReg rs2)) imm s

/-- R204: the exact complement of BLT. -/
def execBge (rs1 rs2 : Reg) (imm : Word) (s : State) : Result :=
  branchOn (!(ltSigned (s.readReg rs1) (s.readReg rs2))) imm s

/-- R205. -/
def execBltu (rs1 rs2 : Reg) (imm : Word) (s : State) : Result :=
  branchOn (ltUnsigned (s.readReg rs1) (s.readReg rs2)) imm s

/-- R206: the exact complement of BLTU. -/
def execBgeu (rs1 rs2 : Reg) (imm : Word) (s : State) : Result :=
  branchOn (!(ltUnsigned (s.readReg rs1) (s.readReg rs2))) imm s

/-- R207. -/
def execJal (rd : Reg) (imm : Word) (s : State) : Result :=
  jumpAndLink rd (s.pcRelative imm) s

/-- R208: the target uses x[rs1] as at the start of the cycle, also when rd = rs1 (10_state.md R56). -/
def execJalr (rd rs1 : Reg) (imm : Word) (s : State) : Result :=
  jumpAndLink rd (s.jalrTarget rs1 imm) s

end Sys2Proof.Machine
end

