-- ==== Sys2Proof/Machine/StoreLoad.lean ====
section
/-! DEFINITION. Store and load instructions (42_store_load.md): SB, SH, SW, LB, LH, LW, LBU, LHU. The
offset is part of the instruction: zero-extended for stores, sign-extended for loads (R181). -/

namespace Sys2Proof.Machine

/-- R171. -/
def execSb (rs1 rs2 : Reg) (imm : Word) (s : State) : Result :=
  storeValue (encode (.sb rs1 rs2 imm)) .byte rs1 rs2 imm s

/-- R172. -/
def execSh (rs1 rs2 : Reg) (imm : Word) (s : State) : Result :=
  storeValue (encode (.sh rs1 rs2 imm)) .half rs1 rs2 imm s

/-- R173. -/
def execSw (rs1 rs2 : Reg) (imm : Word) (s : State) : Result :=
  storeValue (encode (.sw rs1 rs2 imm)) .word rs1 rs2 imm s

/-- R175. -/
def execLb (rd rs1 : Reg) (imm : Word) (s : State) : Result :=
  loadValue (encode (.lb rd rs1 imm)) .byte .sign rd rs1 imm s

/-- R176. -/
def execLh (rd rs1 : Reg) (imm : Word) (s : State) : Result :=
  loadValue (encode (.lh rd rs1 imm)) .half .sign rd rs1 imm s

/-- R177. -/
def execLw (rd rs1 : Reg) (imm : Word) (s : State) : Result :=
  loadValue (encode (.lw rd rs1 imm)) .word .sign rd rs1 imm s

/-- R178. -/
def execLbu (rd rs1 : Reg) (imm : Word) (s : State) : Result :=
  loadValue (encode (.lbu rd rs1 imm)) .byte .zero rd rs1 imm s

/-- R179. -/
def execLhu (rd rs1 : Reg) (imm : Word) (s : State) : Result :=
  loadValue (encode (.lhu rd rs1 imm)) .half .zero rd rs1 imm s

end Sys2Proof.Machine
end

