-- ==== Sys2Proof/Machine/System.lean ====
section
/-! DEFINITION. The system instruction (45_system.md): ECALL, every word with opcode 0x73. -/

namespace Sys2Proof.Machine

/-- R230: `raise ECALL_HALT(pc, w)`; the pc is not advanced. `rest` is bits 31 to 7 of the word,
read by nothing but the record of the word. -/
def execEcall (rest : BitVec 25) (s : State) : Result :=
  .next (s.haltWith .ecallHalt (encode (.ecall rest)) 0#32)

end Sys2Proof.Machine
end

