-- ==== Sys2Proof/Machine/UpperImm.lean ====
section
/-! DEFINITION. Upper-immediate instructions (43_upper_imm.md): AUIPC and LUI. -/

namespace Sys2Proof.Machine

/-- R190: pc is the address of the AUIPC itself. -/
def execAuipc (rd : Reg) (imm : Word) (s : State) : Result :=
  writeResult rd (s.pc + imm) s

/-- R191. -/
def execLui (rd : Reg) (imm : Word) (s : State) : Result :=
  writeResult rd imm s

end Sys2Proof.Machine
end

