-- ==== Sys2Proof/Machine/Cycle.lean ====
section
/-! DEFINITION. The cycle (10_state.md R55): step limit, fetch, decode, execute, commit. -/

namespace Sys2Proof.Machine

/-- Steps 3 to 5 of the cycle for the fetched word `w`. -/
def runWord (w : Word) (s : State) : Result :=
  match decode w with
  | .error _ => .next (s.decodeFault w)
  | .ok i => finishCycle (exec i s)

/-- One cycle, given what `Fetch(pc)` answers. A halted engine does nothing (R54); the order of the
checks is R55's and R251's. -/
def cycle (fetched : Option Word) (s : State) : Result :=
  if s.halted then .next s
  else if s.stepLimitReached then .next (s.haltWith .stepLimit 0#32 0#32)
  else
    match fetched with
    | none => .next (s.haltWith .endOfStream 0#32 0#32)
    | some w => runWord w s

/-- The image with four bytes placed at offset `a`, padded with 0x00 up to there. -/
def placeBytes (image : List Byte) (a : Nat) (bytes : List Byte) : List Byte :=
  image.take a ++ List.replicate (a - image.length) 0#8 ++ bytes ++ image.drop (a + bytes.length)

/-- The run status of a running engine (10_state.md R44, R45). -/
def State.running (s : State) : State :=
  { s with halted := false, haltCause := .none, haltPc := 0#32, haltWord := 0#32, haltAddr := 0#32 }

/-- What lets the next cycle fetch and run `w`: the word in the image at pc, the engine running,
and no step limit that is already reached (notes/assumptions/6.md). -/
def State.placeWord (s : State) (w : Word) : State :=
  let r := if s.halted then s.running else s
  { r with cfg := { s.cfg with
      image := placeBytes s.cfg.image s.pc.toNat (bytesOfWord w)
      maxSteps := if s.stepLimitReached then none else s.cfg.maxSteps } }

end Sys2Proof.Machine
end

