-- ==== Sys2Proof/Machine/Step.lean ====
section
/-! DEFINITION. The step of the engine, one cycle of 10_state.md R55 on its own image. -/

namespace Sys2Proof.Machine

/-- One cycle. -/
def step (s : State) : Host.Outcome State Fault Refusal := cycle s.fetch s

/-- The state with the word `w` (bits at and above `nbits` are 0) where the next cycle fetches:
in the image at pc. It stands for the program being supplied from outside (notes/assumptions/5.md). -/
def State.withFetchWord (s : State) (nbits w : Nat) : State :=
  s.placeWord (BitVec.ofNat 32 (w % 2 ^ nbits))

end Sys2Proof.Machine
end

