-- ==== Sys2Proof/Machine/Reset.lean ====
section
/-! DEFINITION. Reset for every configuration (70_reset_and_hazards.md R280, R282; 10_state.md R50):
the configuration check, the lock flags from `LOCK_INIT`, DataMemory from `DMEM_INIT`, and the
optional copy of the image over it. -/

namespace Sys2Proof.Machine

/-- R282: why a configuration has no reset state, none when it has one. -/
def configProblem (c : Config) : Option Refusal :=
  if c.dmemSize = 0 ∨ 2 ^ 32 < c.dmemSize then some .dmemSizeOutOfRange
  else if 2 ^ 32 < c.imageSize then some .imageSizeOutOfRange
  else if c.seedDmem = true ∧ c.dmemSize < c.imageSize then some .imageTooLarge
  else none

/-- `LOCK_INIT` as 32 flags, bit 0 taken as 1 (00_scope.md R13). -/
def initialLocks (mask : Word) : Vector Bool 32 :=
  Vector.ofFn fun i => i.val == 0 || mask.getLsbD i.val

/-- `DMEM_INIT(a)`: the first pair listed for an address, 0x00 where there is none (R12). -/
def dmemInitByte (c : Config) (a : Nat) : Byte := Memory.read c.dmemInit a

/-- DataMemory holding `DMEM_INIT` on 0 .. DMEM_SIZE-1, in canonical form. -/
def initialContents (c : Config) : Memory :=
  (c.dmemInit.filter fun p => decide (p.1 < c.dmemSize)).foldr (fun p m => Memory.write m p.1 p.2) []

/-- The image as cells from address 0. -/
def imageCells (image : List Byte) : List Host.Cell := image.zipIdx.map fun p => (p.2, p.1)

/-- DataMemory at reset (20_memory.md R81): `DMEM_INIT`, then the image over it when seeding. -/
def initialDmem (c : Config) : Memory :=
  if c.seedDmem then Memory.writeAll (initialContents c) (imageCells c.image) else initialContents c

/-- The reset state of a configuration (R50). -/
def initialState (c : Config) : State where
  rfValue := Vector.replicate 32 0#32
  rfLocked := initialLocks c.lockInit
  pc := 0#32
  dmem := initialDmem c
  halted := false
  haltCause := .none
  haltPc := 0#32
  haltWord := 0#32
  haltAddr := 0#32
  steps := 0
  cfg := c

/-- Reset (R280): the reset state, or a refusal where R282 is not met. It does not depend on the
state before. -/
def resetWith (c : Config) : Result :=
  match configProblem c with
  | some r => .refused r
  | none => .next (initialState c)

end Sys2Proof.Machine
end

