-- ==== Sys2Proof/Machine/Trace.lean ====
section
/-! DEFINITION. The trace record of a cycle (00_scope.md R19), a pure function of the state before
it: no rule reads it and the state after a cycle does not depend on it. -/

namespace Sys2Proof.Machine

/-- The record of R19. -/
structure TraceRecord where
  /-- The address of the instruction executed. -/
  pc : Word
  rawWord : Word
  opcode : BitVec 7
  /-- None on a decode fault. -/
  mnemonic : Option Mnemonic
  registersBefore : Vector Word 32
  registersAfter : Vector Word 32
  /-- The (address, byte) pairs written; empty unless a store. -/
  memoryWrites : List Host.Cell
  /-- The cycle attempted a write to a locked register (10_state.md R34). -/
  lockedWriteWarning : Bool
deriving DecidableEq, Repr

/-- The destination register of an instruction: `rd` of formats R, I, L, U, J and JALR, none for S,
B and SYS (10_state.md R53). -/
def destOf : Instr → Option Reg
  | .add rd _ _ => some rd
  | .sub rd _ _ => some rd
  | .sll rd _ _ _ => some rd
  | .slt rd _ _ _ => some rd
  | .sltu rd _ _ _ => some rd
  | .xor rd _ _ _ => some rd
  | .srl rd _ _ => some rd
  | .sra rd _ _ => some rd
  | .or rd _ _ _ => some rd
  | .and rd _ _ _ => some rd
  | .addi rd _ _ => some rd
  | .slli rd _ _ => some rd
  | .slti rd _ _ => some rd
  | .sltiu rd _ _ => some rd
  | .xori rd _ _ => some rd
  | .srli rd _ _ => some rd
  | .srai rd _ _ => some rd
  | .ori rd _ _ => some rd
  | .andi rd _ _ => some rd
  | .sb _ _ _ => none
  | .sh _ _ _ => none
  | .sw _ _ _ => none
  | .lb rd _ _ => some rd
  | .lh rd _ _ => some rd
  | .lw rd _ _ => some rd
  | .lbu rd _ _ => some rd
  | .lhu rd _ _ => some rd
  | .auipc rd _ => some rd
  | .lui rd _ => some rd
  | .beq _ _ _ => none
  | .bne _ _ _ => none
  | .blt _ _ _ => none
  | .bge _ _ _ => none
  | .bltu _ _ _ => none
  | .bgeu _ _ _ => none
  | .jal rd _ => some rd
  | .jalr rd _ _ _ => some rd
  | .ecall _ => none

/-- The source registers of an instruction: `rs1` of formats R, I, S, L, B and JALR, `rs2` of R, S
and B (10_state.md R53). -/
def sourcesOf : Instr → List Reg
  | .add _ rs1 rs2 => [rs1, rs2]
  | .sub _ rs1 rs2 => [rs1, rs2]
  | .sll _ rs1 rs2 _ => [rs1, rs2]
  | .slt _ rs1 rs2 _ => [rs1, rs2]
  | .sltu _ rs1 rs2 _ => [rs1, rs2]
  | .xor _ rs1 rs2 _ => [rs1, rs2]
  | .srl _ rs1 rs2 => [rs1, rs2]
  | .sra _ rs1 rs2 => [rs1, rs2]
  | .or _ rs1 rs2 _ => [rs1, rs2]
  | .and _ rs1 rs2 _ => [rs1, rs2]
  | .addi _ rs1 _ => [rs1]
  | .slli _ rs1 _ => [rs1]
  | .slti _ rs1 _ => [rs1]
  | .sltiu _ rs1 _ => [rs1]
  | .xori _ rs1 _ => [rs1]
  | .srli _ rs1 _ => [rs1]
  | .srai _ rs1 _ => [rs1]
  | .ori _ rs1 _ => [rs1]
  | .andi _ rs1 _ => [rs1]
  | .sb rs1 rs2 _ => [rs1, rs2]
  | .sh rs1 rs2 _ => [rs1, rs2]
  | .sw rs1 rs2 _ => [rs1, rs2]
  | .lb _ rs1 _ => [rs1]
  | .lh _ rs1 _ => [rs1]
  | .lw _ rs1 _ => [rs1]
  | .lbu _ rs1 _ => [rs1]
  | .lhu _ rs1 _ => [rs1]
  | .auipc _ _ => []
  | .lui _ _ => []
  | .beq rs1 rs2 _ => [rs1, rs2]
  | .bne rs1 rs2 _ => [rs1, rs2]
  | .blt rs1 rs2 _ => [rs1, rs2]
  | .bge rs1 rs2 _ => [rs1, rs2]
  | .bltu rs1 rs2 _ => [rs1, rs2]
  | .bgeu rs1 rs2 _ => [rs1, rs2]
  | .jal _ _ => []
  | .jalr _ rs1 _ _ => [rs1]
  | .ecall _ => []

/-- The access of a store: width, base register, data register and offset; none for the others. -/
def storeOf : Instr → Option (Width × Reg × Reg × Word)
  | .sb rs1 rs2 imm => some (.byte, rs1, rs2, imm)
  | .sh rs1 rs2 imm => some (.half, rs1, rs2, imm)
  | .sw rs1 rs2 imm => some (.word, rs1, rs2, imm)
  | .add _ _ _ => none
  | .sub _ _ _ => none
  | .sll _ _ _ _ => none
  | .slt _ _ _ _ => none
  | .sltu _ _ _ _ => none
  | .xor _ _ _ _ => none
  | .srl _ _ _ => none
  | .sra _ _ _ => none
  | .or _ _ _ _ => none
  | .and _ _ _ _ => none
  | .addi _ _ _ => none
  | .slli _ _ _ => none
  | .slti _ _ _ => none
  | .sltiu _ _ _ => none
  | .xori _ _ _ => none
  | .srli _ _ _ => none
  | .srai _ _ _ => none
  | .ori _ _ _ => none
  | .andi _ _ _ => none
  | .lb _ _ _ => none
  | .lh _ _ _ => none
  | .lw _ _ _ => none
  | .lbu _ _ _ => none
  | .lhu _ _ _ => none
  | .auipc _ _ => none
  | .lui _ _ => none
  | .beq _ _ _ => none
  | .bne _ _ _ => none
  | .blt _ _ _ => none
  | .bge _ _ _ => none
  | .bltu _ _ _ => none
  | .bgeu _ _ _ => none
  | .jal _ _ => none
  | .jalr _ _ _ _ => none
  | .ecall _ => none

/-- The bytes an instruction writes in a state, none written when the access is out of bounds. -/
def memoryWritesOf (i : Instr) (s : State) : List Host.Cell :=
  match storeOf i with
  | some (n, rs1, rs2, imm) =>
    if s.inBounds (s.effAddr rs1 imm) n then
      storeCells (s.effAddr rs1 imm).toNat n (s.readReg rs2)
    else []
  | none => []

/-- All 32 register values. -/
def State.registerValues (s : State) : Vector Word 32 := Vector.ofFn s.readReg

/-- The instruction attempts a write to a locked register. An instruction that halts attempts no
write (60_exceptions.md R251, R252). -/
def lockedWriteOf (i : Instr) (s t : State) : Bool :=
  match destOf i with
  | some rd => s.isLocked rd && !t.halted
  | none => false

/-- The record of the cycle that took `s` to `t` with the fetched word `w`. -/
def recordOf (w : Word) (s t : State) : TraceRecord :=
  match decode w with
  | .ok i =>
    { pc := s.pc, rawWord := w, opcode := opcode w, mnemonic := some i.mnemonic
      registersBefore := s.registerValues, registersAfter := t.registerValues
      memoryWrites := memoryWritesOf i s, lockedWriteWarning := lockedWriteOf i s t }
  | .error _ =>
    { pc := s.pc, rawWord := w, opcode := opcode w, mnemonic := none
      registersBefore := s.registerValues, registersAfter := t.registerValues
      memoryWrites := [], lockedWriteWarning := false }

/-- The record of the cycle performed in `s` when `Fetch` answers `fetched`: none when halted (R54)
and when the cycle ends before a word is fetched (notes/assumptions/17.md). -/
def cycleTrace (fetched : Option Word) (s : State) : Option TraceRecord :=
  if s.halted || s.stepLimitReached then none
  else
    match fetched, cycle fetched s with
    | some w, .next t => some (recordOf w s t)
    | _, _ => none

/-- The record of the step performed in `s`. -/
def stepTrace (s : State) : Option TraceRecord := cycleTrace s.fetch s

end Sys2Proof.Machine
end

