-- ==== Sys2Proof/Machine/Ports.lean ====
section
/-! DEFINITION. The port-level view of the engine (00_scope.md R18): one rising clock edge with its
inputs, and the outputs. The instruction memory may stand outside the block: then the edge takes
`imem_valid` and `imem_rdata` in place of `Fetch`. -/

namespace Sys2Proof.Machine

/-- The inputs sampled at a rising edge of `clk`. -/
structure Inputs where
  rst : Bool
  imemValid : Bool
  imemRdata : Word
deriving DecidableEq, Repr

/-- The outputs of R18. -/
structure Outputs where
  imemAddr : Word
  halted : Bool
  haltCause : BitVec 3
  haltPc : Word
  haltWord : Word
  haltAddr : Word
  regValue : Vector Word 32
  regLocked : Vector Bool 32
  /-- `trace_valid` and the record of the cycle this edge performs. -/
  trace : Option TraceRecord
deriving DecidableEq, Repr

/-- What the instruction-memory ports deliver: `imem_rdata` is ignored unless `imem_valid` is 1. -/
def Inputs.fetched (inp : Inputs) : Option Word :=
  if inp.imemValid then some inp.imemRdata else none

/-- The ports driven from the image the state carries: `imem_valid` is 1 exactly when the four bytes
at pc lie inside it. -/
def State.imageInputs (s : State) (rst : Bool) : Inputs :=
  match s.fetch with
  | some w => ⟨rst, true, w⟩
  | none => ⟨rst, false, 0#32⟩

/-- One rising edge of `clk`: synchronous reset (70_reset_and_hazards.md R280) or one cycle. -/
def clockEdge (inp : Inputs) (s : State) : Result :=
  if inp.rst then resetWith s.cfg else cycle inp.fetched s

/-- The outputs in a state, the trace record being that of the cycle the edge performs. -/
def State.outputs (s : State) (inp : Inputs) : Outputs where
  imemAddr := s.pc
  halted := s.halted
  haltCause := s.haltCause.code
  haltPc := s.haltPc
  haltWord := s.haltWord
  haltAddr := s.haltAddr
  regValue := s.registerValues
  regLocked := Vector.ofFn s.isLocked
  trace := if inp.rst then none else cycleTrace inp.fetched s

end Sys2Proof.Machine
end

