-- ==== Sys2Proof/Machine/Pseudo.lean ====
section
/-! DEFINITION. The pseudo-instructions of 30_encoding.md R123: each is only an abbreviation of the
instructions it expands to, so it has no word, no decoding and no meaning of its own. -/

namespace Sys2Proof.Machine

/-- The rows of R123. The two rows of `li` are two constructors. -/
inductive Pseudo where
  | nop
  | mv (rd rs : Reg)
  /-- `li rd, imm` with imm in -2048..2047. -/
  | li (rd : Reg) (imm : Word)
  /-- `li rd, imm` with any 32-bit imm. -/
  | liWide (rd : Reg) (imm : Word)
  | not (rd rs : Reg)
  | neg (rd rs : Reg)
  | seqz (rd rs : Reg)
  | snez (rd rs : Reg)
  | beqz (rs : Reg) (off : Word)
  | bnez (rs : Reg) (off : Word)
  | j (off : Word)
  | jr (rs : Reg)
  | ret
  | call (off : Word)
deriving DecidableEq, Repr

/-- The decoded LUI immediate of the wide `li`: `hi20` = (imm + 0x800) >> 12, in bits 31:12. -/
def liUpper (imm : Word) : Word := (imm + 0x800#32) >>> 12 <<< 12

/-- Its `lo12`: the low 12 bits of imm, which ADDI sign-extends (notes/assumptions/24.md). -/
def liLower (imm : Word) : Word := (imm.setWidth 12).signExtend 32

/-- The expansion column of R123. -/
def Pseudo.expand : Pseudo → List Instr
  | .nop => [.addi 0 0 0#32]
  | .mv rd rs => [.addi rd rs 0#32]
  | .li rd imm => [.addi rd 0 imm]
  | .liWide rd imm => [.lui rd (liUpper imm), .addi rd rd (liLower imm)]
  | .not rd rs => [.xori rd rs 0xFFFFFFFF#32]
  | .neg rd rs => [.sub rd 0 rs]
  | .seqz rd rs => [.sltiu rd rs 1#32]
  | .snez rd rs => [.sltu rd 0 rs 0#7]
  | .beqz rs off => [.beq rs 0 off]
  | .bnez rs off => [.bne rs 0 off]
  | .j off => [.jal 0 off]
  | .jr rs => [.jalr 0 rs 0#32 0#3]
  | .ret => [.jalr 0 1 0#32 0#3]
  | .call off => [.jal 1 off]

end Sys2Proof.Machine
end

