-- ==== Sys2Proof/Safety.lean ====
section
/-! DEFINITION. The terms the claims use: what one instruction may change and what it leaves alone
(the frames), the words an instruction is encoded by, when a cycle runs a fetched word, and the
invariant of the engine. -/

namespace Sys2Proof.Safety

open Sys2Proof.Machine

/-! ### What two states have in common -/

/-- All 32 registers read the same and have the same lock flags. -/
structure SameRegisters (s t : State) : Prop where
  values : ∀ r, t.readReg r = s.readReg r
  locks : ∀ r, t.isLocked r = s.isLocked r

/-- Every byte of DataMemory reads the same. -/
def SameMemory (s t : State) : Prop := ∀ a, t.readByte a = s.readByte a

/-- The run status is the same (10_state.md R30 e). -/
structure SameRunStatus (s t : State) : Prop where
  halted : t.halted = s.halted
  haltCause : t.haltCause = s.haltCause
  haltPc : t.haltPc = s.haltPc
  haltWord : t.haltWord = s.haltWord
  haltAddr : t.haltAddr = s.haltAddr

/-! ### The shapes of an instruction's effect -/

/-- The effect of an instruction that writes `v` to `rd` through the lock check and `pc'` to the pc:
a locked `rd` (always so for register 0) keeps its value, and nothing else changes. `steps` is
counted by the cycle, not by the instruction. -/
structure Wrote (s t : State) (rd : Reg) (v pc' : Word) : Prop where
  dest : t.readReg rd = if s.isLocked rd then s.readReg rd else v
  others : ∀ r, r ≠ rd → t.readReg r = s.readReg r
  locks : ∀ r, t.isLocked r = s.isLocked r
  pc : t.pc = pc'
  memory : SameMemory s t
  runStatus : SameRunStatus s t
  steps : t.steps = s.steps
  cfg : t.cfg = s.cfg

/-- The effect of an instruction that writes the pc only (a branch). -/
structure Branched (s t : State) (pc' : Word) : Prop where
  registers : SameRegisters s t
  pc : t.pc = pc'
  memory : SameMemory s t
  runStatus : SameRunStatus s t
  steps : t.steps = s.steps
  cfg : t.cfg = s.cfg

/-- The effect of a store of the low n bytes of `v` at address `a`: byte k of the value at a + k,
every byte outside a .. a+n-1 unchanged, the pc advanced by 4, nothing else changed. -/
structure Stored (s t : State) (a : Nat) (n : Width) (v : Word) : Prop where
  stored : ∀ k < n.bytes, t.readByte (a + k) = byteOf v k
  outside : ∀ b, b < a ∨ a + n.bytes ≤ b → t.readByte b = s.readByte b
  registers : SameRegisters s t
  pc : t.pc = s.pc + 4#32
  runStatus : SameRunStatus s t
  steps : t.steps = s.steps
  cfg : t.cfg = s.cfg

/-- The effect of a halt (60_exceptions.md R249, R253): the run status is written and nothing else
changes. -/
structure HaltedWith (s t : State) (cause : HaltCause) (word addr : Word) : Prop where
  halted : t.halted = true
  haltCause : t.haltCause = cause
  haltPc : t.haltPc = s.pc
  haltWord : t.haltWord = word
  haltAddr : t.haltAddr = addr
  registers : SameRegisters s t
  pc : t.pc = s.pc
  memory : SameMemory s t
  steps : t.steps = s.steps
  cfg : t.cfg = s.cfg

/-! ### Encodings -/

/-- The words an instruction is encoded by (30_encoding.md R118): a word is the row's instruction
exactly when `w & mask = pattern`, and it decodes with the operands `build` takes from it. -/
def EncodedBy (m : Mnemonic) (mask pattern : Word) (build : Word → Instr) : Prop :=
  ∀ w, (mnemonicOf w = some m ↔ w &&& mask = pattern) ∧ (w &&& mask = pattern → decode w = .ok (build w))

/-! ### Accesses to DataMemory -/

/-- `i` is SB, SH or SW of width `n` with base `rs1`, data `rs2` and offset `imm` (42_store_load.md
R171 to R173). -/
def Stores (i : Instr) (n : Width) (rs1 rs2 : Reg) (imm : Word) : Prop :=
  match n with
  | .byte => i = .sb rs1 rs2 imm
  | .half => i = .sh rs1 rs2 imm
  | .word => i = .sw rs1 rs2 imm

/-- `i` is a load of width `n` into `rd` with base `rs1` and offset `imm` (R175 to R179). -/
def Loads (i : Instr) (n : Width) (rd rs1 : Reg) (imm : Word) : Prop :=
  match n with
  | .byte => i = .lb rd rs1 imm ∨ i = .lbu rd rs1 imm
  | .half => i = .lh rd rs1 imm ∨ i = .lhu rd rs1 imm
  | .word => i = .lw rd rs1 imm

/-- `i` is a load or store of width `n` with base `rs1` and offset `imm`. -/
def Accesses (i : Instr) (n : Width) (rs1 : Reg) (imm : Word) : Prop :=
  (∃ rs2, Stores i n rs1 rs2 imm) ∨ ∃ rd, Loads i n rd rs1 imm

/-! ### When a cycle runs a word -/

/-- The engine is running, no step limit is reached, and the fetch answers `w`. -/
structure Fetches (s : State) (w : Word) : Prop where
  running : s.halted = false
  belowLimit : ∀ n, s.cfg.maxSteps = some n → s.steps < n
  fetched : s.fetch = some w

/-! ### The invariant -/

/-- What the run status of a halted engine says (R249): a cause, the pc of the halt, and the word
and address that belong to the cause. -/
structure HaltRecorded (s : State) : Prop where
  cause : s.haltCause ≠ .none
  pc : s.haltPc = s.pc
  ecall : s.haltCause = .ecallHalt → opcode s.haltWord = 0x73#7
  undecodable : s.haltCause = .decodeFault → ∀ i, decode s.haltWord ≠ .ok i
  noWord : s.haltCause = .endOfStream ∨ s.haltCause = .stepLimit → s.haltWord = 0#32
  noAddr : s.haltCause ≠ .memoryBoundsFault → s.haltAddr = 0#32
  outOfBounds : s.haltCause = .memoryBoundsFault →
    ∃ n : Width, s.cfg.dmemSize < s.haltAddr.toNat + n.bytes

/-- The invariant of the engine, in every state a reset or a cycle can leave. -/
structure Inv (s : State) : Prop where
  /-- DataMemory is in canonical form. -/
  canonical : Memory.wf s.dmem
  /-- Only addresses below DMEM_SIZE are listed (20_memory.md R61). -/
  inMemory : ∀ c ∈ s.dmem, c.1 < s.cfg.dmemSize
  /-- Register 0 holds 0 (10_state.md R32). -/
  zero : s.rfValue[0] = 0#32
  /-- The lock flags are those of `LOCK_INIT`, register 0 locked (R32, R35). -/
  locks : ∀ r : Reg, s.rfLocked[r.val] = (r.val == 0 || s.cfg.lockInit.getLsbD r.val)
  /-- A locked register holds 0 for the whole run (R35). -/
  lockedZero : ∀ r : Reg, s.rfLocked[r.val] = true → s.rfValue[r.val] = 0#32
  /-- The pc is even (44_control_transfer.md R210). -/
  pcEven : s.pc.toNat % 2 = 0
  /-- While the engine runs the run status is clear (R44, R45). -/
  running : s.halted = false →
    s.haltCause = .none ∧ s.haltPc = 0#32 ∧ s.haltWord = 0#32 ∧ s.haltAddr = 0#32
  /-- After a halt it holds the context of the halt (R249). -/
  halted : s.halted = true → HaltRecorded s
  /-- At most `MAX_STEPS` cycles complete (60_exceptions.md R246). -/
  limit : ∀ n, s.cfg.maxSteps = some n → s.steps ≤ n
  /-- The configuration is one that has a reset state (70_reset_and_hazards.md R282). -/
  config : configProblem s.cfg = none

end Sys2Proof.Safety
end

