-- ==== Sys2Proof/Certificates/Slice0/Obligations.lean ====
section
/-! DEFINITION. The statements about the engine. Each docstring names the rule of spec/ it
formalises; a clause that rests on one of the spec's own decisions (92_eei_decisions.md) names it. -/

open Sys2Proof Sys2Proof.Machine Sys2Proof.Safety

/-! ### Register-register instructions (40_alu_reg.md) -/

/-- R131, R132: encodings and results modulo 2^32 of ADD and SUB, their frame, and that SUB(ADD(a, b), b)
is a for unlocked destinations. -/
def Obligations.AddAndSubWrapModulo2To32 : Prop :=
  EncodedBy .add 0xFE00707F#32 0x00000033#32 (fun w => .add (rdField w) (rs1Field w) (rs2Field w)) ∧
  EncodedBy .sub 0xFE00707F#32 0x40000033#32 (fun w => .sub (rdField w) (rs1Field w) (rs2Field w)) ∧
  (∀ (s : State) (rd rs1 rs2 : Reg),
    (∃ t v, exec (.add rd rs1 rs2) s = .next t ∧ Wrote s t rd v (s.pc + 4#32) ∧
      v.toNat = ((s.readReg rs1).toNat + (s.readReg rs2).toNat) % 2 ^ 32) ∧
    (∃ t v, exec (.sub rd rs1 rs2) s = .next t ∧ Wrote s t rd v (s.pc + 4#32) ∧
      v.toNat = ((s.readReg rs1).toNat + (2 ^ 32 - (s.readReg rs2).toNat)) % 2 ^ 32)) ∧
  ∀ (s t : State) (rd rd' rs1 rs2 : Reg), rd ≠ rs2 → s.isLocked rd = false → s.isLocked rd' = false →
    exec (.add rd rs1 rs2) s = .next t →
    ∃ u, exec (.sub rd' rd rs2) t = .next u ∧ u.readReg rd' = s.readReg rs1

/-- R137, R138 with R21: the right shifts are floor divisions by 2^n, n the low five bits of x[rs2]. -/
def Obligations.RightShiftsAreFloorDivisions : Prop :=
  EncodedBy .srl 0xFE00707F#32 0x00005033#32 (fun w => .srl (rdField w) (rs1Field w) (rs2Field w)) ∧
  EncodedBy .sra 0xFE00707F#32 0x40005033#32 (fun w => .sra (rdField w) (rs1Field w) (rs2Field w)) ∧
  ∀ (s : State) (rd rs1 rs2 : Reg),
    (∃ t v, exec (.srl rd rs1 rs2) s = .next t ∧ Wrote s t rd v (s.pc + 4#32) ∧
      v.toNat = (s.readReg rs1).toNat / 2 ^ ((s.readReg rs2).toNat % 32)) ∧
    (∃ t v, exec (.sra rd rs1 rs2) s = .next t ∧ Wrote s t rd v (s.pc + 4#32) ∧
      v.toInt = Int.fdiv (s.readReg rs1).toInt (2 ^ ((s.readReg rs2).toNat % 32)))

/-- SLL (40_alu_reg.md): the product by 2^n modulo 2^32. That funct7 is not examined is the spec's
decision D2. -/
def Obligations.SllMultipliesByPowerOfTwo : Prop :=
  EncodedBy .sll 0x0000707F#32 0x00001033#32
    (fun w => .sll (rdField w) (rs1Field w) (rs2Field w) (funct7 w)) ∧
  ∀ (s : State) (rd rs1 rs2 : Reg) (f7 : BitVec 7),
    ∃ t v, exec (.sll rd rs1 rs2 f7) s = .next t ∧ Wrote s t rd v (s.pc + 4#32) ∧
      v.toNat = ((s.readReg rs1).toNat * 2 ^ ((s.readReg rs2).toNat % 32)) % 2 ^ 32

/-- SLT and SLTU (40_alu_reg.md): 1 when the signed, the unsigned comparison holds, else 0. That
funct7 is not examined is the spec's decision D2. -/
def Obligations.SltAndSltuCompareRegisters : Prop :=
  EncodedBy .slt 0x0000707F#32 0x00002033#32
    (fun w => .slt (rdField w) (rs1Field w) (rs2Field w) (funct7 w)) ∧
  EncodedBy .sltu 0x0000707F#32 0x00003033#32
    (fun w => .sltu (rdField w) (rs1Field w) (rs2Field w) (funct7 w)) ∧
  ∀ (s : State) (rd rs1 rs2 : Reg) (f7 : BitVec 7),
    (∃ t, exec (.slt rd rs1 rs2 f7) s = .next t ∧
      Wrote s t rd (if (s.readReg rs1).toInt < (s.readReg rs2).toInt then 1#32 else 0#32) (s.pc + 4#32)) ∧
    (∃ t, exec (.sltu rd rs1 rs2 f7) s = .next t ∧
      Wrote s t rd (if (s.readReg rs1).toNat < (s.readReg rs2).toNat then 1#32 else 0#32) (s.pc + 4#32))

/-- XOR, OR and AND (40_alu_reg.md), bit by bit. That funct7 is not examined is the spec's decision D2. -/
def Obligations.RegisterLogicIsBitwise : Prop :=
  EncodedBy .xor 0x0000707F#32 0x00004033#32
    (fun w => .xor (rdField w) (rs1Field w) (rs2Field w) (funct7 w)) ∧
  EncodedBy .or 0x0000707F#32 0x00006033#32
    (fun w => .or (rdField w) (rs1Field w) (rs2Field w) (funct7 w)) ∧
  EncodedBy .and 0x0000707F#32 0x00007033#32
    (fun w => .and (rdField w) (rs1Field w) (rs2Field w) (funct7 w)) ∧
  ∀ (s : State) (rd rs1 rs2 : Reg) (f7 : BitVec 7),
    (∃ t v, exec (.xor rd rs1 rs2 f7) s = .next t ∧ Wrote s t rd v (s.pc + 4#32) ∧
      ∀ k, v.getLsbD k = ((s.readReg rs1).getLsbD k ^^ (s.readReg rs2).getLsbD k)) ∧
    (∃ t v, exec (.or rd rs1 rs2 f7) s = .next t ∧ Wrote s t rd v (s.pc + 4#32) ∧
      ∀ k, v.getLsbD k = ((s.readReg rs1).getLsbD k || (s.readReg rs2).getLsbD k)) ∧
    (∃ t v, exec (.and rd rs1 rs2 f7) s = .next t ∧ Wrote s t rd v (s.pc + 4#32) ∧
      ∀ k, v.getLsbD k = ((s.readReg rs1).getLsbD k && (s.readReg rs2).getLsbD k))

/-- The source's property quoted in R142: SLT and SLTU disagree exactly when exactly one operand is
negative. -/
def Obligations.SltAndSltuDisagreeExactlyOnMixedSigns : Prop :=
  ∀ (s t u : State) (rd rs1 rs2 : Reg) (f7 : BitVec 7), s.isLocked rd = false →
    exec (.slt rd rs1 rs2 f7) s = .next t → exec (.sltu rd rs1 rs2 f7) s = .next u →
    (t.readReg rd ≠ u.readReg rd ↔ ((s.readReg rs1).toInt < 0 ↔ 0 ≤ (s.readReg rs2).toInt))

/-! ### Register-immediate instructions (41_alu_imm.md) -/

/-- R151. -/
def Obligations.AddiAddsTheImmediate : Prop :=
  EncodedBy .addi 0x0000707F#32 0x00000013#32 (fun w => .addi (rdField w) (rs1Field w) (immI w)) ∧
  ∀ (s : State) (rd rs1 : Reg) (imm : Word),
    ∃ t v, exec (.addi rd rs1 imm) s = .next t ∧ Wrote s t rd v (s.pc + 4#32) ∧
      v.toNat = ((s.readReg rs1).toNat + imm.toNat) % 2 ^ 32

/-- R153, R154: the sign-extended immediate is compared as signed by SLTI, as unsigned by SLTIU. -/
def Obligations.SltiAndSltiuCompareImmediate : Prop :=
  EncodedBy .slti 0x0000707F#32 0x00002013#32 (fun w => .slti (rdField w) (rs1Field w) (immI w)) ∧
  EncodedBy .sltiu 0x0000707F#32 0x00003013#32 (fun w => .sltiu (rdField w) (rs1Field w) (immI w)) ∧
  (∀ w, immI w = (w.extractLsb' 20 12).signExtend 32) ∧
  ∀ (s : State) (rd rs1 : Reg) (imm : Word),
    (∃ t, exec (.slti rd rs1 imm) s = .next t ∧
      Wrote s t rd (if (s.readReg rs1).toInt < imm.toInt then 1#32 else 0#32) (s.pc + 4#32)) ∧
    (∃ t, exec (.sltiu rd rs1 imm) s = .next t ∧
      Wrote s t rd (if (s.readReg rs1).toNat < imm.toNat then 1#32 else 0#32) (s.pc + 4#32))

/-- R155, R158, R159: XORI, ORI and ANDI, bit by bit. -/
def Obligations.ImmediateLogicIsBitwise : Prop :=
  EncodedBy .xori 0x0000707F#32 0x00004013#32 (fun w => .xori (rdField w) (rs1Field w) (immI w)) ∧
  EncodedBy .ori 0x0000707F#32 0x00006013#32 (fun w => .ori (rdField w) (rs1Field w) (immI w)) ∧
  EncodedBy .andi 0x0000707F#32 0x00007013#32 (fun w => .andi (rdField w) (rs1Field w) (immI w)) ∧
  ∀ (s : State) (rd rs1 : Reg) (imm : Word),
    (∃ t v, exec (.xori rd rs1 imm) s = .next t ∧ Wrote s t rd v (s.pc + 4#32) ∧
      ∀ k, v.getLsbD k = ((s.readReg rs1).getLsbD k ^^ imm.getLsbD k)) ∧
    (∃ t v, exec (.ori rd rs1 imm) s = .next t ∧ Wrote s t rd v (s.pc + 4#32) ∧
      ∀ k, v.getLsbD k = ((s.readReg rs1).getLsbD k || imm.getLsbD k)) ∧
    (∃ t v, exec (.andi rd rs1 imm) s = .next t ∧ Wrote s t rd v (s.pc + 4#32) ∧
      ∀ k, v.getLsbD k = ((s.readReg rs1).getLsbD k && imm.getLsbD k))

/-- SLLI, SRLI and SRAI (41_alu_imm.md): the amount is bits 24:20 of the word. That only bit 30 of
the upper bits is examined, and only for the right shifts, is the spec's decision D3. -/
def Obligations.ShiftImmediatesUseBits24To20 : Prop :=
  EncodedBy .slli 0x0000707F#32 0x00001013#32 (fun w => .slli (rdField w) (rs1Field w) (immI w)) ∧
  EncodedBy .srli 0x4000707F#32 0x00005013#32 (fun w => .srli (rdField w) (rs1Field w) (immI w)) ∧
  EncodedBy .srai 0x4000707F#32 0x40005013#32 (fun w => .srai (rdField w) (rs1Field w) (immI w)) ∧
  (∀ w : Word, (immI w).toNat % 32 = (w.extractLsb' 20 5).toNat) ∧
  ∀ (s : State) (rd rs1 : Reg) (imm : Word),
    (∃ t v, exec (.slli rd rs1 imm) s = .next t ∧ Wrote s t rd v (s.pc + 4#32) ∧
      v.toNat = ((s.readReg rs1).toNat * 2 ^ (imm.toNat % 32)) % 2 ^ 32) ∧
    (∃ t v, exec (.srli rd rs1 imm) s = .next t ∧ Wrote s t rd v (s.pc + 4#32) ∧
      v.toNat = (s.readReg rs1).toNat / 2 ^ (imm.toNat % 32)) ∧
    (∃ t v, exec (.srai rd rs1 imm) s = .next t ∧ Wrote s t rd v (s.pc + 4#32) ∧
      v.toInt = Int.fdiv (s.readReg rs1).toInt (2 ^ (imm.toNat % 32)))

/-! ### Stores and loads (42_store_load.md, 20_memory.md) -/

/-- SB, SH and SW in bounds: the little-endian bytes of x[rs2] at x[rs1] + imm, every other byte
unchanged. The address arithmetic and the absence of alignment are the spec's decisions D10, D11. -/
def Obligations.StoresWriteTheirBytesOnly : Prop :=
  EncodedBy .sb 0x0000707F#32 0x00000023#32 (fun w => .sb (rs1Field w) (rs2Field w) (immS w)) ∧
  EncodedBy .sh 0x0000707F#32 0x00001023#32 (fun w => .sh (rs1Field w) (rs2Field w) (immS w)) ∧
  EncodedBy .sw 0x0000707F#32 0x00002023#32 (fun w => .sw (rs1Field w) (rs2Field w) (immS w)) ∧
  ∀ (s : State) (rs1 rs2 : Reg) (imm : Word),
    ((s.effAddr rs1 imm).toNat + 1 ≤ s.cfg.dmemSize →
      ∃ t, exec (.sb rs1 rs2 imm) s = .next t ∧
        Stored s t (s.effAddr rs1 imm).toNat .byte (s.readReg rs2)) ∧
    ((s.effAddr rs1 imm).toNat + 2 ≤ s.cfg.dmemSize →
      ∃ t, exec (.sh rs1 rs2 imm) s = .next t ∧
        Stored s t (s.effAddr rs1 imm).toNat .half (s.readReg rs2)) ∧
    ((s.effAddr rs1 imm).toNat + 4 ≤ s.cfg.dmemSize →
      ∃ t, exec (.sw rs1 rs2 imm) s = .next t ∧
        Stored s t (s.effAddr rs1 imm).toNat .word (s.readReg rs2))

/-- LB, LH, LW, LBU and LHU in bounds: the little-endian value of the bytes at x[rs1] + imm, sign- or
zero-extended. The address arithmetic and the absence of alignment are the spec's decisions D10, D11. -/
def Obligations.LoadsExtendTheBytesTheyRead : Prop :=
  EncodedBy .lb 0x0000707F#32 0x00000003#32 (fun w => .lb (rdField w) (rs1Field w) (immI w)) ∧
  EncodedBy .lh 0x0000707F#32 0x00001003#32 (fun w => .lh (rdField w) (rs1Field w) (immI w)) ∧
  EncodedBy .lw 0x0000707F#32 0x00002003#32 (fun w => .lw (rdField w) (rs1Field w) (immI w)) ∧
  EncodedBy .lbu 0x0000707F#32 0x00004003#32 (fun w => .lbu (rdField w) (rs1Field w) (immI w)) ∧
  EncodedBy .lhu 0x0000707F#32 0x00005003#32 (fun w => .lhu (rdField w) (rs1Field w) (immI w)) ∧
  ∀ (s : State) (rd rs1 : Reg) (imm : Word) (a : Nat), a = (s.effAddr rs1 imm).toNat →
    (a + 1 ≤ s.cfg.dmemSize →
      (∃ t v, exec (.lb rd rs1 imm) s = .next t ∧ Wrote s t rd v (s.pc + 4#32) ∧
        v.toInt = (s.readByte a).toInt) ∧
      (∃ t v, exec (.lbu rd rs1 imm) s = .next t ∧ Wrote s t rd v (s.pc + 4#32) ∧
        v.toNat = (s.readByte a).toNat)) ∧
    (a + 2 ≤ s.cfg.dmemSize →
      (∃ t v, exec (.lh rd rs1 imm) s = .next t ∧ Wrote s t rd v (s.pc + 4#32) ∧
        v.toInt = (s.readByte (a + 1)).toInt * 256 + (s.readByte a).toNat) ∧
      (∃ t v, exec (.lhu rd rs1 imm) s = .next t ∧ Wrote s t rd v (s.pc + 4#32) ∧
        v.toNat = (s.readByte (a + 1)).toNat * 256 + (s.readByte a).toNat)) ∧
    (a + 4 ≤ s.cfg.dmemSize →
      (∃ t v, exec (.lw rd rs1 imm) s = .next t ∧ Wrote s t rd v (s.pc + 4#32) ∧
        ∀ k < 4, byteOf v k = s.readByte (a + k)))

/-- A cycle whose load or store reaches outside DataMemory halts with MEMORY_BOUNDS_FAULT, the word
and the effective address recorded, and has no other effect (60_exceptions.md R245; the precision of
the halt is the spec's decision D12, the recorded registers D20). -/
def Obligations.OutOfBoundsAccessesHalt : Prop :=
  ∀ (s : State) (w : Word), Fetches s w → ∀ (n : Width) (rd rs1 rs2 : Reg) (imm : Word),
    s.cfg.dmemSize < (s.effAddr rs1 imm).toNat + n.bytes →
    ((n = .byte ∧ (decode w = .ok (.lb rd rs1 imm) ∨ decode w = .ok (.lbu rd rs1 imm) ∨
        decode w = .ok (.sb rs1 rs2 imm))) ∨
     (n = .half ∧ (decode w = .ok (.lh rd rs1 imm) ∨ decode w = .ok (.lhu rd rs1 imm) ∨
        decode w = .ok (.sh rs1 rs2 imm))) ∨
     (n = .word ∧ (decode w = .ok (.lw rd rs1 imm) ∨ decode w = .ok (.sw rs1 rs2 imm)))) →
    ∃ t, step s = .next t ∧ HaltedWith s t .memoryBoundsFault w (s.effAddr rs1 imm)

/-- R69: after MemWrite(A, 4, W) the narrow reads see the bytes of W and the word reads back whole;
a read of any width sees the bytes that are there, whatever stores left them; and LW at the address of
an SW returns the word stored. A configuration
has DMEM_SIZE ≤ 2^32 (R9), so the addresses A + k do not wrap. -/
def Obligations.MixedWidthAccessesSeeTheSameBytes : Prop :=
  (∀ (s t : State) (A W : Word), s.cfg.dmemSize ≤ 2 ^ 32 → s.memWrite A .word W = some t →
    t.memRead A .word = some W ∧
    (∀ k < 4, t.memRead (A + BitVec.ofNat 32 k) .byte = some ((W.extractLsb' (8 * k) 8).setWidth 32)) ∧
    (∀ k < 2, t.memRead (A + BitVec.ofNat 32 (2 * k)) .half =
      some ((W.extractLsb' (16 * k) 16).setWidth 32))) ∧
  (∀ (s : State) (A v : Word) (n : Width), s.memRead A n = some v →
    ∀ k < n.bytes, byteOf v k = s.readByte (A.toNat + k)) ∧
  (∀ (s t : State) (rs1 rs2 rd rb : Reg) (imm imm' : Word), (s.effAddr rs1 imm).toNat + 4 ≤ s.cfg.dmemSize →
    exec (.sw rs1 rs2 imm) s = .next t → t.effAddr rb imm' = s.effAddr rs1 imm → s.isLocked rd = false →
    ∃ u, exec (.lw rd rb imm') t = .next u ∧ u.readReg rd = s.readReg rs2)

/-- MemRead and MemWrite byte by byte (20_memory.md R65, R66; bounds R67, decisions D10, D12): the value
read is the 8n bits of the bytes there, the low bytes of the value are stored, and out of bounds nothing
is done. -/
def Obligations.MemoryPrimitivesAreBytewiseAndBounded : Prop :=
  ∀ (s : State) (A v : Word) (n : Width),
    (s.cfg.dmemSize < A.toNat + n.bytes → s.memRead A n = none ∧ s.memWrite A n v = none) ∧
    (A.toNat + n.bytes ≤ s.cfg.dmemSize →
      (∃ x, s.memRead A n = some x ∧
        (∀ k < n.bytes, byteOf x k = s.readByte (A.toNat + k)) ∧ x.toNat < 2 ^ (8 * n.bytes)) ∧
      (∃ t, s.memWrite A n v = some t ∧ Stored s (t.setPc (s.pc + 4#32)) A.toNat n v))

/-- R181: with the same 12 offset bits a store addresses 4096 bytes above a load when the offset is
negative, and the same byte when it is not. -/
def Obligations.StoreOffsetsAreUnsignedLoadOffsetsSigned : Prop :=
  ∀ st ld : Word, st.extractLsb' 25 7 ++ st.extractLsb' 7 5 = ld.extractLsb' 20 12 →
    immS st = (if ld.getLsbD 31 then immI ld + 4096#32 else immI ld) ∧ (immS st).toNat ≤ 4095 ∧
    -2048 ≤ (immI ld).toInt ∧ (immI ld).toInt ≤ 2047

/-! ### Upper immediates and control transfer (43_upper_imm.md, 44_control_transfer.md) -/

/-- R190, R191: the 20 bits of the word, the result, the pc of the AUIPC itself, and the warning when
rd is 0. -/
def Obligations.UpperImmediatesFillTheUpper20Bits : Prop :=
  EncodedBy .auipc 0x0000007F#32 0x00000017#32 (fun w => .auipc (rdField w) (immU w)) ∧
  EncodedBy .lui 0x0000007F#32 0x00000037#32 (fun w => .lui (rdField w) (immU w)) ∧
  (∀ w, immU w = w &&& 0xFFFFF000#32) ∧
  ∀ (s : State) (rd : Reg) (imm : Word),
    (∃ t v, exec (.auipc rd imm) s = .next t ∧ Wrote s t rd v (s.pc + 4#32) ∧
      v.toNat = (s.pc.toNat + imm.toNat) % 2 ^ 32 ∧
      (rd = 0 → s.halted = false → lockedWriteOf (.auipc rd imm) s t = true)) ∧
    (∃ t, exec (.lui rd imm) s = .next t ∧ Wrote s t rd imm (s.pc + 4#32) ∧
      (rd = 0 → s.halted = false → lockedWriteOf (.lui rd imm) s t = true))

/-- BEQ and BNE (44_control_transfer.md). The funct3 values are the spec's decision D5, the immediate
layout D1. -/
def Obligations.EqualityBranchesCompareRegisters : Prop :=
  EncodedBy .beq 0x0000707F#32 0x00000063#32 (fun w => .beq (rs1Field w) (rs2Field w) (immB w)) ∧
  EncodedBy .bne 0x0000707F#32 0x00001063#32 (fun w => .bne (rs1Field w) (rs2Field w) (immB w)) ∧
  ∀ (s : State) (rs1 rs2 : Reg) (imm : Word),
    (∃ t, exec (.beq rs1 rs2 imm) s = .next t ∧
      Branched s t (if s.readReg rs1 = s.readReg rs2 then s.pc + imm else s.pc + 4#32)) ∧
    (∃ t, exec (.bne rs1 rs2 imm) s = .next t ∧
      Branched s t (if s.readReg rs1 = s.readReg rs2 then s.pc + 4#32 else s.pc + imm))

/-- BLT and BGE compare as signed (44_control_transfer.md; decisions D1, D5 as for BEQ). -/
def Obligations.SignedBranchesCompareSigned : Prop :=
  EncodedBy .blt 0x0000707F#32 0x00004063#32 (fun w => .blt (rs1Field w) (rs2Field w) (immB w)) ∧
  EncodedBy .bge 0x0000707F#32 0x00005063#32 (fun w => .bge (rs1Field w) (rs2Field w) (immB w)) ∧
  ∀ (s : State) (rs1 rs2 : Reg) (imm : Word),
    (∃ t, exec (.blt rs1 rs2 imm) s = .next t ∧
      Branched s t (if (s.readReg rs1).toInt < (s.readReg rs2).toInt then s.pc + imm else s.pc + 4#32)) ∧
    (∃ t, exec (.bge rs1 rs2 imm) s = .next t ∧
      Branched s t (if (s.readReg rs1).toInt ≥ (s.readReg rs2).toInt then s.pc + imm else s.pc + 4#32))

/-- BLTU and BGEU compare as unsigned (44_control_transfer.md; decisions D1, D5 as for BEQ). -/
def Obligations.UnsignedBranchesCompareUnsigned : Prop :=
  EncodedBy .bltu 0x0000707F#32 0x00006063#32 (fun w => .bltu (rs1Field w) (rs2Field w) (immB w)) ∧
  EncodedBy .bgeu 0x0000707F#32 0x00007063#32 (fun w => .bgeu (rs1Field w) (rs2Field w) (immB w)) ∧
  ∀ (s : State) (rs1 rs2 : Reg) (imm : Word),
    (∃ t, exec (.bltu rs1 rs2 imm) s = .next t ∧
      Branched s t (if (s.readReg rs1).toNat < (s.readReg rs2).toNat then s.pc + imm else s.pc + 4#32)) ∧
    (∃ t, exec (.bgeu rs1 rs2 imm) s = .next t ∧
      Branched s t (if (s.readReg rs1).toNat ≥ (s.readReg rs2).toNat then s.pc + imm else s.pc + 4#32))

/-- JAL (44_control_transfer.md): the fields, the link and the target; with rd = 0 the link is dropped
with a warning; with fewer than four image bytes at the target the next fetch finds no word. That one to
three bytes left are no word is the spec's decision D7 (notes/assumptions/23.md). What the next cycle then
does is `Obligations.TransferOutsideTheImageEndsTheStream`. -/
def Obligations.JalLinksAndJumpsRelative : Prop :=
  EncodedBy .jal 0x0000007F#32 0x0000006F#32 (fun w => .jal (rdField w) (immJ w)) ∧
  (∀ w, (rdField w).val = (w.extractLsb' 7 5).toNat ∧
    immJ w = (w.extractLsb' 31 1 ++ w.extractLsb' 12 8 ++ w.extractLsb' 20 1 ++ w.extractLsb' 21 10 ++
      0#1).signExtend 32) ∧
  ∀ (s : State) (rd : Reg) (imm : Word),
    ∃ t, exec (.jal rd imm) s = .next t ∧ Wrote s t rd (s.pc + 4#32) (s.pc + imm) ∧
      (s.cfg.imageSize < (s.pc + imm).toNat + 4 → t.fetch = none) ∧
      (rd = 0 → s.halted = false → lockedWriteOf (.jal rd imm) s t = true)

/-- JALR (44_control_transfer.md): the target is (x[rs1] + imm) with bit 0 cleared, x[rs1] read before
the link is written, also when rd = rs1 (decision D14). That funct3 is not examined is decision D4. -/
def Obligations.JalrLinksAndJumpsToEvenTarget : Prop :=
  EncodedBy .jalr 0x0000007F#32 0x00000067#32
    (fun w => .jalr (rdField w) (rs1Field w) (immI w) (funct3 w)) ∧
  ∀ (s : State) (rd rs1 : Reg) (imm : Word) (f3 : BitVec 3),
    ∃ t target, exec (.jalr rd rs1 imm f3) s = .next t ∧ Wrote s t rd (s.pc + 4#32) target ∧
      target.toNat = ((s.readReg rs1).toNat + imm.toNat) % 2 ^ 32 / 2 * 2

/-- A transfer of control to where the image holds fewer than four bytes completes, and the next cycle
halts with END_OF_STREAM (44_control_transfer.md: JAL, JALR and a taken branch). With fewer than four but
some bytes there it is the spec's decision D7 (notes/assumptions/23.md); the recorded registers are D20;
the branches' funct3 and layout D5, D1; that a reached step limit would come first is D22. -/
def Obligations.TransferOutsideTheImageEndsTheStream : Prop :=
  ∀ (s : State) (w : Word) (i : Instr) (target : Word), Fetches s w → decode w = .ok i →
    ((∃ rd imm, i = .jal rd imm ∧ target = s.pc + imm) ∨
     (∃ rd rs1 imm f3, i = .jalr rd rs1 imm f3 ∧ target = (s.readReg rs1 + imm) &&& 0xFFFFFFFE#32) ∨
     ∃ rs1 rs2 imm, target = s.pc + imm ∧
      ((i = .beq rs1 rs2 imm ∧ s.readReg rs1 = s.readReg rs2) ∨
       (i = .bne rs1 rs2 imm ∧ s.readReg rs1 ≠ s.readReg rs2) ∨
       (i = .blt rs1 rs2 imm ∧ (s.readReg rs1).toInt < (s.readReg rs2).toInt) ∨
       (i = .bge rs1 rs2 imm ∧ (s.readReg rs2).toInt ≤ (s.readReg rs1).toInt) ∨
       (i = .bltu rs1 rs2 imm ∧ (s.readReg rs1).toNat < (s.readReg rs2).toNat) ∨
       (i = .bgeu rs1 rs2 imm ∧ (s.readReg rs2).toNat ≤ (s.readReg rs1).toNat))) →
    s.cfg.imageSize < target.toNat + 4 → (∀ n, s.cfg.maxSteps = some n → s.steps + 1 < n) →
    ∃ t u, step s = .next t ∧ t.pc = target ∧ t.halted = false ∧ step t = .next u ∧
      HaltedWith t u .endOfStream 0#32 0#32

/-- R212: a jump whose link register is locked changes the pc and nothing else. -/
def Obligations.JumpWithLockedLinkStillJumps : Prop :=
  ∀ (s : State) (rd rs1 : Reg) (imm : Word) (f3 : BitVec 3), s.isLocked rd = true →
    exec (.jal rd imm) s = .next (s.setPc (s.pc + imm)) ∧
    exec (.jalr rd rs1 imm f3) s = .next (s.setPc ((s.readReg rs1 + imm) &&& 0xFFFFFFFE#32))

/-- The bits of every immediate (30_encoding.md R101 to R106; the B layout is the spec's decision D1,
the canonical one). -/
def Obligations.ImmediatesTakeTheirBitsFromTheWord : Prop :=
  ∀ w : Word,
    (∀ k < 32, (immI w).getLsbD k = if k < 11 then w.getLsbD (20 + k) else w.getLsbD 31) ∧
    (∀ k < 32, (immS w).getLsbD k =
      if k < 5 then w.getLsbD (7 + k) else if k < 12 then w.getLsbD (20 + k) else false) ∧
    (∀ k < 32, (immB w).getLsbD k =
      if k = 0 then false else if k < 5 then w.getLsbD (7 + k) else if k < 11 then w.getLsbD (20 + k)
      else if k = 11 then w.getLsbD 7 else w.getLsbD 31) ∧
    (∀ k < 32, (immU w).getLsbD k = if k < 12 then false else w.getLsbD k) ∧
    (∀ k < 32, (immJ w).getLsbD k =
      if k = 0 then false else if k < 11 then w.getLsbD (20 + k) else if k = 11 then w.getLsbD 20
      else if k < 20 then w.getLsbD k else w.getLsbD 31)

/-! ### Pseudo-instructions (30_encoding.md) -/

/-- The pseudo-instructions of 30_encoding.md R123, which the spec takes from general knowledge: what
their expansions do, and the effects its third column states (nop: only the pc advances, with a warning;
j, jr, ret: the link write is dropped, with a warning). That the wide `li` takes the low 12 bits of imm
sign-extended is notes/assumptions/24.md. -/
def Obligations.PseudoInstructionsDoWhatTheyAbbreviate : Prop :=
  (∀ s : State, ∃ i, Pseudo.nop.expand = [i] ∧ exec i s = .next (s.setPc (s.pc + 4#32)) ∧
    (s.halted = false → lockedWriteOf i s (s.setPc (s.pc + 4#32)) = true)) ∧
  (∀ (s : State) (rd rs : Reg),
    (∃ i t, (Pseudo.mv rd rs).expand = [i] ∧ exec i s = .next t ∧
      Wrote s t rd (s.readReg rs) (s.pc + 4#32)) ∧
    (∃ i t v, (Pseudo.not rd rs).expand = [i] ∧ exec i s = .next t ∧ Wrote s t rd v (s.pc + 4#32) ∧
      ∀ k < 32, v.getLsbD k = !(s.readReg rs).getLsbD k) ∧
    (∃ i t v, (Pseudo.neg rd rs).expand = [i] ∧ exec i s = .next t ∧ Wrote s t rd v (s.pc + 4#32) ∧
      v.toNat = (2 ^ 32 - (s.readReg rs).toNat) % 2 ^ 32) ∧
    (∃ i t, (Pseudo.seqz rd rs).expand = [i] ∧ exec i s = .next t ∧
      Wrote s t rd (if s.readReg rs = 0#32 then 1#32 else 0#32) (s.pc + 4#32)) ∧
    (∃ i t, (Pseudo.snez rd rs).expand = [i] ∧ exec i s = .next t ∧
      Wrote s t rd (if s.readReg rs = 0#32 then 0#32 else 1#32) (s.pc + 4#32))) ∧
  (∀ (s : State) (rd : Reg) (imm : Word),
    (∃ i t, (Pseudo.li rd imm).expand = [i] ∧ exec i s = .next t ∧ Wrote s t rd imm (s.pc + 4#32)) ∧
    (∃ i j t u, (Pseudo.liWide rd imm).expand = [i, j] ∧ i.wellFormed = true ∧ j.wellFormed = true ∧
      exec i s = .next t ∧ exec j t = .next u ∧ Wrote s u rd imm (s.pc + 8#32))) ∧
  (∀ (s : State) (rs : Reg) (off : Word),
    (∃ i t, (Pseudo.beqz rs off).expand = [i] ∧ exec i s = .next t ∧
      Branched s t (if s.readReg rs = 0#32 then s.pc + off else s.pc + 4#32)) ∧
    (∃ i t, (Pseudo.bnez rs off).expand = [i] ∧ exec i s = .next t ∧
      Branched s t (if s.readReg rs = 0#32 then s.pc + 4#32 else s.pc + off)) ∧
    (∃ i t, (Pseudo.j off).expand = [i] ∧ exec i s = .next t ∧ t = s.setPc (s.pc + off) ∧
      (s.halted = false → lockedWriteOf i s t = true)) ∧
    (∃ i t, (Pseudo.jr rs).expand = [i] ∧ exec i s = .next t ∧
      t = s.setPc (s.readReg rs &&& 0xFFFFFFFE#32) ∧ (s.halted = false → lockedWriteOf i s t = true)) ∧
    (∃ i t, Pseudo.ret.expand = [i] ∧ exec i s = .next t ∧
      t = s.setPc (s.readReg 1 &&& 0xFFFFFFFE#32) ∧ (s.halted = false → lockedWriteOf i s t = true)) ∧
    (∃ i t, (Pseudo.call off).expand = [i] ∧ exec i s = .next t ∧
      Wrote s t 1 (s.pc + 4#32) (s.pc + off)))

/-! ### ECALL and the halting conditions (45_system.md, 60_exceptions.md) -/

/-- ECALL (45_system.md): every word with opcode 0x73 halts with its cause, pc and word, and has no
other effect. That the pc keeps the address of the ECALL is the spec's decision D13, the recorded
registers D20. -/
def Obligations.EcallHaltsWithItsWord : Prop :=
  EncodedBy .ecall 0x0000007F#32 0x00000073#32 (fun w => .ecall (w.extractLsb' 7 25)) ∧
  (∀ (s : State) (rest : BitVec 25),
    ∃ t, exec (.ecall rest) s = .next t ∧ HaltedWith s t .ecallHalt (rest ++ 0x73#7) 0#32) ∧
  ∀ (s : State) (w : Word), Fetches s w → w &&& 0x0000007F#32 = 0x00000073#32 →
    ∃ t, step s = .next t ∧ HaltedWith s t .ecallHalt w 0#32

/-- R54 (the spec's decision D23): a halted engine stays as it is and traces nothing, whatever the
instruction memory answers. -/
def Obligations.HaltedEngineDoesNothing : Prop :=
  ∀ s : State, s.halted = true →
    step s = .next s ∧ stepTrace s = none ∧
    ∀ f : Option Word, cycle f s = .next s ∧ cycleTrace f s = none

/-- R246, R251 (decisions D19, D22): at the step limit the engine halts without fetching, also with the
pc outside the image. -/
def Obligations.StepLimitHaltsBeforeFetch : Prop :=
  ∀ (s : State) (n : Nat), s.halted = false → s.cfg.maxSteps = some n → n ≤ s.steps →
    ∃ t, step s = .next t ∧ HaltedWith s t .stepLimit 0#32 0#32

/-- R243 with R70 (decisions D7, D20): with fewer than four image bytes at the pc the engine halts with
END_OF_STREAM. -/
def Obligations.PcPastTheImageEndsTheStream : Prop :=
  ∀ s : State, s.halted = false → (∀ n, s.cfg.maxSteps = some n → s.steps < n) →
    s.cfg.imageSize < s.pc.toNat + 4 →
    ∃ t, step s = .next t ∧ HaltedWith s t .endOfStream 0#32 0#32

/-- R244 (decisions D6, D20): an undecodable word halts the engine, or with the skip policy only the pc
and the step counter advance. -/
def Obligations.UndecodableWordFollowsThePolicy : Prop :=
  ∀ (s : State) (w : Word) (e : DecodeReject), Fetches s w → decode w = .error e →
    (s.cfg.decodeFaultPolicy = .halt →
      ∃ t, step s = .next t ∧ HaltedWith s t .decodeFault w 0#32) ∧
    (s.cfg.decodeFaultPolicy = .skip →
      ∃ t, step s = .next t ∧ SameRegisters s t ∧ SameMemory s t ∧ SameRunStatus s t ∧
        t.cfg = s.cfg ∧ t.pc = s.pc + 4#32 ∧ t.steps = s.steps + 1)

/-- R253 with R249 (the spec's decisions D12, D20, D22, D23): a cycle that halts does so for one of the
five causes, under that cause's condition, with the word and the address that belong to it; it writes
the run status and no other state, and nothing is executed afterwards. -/
def Obligations.HaltsWriteOnlyTheRunStatus : Prop :=
  ∀ s t : State, s.halted = false → step s = .next t → t.halted = true →
    step t = .next t ∧
    (((∃ n, s.cfg.maxSteps = some n ∧ n ≤ s.steps) ∧ HaltedWith s t .stepLimit 0#32 0#32) ∨
     ((∀ n, s.cfg.maxSteps = some n → s.steps < n) ∧ s.cfg.imageSize < s.pc.toNat + 4 ∧
      HaltedWith s t .endOfStream 0#32 0#32) ∨
     ∃ w, Fetches s w ∧
      (((∃ rest, decode w = .ok (.ecall rest)) ∧ HaltedWith s t .ecallHalt w 0#32) ∨
       ((∃ e, decode w = .error e) ∧ s.cfg.decodeFaultPolicy = .halt ∧ HaltedWith s t .decodeFault w 0#32) ∨
       ∃ i n rs1 imm, decode w = .ok i ∧ Accesses i n rs1 imm ∧
        s.cfg.dmemSize < (s.effAddr rs1 imm).toNat + n.bytes ∧
        HaltedWith s t .memoryBoundsFault w (s.effAddr rs1 imm)))

/-- The codes of halt_cause (60_exceptions.md, "Halt causes and their codes"); the numbers are the spec's
decision D20. -/
def Obligations.HaltCausesHaveTheirCodes : Prop :=
  HaltCause.none.code = 0#3 ∧ HaltCause.ecallHalt.code = 1#3 ∧ HaltCause.endOfStream.code = 2#3 ∧
  HaltCause.decodeFault.code = 3#3 ∧ HaltCause.memoryBoundsFault.code = 4#3 ∧
  HaltCause.stepLimit.code = 5#3

/-! ### The cycle (10_state.md) -/

/-- R55: a running engine below its step limit whose image holds, at the pc, the bytes of an
instruction executes it: the step is `exec` of the instruction, and `steps` goes up by one unless
the instruction halted. -/
def Obligations.StepRunsTheDecodedInstruction : Prop :=
  ∀ (s t : State) (i : Instr) (rest : List Byte), s.halted = false →
    (∀ n, s.cfg.maxSteps = some n → s.steps < n) →
    decodeBytes (s.cfg.image.drop s.pc.toNat) = .ok (i, rest) → exec i s = .next t →
    (t.halted = true → step s = .next t) ∧
    (t.halted = false → step s = .next { t with steps := t.steps + 1 })

/-- Every cycle of every state answers a next state: no exceptional condition stops the machine
otherwise than by halting (R55, R240; the model's reading is notes/assumptions/7.md). -/
def Obligations.EveryCycleAnswersANextState : Prop :=
  (∀ s : State, ∃ t, step s = .next t) ∧ ∀ (i : Instr) (s : State), ∃ t, exec i s = .next t

/-- `steps` (10_state.md) counts the cycles that leave the engine running, starts at 0, and is read by
the step-limit check only. That it counts these cycles is the spec's decision D19; that it is kept also
when `MAX_STEPS` is none is the model's choice (notes/assumptions/15.md). -/
def Obligations.StepsCountsCompletedCycles : Prop :=
  (∀ c t, resetWith c = .next t → t.steps = 0) ∧
  (∀ s t : State, s.halted = false → step s = .next t →
    t.steps = if t.halted then s.steps else s.steps + 1) ∧
  (∀ (s t : State) (n : Nat), State.stepLimitReached { s with steps := n } = s.stepLimitReached →
    step s = .next t →
    ∃ u, step { s with steps := n } = .next u ∧ { u with steps := 0 } = { t with steps := 0 })

/-- Lock flags never change after reset, the parameters and the image never change (10_state.md R35,
decision D18; R43; 70_reset_and_hazards.md R281, decision D29). -/
def Obligations.LocksParametersAndImageNeverChange : Prop :=
  (∀ s t : State, step s = .next t → t.rfLocked = s.rfLocked ∧ t.cfg = s.cfg) ∧
  ∀ (i : Instr) (s t : State), exec i s = .next t → t.rfLocked = s.rfLocked ∧ t.cfg = s.cfg

/-- R62: only a cycle that runs SB, SH or SW changes a byte of DataMemory; no instruction but a load
reads it; the image is read by the fetch alone, and the fetch does not read DataMemory. -/
def Obligations.DataMemoryReachedOnlyByLoadsAndStores : Prop :=
  (∀ (s t : State) (a : Nat), step s = .next t → t.readByte a ≠ s.readByte a →
    ∃ w rs1 rs2 imm, Fetches s w ∧
      (decode w = .ok (.sb rs1 rs2 imm) ∨ decode w = .ok (.sh rs1 rs2 imm) ∨
       decode w = .ok (.sw rs1 rs2 imm))) ∧
  (∀ (i : Instr) (s t : State) (m : Memory),
    i.mnemonic ∉ [.sb, .sh, .sw, .lb, .lh, .lw, .lbu, .lhu] → exec i s = .next t →
    exec i (s.setDmem m) = .next (t.setDmem m)) ∧
  (∀ (i : Instr) (s t : State) (img : List Byte), exec i s = .next t →
    exec i { s with cfg := { s.cfg with image := img } } =
      .next { t with cfg := { t.cfg with image := img } }) ∧
  (∀ (s : State) (m : Memory), (s.setDmem m).fetch = s.fetch)

/-- R53: an instruction changes no register but its `rd`, and a register it names in no field has no
influence on it. -/
def Obligations.RegistersNotNamedAreUntouched : Prop :=
  ∀ (i : Instr) (s t : State) (r : Reg) (v : Word), exec i s = .next t → destOf i ≠ some r →
    t.readReg r = s.readReg r ∧ (r ∉ sourcesOf i → exec i (s.setReg r v) = .next (t.setReg r v))

/-- R32: register 0 reads 0 and is locked in every state, a write to it changes nothing, and neither a
reset nor a cycle makes its stored value or flag differ. -/
def Obligations.RegisterZeroIsHardwired : Prop :=
  (∀ s : State, s.readReg 0 = 0#32 ∧ s.isLocked 0 = true ∧ ∀ v, s.writeReg 0 v = s) ∧
  (∀ c t, resetWith c = .next t → t.rfValue[0] = 0#32 ∧ t.rfLocked[0] = true) ∧
  (∀ s t : State, s.rfValue[0] = 0#32 → s.rfLocked[0] = true → step s = .next t →
    t.rfValue[0] = 0#32 ∧ t.rfLocked[0] = true)

/-- 44_control_transfer.md, "Properties of control transfer" (R210, decision D8): from an even pc every
cycle reaches an even pc. -/
def Obligations.ProgramCounterStaysEven : Prop :=
  ∀ s t : State, s.pc.toNat % 2 = 0 → step s = .next t → t.pc.toNat % 2 = 0

/-- R64. -/
def Obligations.FetchIsLittleEndian : Prop :=
  ∀ s : State, s.pc.toNat + 4 ≤ s.cfg.imageSize →
    ∃ w, s.fetch = some w ∧ ∀ k < 4, s.cfg.image[s.pc.toNat + k]? = some (w.extractLsb' (8 * k) 8)

/-! ### Trace and ports (00_scope.md) -/

/-- R19 (decision D24 for the form): the record of a cycle that fetched a word, and no effect of it;
which halting cycles have a record is notes/assumptions/17.md. The memory writes are the bytes of a
store in bounds, each with its address, and none in every other cycle. -/
def Obligations.TraceRecordDescribesTheCycle : Prop :=
  ∀ (s t : State) (w : Word), Fetches s w → step s = .next t →
    ∃ r, stepTrace s = some r ∧ r.pc = s.pc ∧ r.rawWord = w ∧ r.opcode = w.extractLsb' 0 7 ∧
      r.mnemonic = mnemonicOf w ∧
      (∀ k : Reg, r.registersBefore[k.val] = s.readReg k ∧ r.registersAfter[k.val] = t.readReg k) ∧
      (∀ i n rs1 rs2 imm, decode w = .ok i → Stores i n rs1 rs2 imm →
        r.memoryWrites = if (s.effAddr rs1 imm).toNat + n.bytes ≤ s.cfg.dmemSize then
          (List.range n.bytes).map fun k => ((s.effAddr rs1 imm).toNat + k, byteOf (s.readReg rs2) k)
          else []) ∧
      ((∀ i n rs1 rs2 imm, decode w = .ok i → ¬ Stores i n rs1 rs2 imm) → r.memoryWrites = []) ∧
      (∀ a, t.readByte a = Memory.read (Memory.writeAll s.dmem r.memoryWrites) a) ∧
      (∀ c ∈ r.memoryWrites, t.readByte c.1 = c.2)

/-- R247 with R34 (decisions D24, D27): the warning is raised exactly by a cycle that completes an
instruction whose `rd` is locked, and such a cycle changes no register. A halting cycle attempts no
write (R252, decision D12); that it has a record at all is notes/assumptions/17.md. -/
def Obligations.WarningExactlyOnLockedDestination : Prop :=
  ∀ (s t : State) (w : Word) (i : Instr), Fetches s w → decode w = .ok i → step s = .next t →
    ∃ r, stepTrace s = some r ∧
      (r.lockedWriteWarning = true ↔
        t.halted = false ∧ ∃ rd, destOf i = some rd ∧ s.isLocked rd = true) ∧
      (r.lockedWriteWarning = true → SameRegisters s t ∧ t.halted = false)

/-- R18 with R280 (decisions D21, D28): an edge with `rst` = 1 answers the reset of the configuration,
whatever the state; one without it is one cycle on the word the instruction memory delivers, or on no
word; driven from the image it is the step. The outputs show the state, halt_cause by the codes of R241
(decision D20); that the trace output is the record of the cycle this edge performs is
notes/assumptions/20.md, which cycles have one notes/assumptions/17.md. -/
def Obligations.ClockEdgeResetsOrRunsACycle : Prop :=
  (∀ (s : State) (inp : Inputs), inp.rst = true → clockEdge inp s = resetWith s.cfg) ∧
  (∀ (s : State) (inp : Inputs), inp.rst = false →
    clockEdge inp s = cycle (if inp.imemValid then some inp.imemRdata else none) s) ∧
  (∀ s : State, clockEdge (s.imageInputs false) s = step s) ∧
  (∀ (s : State) (rst : Bool), (s.imageInputs rst).rst = rst ∧
    (s.imageInputs rst).imemValid = decide (s.pc.toNat + 4 ≤ s.cfg.imageSize) ∧
    ∀ w, s.fetch = some w → (s.imageInputs rst).imemRdata = w) ∧
  ∀ (s : State) (inp : Inputs), (s.outputs inp).imemAddr = s.pc ∧ (s.outputs inp).halted = s.halted ∧
    (s.outputs inp).haltPc = s.haltPc ∧ (s.outputs inp).haltWord = s.haltWord ∧
    (s.outputs inp).haltAddr = s.haltAddr ∧
    (∀ r : Reg, (s.outputs inp).regValue[r.val] = s.readReg r ∧
      (s.outputs inp).regLocked[r.val] = s.isLocked r) ∧
    (s.haltCause = .none → (s.outputs inp).haltCause = 0#3) ∧
    (s.haltCause = .ecallHalt → (s.outputs inp).haltCause = 1#3) ∧
    (s.haltCause = .endOfStream → (s.outputs inp).haltCause = 2#3) ∧
    (s.haltCause = .decodeFault → (s.outputs inp).haltCause = 3#3) ∧
    (s.haltCause = .memoryBoundsFault → (s.outputs inp).haltCause = 4#3) ∧
    (s.haltCause = .stepLimit → (s.outputs inp).haltCause = 5#3) ∧
    (inp.rst = true → (s.outputs inp).trace = none) ∧
    (inp.rst = false → (s.outputs inp).trace =
      cycleTrace (if inp.imemValid then some inp.imemRdata else none) s)

/-! ### Reset (10_state.md R50, 70_reset_and_hazards.md) -/

/-- R50 for the default parameters (the defaults and the run status are the spec's decisions D15 to
D20; that the image is empty until a program is supplied is notes/assumptions/5.md). -/
def Obligations.ResetLeavesTheSpecifiedState : Prop :=
  (∀ r, State.reset.readReg r = 0#32) ∧ (∀ r, State.reset.isLocked r = decide (r = 0)) ∧
  State.reset.pc = 0#32 ∧ (∀ a, State.reset.readByte a = 0#8) ∧ State.reset.halted = false ∧
  State.reset.haltCause.code = 0#3 ∧ State.reset.haltPc = 0#32 ∧ State.reset.haltWord = 0#32 ∧
  State.reset.haltAddr = 0#32 ∧ State.reset.steps = 0 ∧ resetWith Config.defaults = .next State.reset

/-- R282 (decisions D17, D25): which configurations have a reset state. -/
def Obligations.ResetRefusesExactlyBadConfigurations : Prop :=
  ∀ c : Config,
    ((∃ t, resetWith c = .next t) ↔
      1 ≤ c.dmemSize ∧ c.dmemSize ≤ 2 ^ 32 ∧ c.imageSize ≤ 2 ^ 32 ∧
      (c.seedDmem = true → c.imageSize ≤ c.dmemSize)) ∧
    ((∃ t, resetWith c = .next t) ∨ ∃ r, resetWith c = .refused r)

/-- R50 and R81 for every accepted configuration (decisions D16 to D20 for the parameters and the run
status): registers, lock flags, pc, run status, and DataMemory seeded or not. `DMEM_INIT` as a list of
pairs of which the first of an address counts is the model's choice (notes/assumptions/4.md). -/
def Obligations.ResetInitialisesEveryPieceOfState : Prop :=
  ∀ (c : Config) (t : State), resetWith c = .next t →
    (∀ r, t.readReg r = 0#32) ∧ (∀ r : Reg, t.isLocked r = (r = 0 || c.lockInit.getLsbD r.val)) ∧
    t.pc = 0#32 ∧ t.halted = false ∧ t.haltCause = .none ∧ t.haltPc = 0#32 ∧ t.haltWord = 0#32 ∧
    t.haltAddr = 0#32 ∧ t.steps = 0 ∧ t.cfg = c ∧
    (∀ a < c.dmemSize, t.readByte a =
      if c.seedDmem = true ∧ a < c.imageSize then c.image.getD a 0#8
      else match c.dmemInit.find? (fun p => p.1 == a) with
        | some p => p.2
        | none => 0#8)

/-- 70_reset_and_hazards.md, "Entry point" (R283): unless MAX_STEPS is 0, the first cycle runs the word
at image offset 0, or ends the stream with every register 0 when the image is shorter than 4 bytes. -/
def Obligations.ExecutionStartsAtImageOffsetZero : Prop :=
  ∀ (c : Config) (t : State), resetWith c = .next t → c.maxSteps ≠ some 0 →
    (4 ≤ c.imageSize → ∃ w, Fetches t w ∧ ∀ k < 4, c.image[k]? = some (w.extractLsb' (8 * k) 8)) ∧
    (c.imageSize < 4 → ∃ u, step t = .next u ∧ HaltedWith t u .endOfStream 0#32 0#32 ∧
      ∀ r, u.readReg r = 0#32)

/-- The invariant holds after every accepted reset, State.reset among them. -/
def Obligations.ResetEstablishesTheInvariant : Prop :=
  Inv State.reset ∧ ∀ (c : Config) (t : State), resetWith c = .next t → Inv t

/-- Every cycle keeps the invariant: canonical and bounded memory, register 0, lock flags, locked
registers at 0, even pc, run status, step limit and configuration. -/
def Obligations.EveryCycleKeepsTheInvariant : Prop :=
  ∀ s t : State, Inv s → step s = .next t → Inv t

/-! ### Encoding and decoding (30_encoding.md) -/

/-- Decode and encode agree on every well-formed instruction. -/
def Obligations.DecodeOfEncodeIsTheInstruction : Prop :=
  ∀ i : Instr, i.wellFormed = true → decode (encode i) = .ok i

/-- A word that decodes is the word of its instruction, and the instruction is well formed: no bit of
a word is dropped. -/
def Obligations.EncodeOfDecodeIsTheWord : Prop :=
  ∀ (w : Word) (i : Instr), decode w = .ok i → i.wellFormed = true ∧ encode i = w

/-- The dispatch agrees with the mask and match rows of the opcode table (30_encoding.md R118; the
branch rows are the spec's decision D5, the ignored bits D2 to D4): a word is a row's instruction
exactly when it matches the row, no word matches two rows, and the words that match no row are the
undecodable ones. -/
def Obligations.DecoderAgreesWithTheOpcodeTable : Prop :=
  (∀ w, ∀ row ∈ opcodeTable, mnemonicOf w = some row.mnemonic ↔ w &&& row.mask = row.pattern) ∧
  (∀ w, ∀ a ∈ opcodeTable, ∀ b ∈ opcodeTable,
    w &&& a.mask = a.pattern → w &&& b.mask = b.pattern → a = b) ∧
  (∀ w, (∀ row ∈ opcodeTable, w &&& row.mask ≠ row.pattern) ↔ ∃ e, decode w = .error e)

/-- The complete list of undecodable words (30_encoding.md R115; the classes rest on the spec's
decisions D2 to D5). -/
def Obligations.DecodeFaultsOnExactlyTheListedWords : Prop :=
  ∀ w : Word, (∃ e, decode w = .error e) ↔
    opcode w ∉ [0x33#7, 0x13#7, 0x23#7, 0x03#7, 0x37#7, 0x17#7, 0x63#7, 0x6F#7, 0x67#7, 0x73#7] ∨
    (opcode w = 0x33#7 ∧ funct3 w ∈ [0#3, 5#3] ∧ funct7 w ∉ [0x00#7, 0x20#7]) ∨
    (opcode w = 0x23#7 ∧ funct3 w ∈ [3#3, 4#3, 5#3, 6#3, 7#3]) ∨
    (opcode w = 0x03#7 ∧ funct3 w ∈ [3#3, 6#3, 7#3]) ∨
    (opcode w = 0x63#7 ∧ funct3 w ∈ [2#3, 3#3])

/-- Words written out from the layouts R93 to R99 and the vectors of 95_test_vectors.md, one or more of
every format, read as the instructions they stand for. -/
def Obligations.SpecWordsDecodeToTheirInstructions : Prop :=
  decode 0x002081B3#32 = .ok (.add 3 1 2) ∧ decode 0x4020D1B3#32 = .ok (.sra 3 1 2) ∧
  decode 0x022091B3#32 = .ok (.sll 3 1 2 0x01#7) ∧ decode 0xFFF08193#32 = .ok (.addi 3 1 0xFFFFFFFF#32) ∧
  decode 0xFE20AE23#32 = .ok (.sw 1 2 0x00000FFC#32) ∧ decode 0xFFC0A183#32 = .ok (.lw 3 1 0xFFFFFFFC#32) ∧
  decode 0x123451B7#32 = .ok (.lui 3 0x12345000#32) ∧ decode 0x00001197#32 = .ok (.auipc 3 0x00001000#32) ∧
  decode 0xFE011CE3#32 = .ok (.bne 2 0 0xFFFFFFF8#32) ∧ decode 0xFFDFF0EF#32 = .ok (.jal 1 0xFFFFFFFC#32) ∧
  decode 0xFFD280E7#32 = .ok (.jalr 1 5 0xFFFFFFFD#32 0#3) ∧ decode 0x00000073#32 = .ok (.ecall 0#25) ∧
  decode 0x0000000F#32 = .error .unknownOpcode
end

