-- ==== Sys2Proof/Laws/State.lean ====
section
/-! SUPPORT. One lemma per field per update of State, true by rfl, so that no later proof unfolds a
record update. -/

namespace Sys2Proof.Machine

variable (s : State)

/-! ### setReg -/

@[simp] theorem State.setReg_rfValue (i : Reg) (v : Word) : (s.setReg i v).rfValue = s.rfValue.set i.val v := rfl
@[simp] theorem State.setReg_rfLocked (i : Reg) (v : Word) : (s.setReg i v).rfLocked = s.rfLocked := rfl
@[simp] theorem State.setReg_pc (i : Reg) (v : Word) : (s.setReg i v).pc = s.pc := rfl
@[simp] theorem State.setReg_dmem (i : Reg) (v : Word) : (s.setReg i v).dmem = s.dmem := rfl
@[simp] theorem State.setReg_halted (i : Reg) (v : Word) : (s.setReg i v).halted = s.halted := rfl
@[simp] theorem State.setReg_haltCause (i : Reg) (v : Word) : (s.setReg i v).haltCause = s.haltCause := rfl
@[simp] theorem State.setReg_haltPc (i : Reg) (v : Word) : (s.setReg i v).haltPc = s.haltPc := rfl
@[simp] theorem State.setReg_haltWord (i : Reg) (v : Word) : (s.setReg i v).haltWord = s.haltWord := rfl
@[simp] theorem State.setReg_haltAddr (i : Reg) (v : Word) : (s.setReg i v).haltAddr = s.haltAddr := rfl
@[simp] theorem State.setReg_steps (i : Reg) (v : Word) : (s.setReg i v).steps = s.steps := rfl
@[simp] theorem State.setReg_cfg (i : Reg) (v : Word) : (s.setReg i v).cfg = s.cfg := rfl

/-! ### setPc -/

@[simp] theorem State.setPc_rfValue (t : Word) : (s.setPc t).rfValue = s.rfValue := rfl
@[simp] theorem State.setPc_rfLocked (t : Word) : (s.setPc t).rfLocked = s.rfLocked := rfl
@[simp] theorem State.setPc_pc (t : Word) : (s.setPc t).pc = t := rfl
@[simp] theorem State.setPc_dmem (t : Word) : (s.setPc t).dmem = s.dmem := rfl
@[simp] theorem State.setPc_halted (t : Word) : (s.setPc t).halted = s.halted := rfl
@[simp] theorem State.setPc_haltCause (t : Word) : (s.setPc t).haltCause = s.haltCause := rfl
@[simp] theorem State.setPc_haltPc (t : Word) : (s.setPc t).haltPc = s.haltPc := rfl
@[simp] theorem State.setPc_haltWord (t : Word) : (s.setPc t).haltWord = s.haltWord := rfl
@[simp] theorem State.setPc_haltAddr (t : Word) : (s.setPc t).haltAddr = s.haltAddr := rfl
@[simp] theorem State.setPc_steps (t : Word) : (s.setPc t).steps = s.steps := rfl
@[simp] theorem State.setPc_cfg (t : Word) : (s.setPc t).cfg = s.cfg := rfl

/-! ### advancePc -/

@[simp] theorem State.advancePc_rfValue : (s.advancePc).rfValue = s.rfValue := rfl
@[simp] theorem State.advancePc_rfLocked : (s.advancePc).rfLocked = s.rfLocked := rfl
@[simp] theorem State.advancePc_pc : (s.advancePc).pc = s.pc + 4#32 := rfl
@[simp] theorem State.advancePc_dmem : (s.advancePc).dmem = s.dmem := rfl
@[simp] theorem State.advancePc_halted : (s.advancePc).halted = s.halted := rfl
@[simp] theorem State.advancePc_haltCause : (s.advancePc).haltCause = s.haltCause := rfl
@[simp] theorem State.advancePc_haltPc : (s.advancePc).haltPc = s.haltPc := rfl
@[simp] theorem State.advancePc_haltWord : (s.advancePc).haltWord = s.haltWord := rfl
@[simp] theorem State.advancePc_haltAddr : (s.advancePc).haltAddr = s.haltAddr := rfl
@[simp] theorem State.advancePc_steps : (s.advancePc).steps = s.steps := rfl
@[simp] theorem State.advancePc_cfg : (s.advancePc).cfg = s.cfg := rfl

/-! ### setDmem -/

@[simp] theorem State.setDmem_rfValue (m : Memory) : (s.setDmem m).rfValue = s.rfValue := rfl
@[simp] theorem State.setDmem_rfLocked (m : Memory) : (s.setDmem m).rfLocked = s.rfLocked := rfl
@[simp] theorem State.setDmem_pc (m : Memory) : (s.setDmem m).pc = s.pc := rfl
@[simp] theorem State.setDmem_dmem (m : Memory) : (s.setDmem m).dmem = m := rfl
@[simp] theorem State.setDmem_halted (m : Memory) : (s.setDmem m).halted = s.halted := rfl
@[simp] theorem State.setDmem_haltCause (m : Memory) : (s.setDmem m).haltCause = s.haltCause := rfl
@[simp] theorem State.setDmem_haltPc (m : Memory) : (s.setDmem m).haltPc = s.haltPc := rfl
@[simp] theorem State.setDmem_haltWord (m : Memory) : (s.setDmem m).haltWord = s.haltWord := rfl
@[simp] theorem State.setDmem_haltAddr (m : Memory) : (s.setDmem m).haltAddr = s.haltAddr := rfl
@[simp] theorem State.setDmem_steps (m : Memory) : (s.setDmem m).steps = s.steps := rfl
@[simp] theorem State.setDmem_cfg (m : Memory) : (s.setDmem m).cfg = s.cfg := rfl

/-! ### haltWith -/

@[simp] theorem State.haltWith_rfValue (c : HaltCause) (w a : Word) : (s.haltWith c w a).rfValue = s.rfValue := rfl
@[simp] theorem State.haltWith_rfLocked (c : HaltCause) (w a : Word) : (s.haltWith c w a).rfLocked = s.rfLocked := rfl
@[simp] theorem State.haltWith_pc (c : HaltCause) (w a : Word) : (s.haltWith c w a).pc = s.pc := rfl
@[simp] theorem State.haltWith_dmem (c : HaltCause) (w a : Word) : (s.haltWith c w a).dmem = s.dmem := rfl
@[simp] theorem State.haltWith_halted (c : HaltCause) (w a : Word) : (s.haltWith c w a).halted = true := rfl
@[simp] theorem State.haltWith_haltCause (c : HaltCause) (w a : Word) : (s.haltWith c w a).haltCause = c := rfl
@[simp] theorem State.haltWith_haltPc (c : HaltCause) (w a : Word) : (s.haltWith c w a).haltPc = s.pc := rfl
@[simp] theorem State.haltWith_haltWord (c : HaltCause) (w a : Word) : (s.haltWith c w a).haltWord = w := rfl
@[simp] theorem State.haltWith_haltAddr (c : HaltCause) (w a : Word) : (s.haltWith c w a).haltAddr = a := rfl
@[simp] theorem State.haltWith_steps (c : HaltCause) (w a : Word) : (s.haltWith c w a).steps = s.steps := rfl
@[simp] theorem State.haltWith_cfg (c : HaltCause) (w a : Word) : (s.haltWith c w a).cfg = s.cfg := rfl

/-! ### countStep -/

@[simp] theorem State.countStep_rfValue : (s.countStep).rfValue = s.rfValue := rfl
@[simp] theorem State.countStep_rfLocked : (s.countStep).rfLocked = s.rfLocked := rfl
@[simp] theorem State.countStep_pc : (s.countStep).pc = s.pc := rfl
@[simp] theorem State.countStep_dmem : (s.countStep).dmem = s.dmem := rfl
@[simp] theorem State.countStep_halted : (s.countStep).halted = s.halted := rfl
@[simp] theorem State.countStep_haltCause : (s.countStep).haltCause = s.haltCause := rfl
@[simp] theorem State.countStep_haltPc : (s.countStep).haltPc = s.haltPc := rfl
@[simp] theorem State.countStep_haltWord : (s.countStep).haltWord = s.haltWord := rfl
@[simp] theorem State.countStep_haltAddr : (s.countStep).haltAddr = s.haltAddr := rfl
@[simp] theorem State.countStep_steps : (s.countStep).steps = s.steps + 1 := rfl
@[simp] theorem State.countStep_cfg : (s.countStep).cfg = s.cfg := rfl

/-! ### writeReg: every field but the values -/

@[simp] theorem State.writeReg_rfLocked (i : Reg) (v : Word) : (s.writeReg i v).rfLocked = s.rfLocked := by
  unfold State.writeReg; split <;> rfl
@[simp] theorem State.writeReg_pc (i : Reg) (v : Word) : (s.writeReg i v).pc = s.pc := by
  unfold State.writeReg; split <;> rfl
@[simp] theorem State.writeReg_dmem (i : Reg) (v : Word) : (s.writeReg i v).dmem = s.dmem := by
  unfold State.writeReg; split <;> rfl
@[simp] theorem State.writeReg_halted (i : Reg) (v : Word) : (s.writeReg i v).halted = s.halted := by
  unfold State.writeReg; split <;> rfl
@[simp] theorem State.writeReg_haltCause (i : Reg) (v : Word) : (s.writeReg i v).haltCause = s.haltCause := by
  unfold State.writeReg; split <;> rfl
@[simp] theorem State.writeReg_haltPc (i : Reg) (v : Word) : (s.writeReg i v).haltPc = s.haltPc := by
  unfold State.writeReg; split <;> rfl
@[simp] theorem State.writeReg_haltWord (i : Reg) (v : Word) : (s.writeReg i v).haltWord = s.haltWord := by
  unfold State.writeReg; split <;> rfl
@[simp] theorem State.writeReg_haltAddr (i : Reg) (v : Word) : (s.writeReg i v).haltAddr = s.haltAddr := by
  unfold State.writeReg; split <;> rfl
@[simp] theorem State.writeReg_steps (i : Reg) (v : Word) : (s.writeReg i v).steps = s.steps := by
  unfold State.writeReg; split <;> rfl
@[simp] theorem State.writeReg_cfg (i : Reg) (v : Word) : (s.writeReg i v).cfg = s.cfg := by
  unfold State.writeReg; split <;> rfl

/-! ### What is read through the updates -/

@[simp] theorem State.setReg_isLocked (i : Reg) (v : Word) (r : Reg) : (s.setReg i v).isLocked r = s.isLocked r := rfl
@[simp] theorem State.setReg_readByte (i : Reg) (v : Word) (b : Nat) : (s.setReg i v).readByte b = s.readByte b := rfl
@[simp] theorem State.setReg_inBounds (i : Reg) (v : Word) (d : Word) (n : Width) : (s.setReg i v).inBounds d n = s.inBounds d n := rfl
@[simp] theorem State.setReg_fetch (i : Reg) (v : Word) : (s.setReg i v).fetch = s.fetch := rfl
@[simp] theorem State.setPc_readReg (t : Word) (r : Reg) : (s.setPc t).readReg r = s.readReg r := rfl
@[simp] theorem State.setPc_isLocked (t : Word) (r : Reg) : (s.setPc t).isLocked r = s.isLocked r := rfl
@[simp] theorem State.setPc_readByte (t : Word) (b : Nat) : (s.setPc t).readByte b = s.readByte b := rfl
@[simp] theorem State.setPc_inBounds (t : Word) (d : Word) (n : Width) : (s.setPc t).inBounds d n = s.inBounds d n := rfl
@[simp] theorem State.advancePc_readReg (r : Reg) : (s.advancePc).readReg r = s.readReg r := rfl
@[simp] theorem State.advancePc_isLocked (r : Reg) : (s.advancePc).isLocked r = s.isLocked r := rfl
@[simp] theorem State.advancePc_readByte (b : Nat) : (s.advancePc).readByte b = s.readByte b := rfl
@[simp] theorem State.advancePc_inBounds (d : Word) (n : Width) : (s.advancePc).inBounds d n = s.inBounds d n := rfl
@[simp] theorem State.setDmem_readReg (m : Memory) (r : Reg) : (s.setDmem m).readReg r = s.readReg r := rfl
@[simp] theorem State.setDmem_isLocked (m : Memory) (r : Reg) : (s.setDmem m).isLocked r = s.isLocked r := rfl
@[simp] theorem State.setDmem_inBounds (m : Memory) (d : Word) (n : Width) : (s.setDmem m).inBounds d n = s.inBounds d n := rfl
@[simp] theorem State.setDmem_fetch (m : Memory) : (s.setDmem m).fetch = s.fetch := rfl
@[simp] theorem State.haltWith_readReg (c : HaltCause) (w a : Word) (r : Reg) : (s.haltWith c w a).readReg r = s.readReg r := rfl
@[simp] theorem State.haltWith_isLocked (c : HaltCause) (w a : Word) (r : Reg) : (s.haltWith c w a).isLocked r = s.isLocked r := rfl
@[simp] theorem State.haltWith_readByte (c : HaltCause) (w a : Word) (b : Nat) : (s.haltWith c w a).readByte b = s.readByte b := rfl
@[simp] theorem State.haltWith_inBounds (c : HaltCause) (w a : Word) (d : Word) (n : Width) : (s.haltWith c w a).inBounds d n = s.inBounds d n := rfl
@[simp] theorem State.haltWith_fetch (c : HaltCause) (w a : Word) : (s.haltWith c w a).fetch = s.fetch := rfl
@[simp] theorem State.countStep_readReg (r : Reg) : (s.countStep).readReg r = s.readReg r := rfl
@[simp] theorem State.countStep_isLocked (r : Reg) : (s.countStep).isLocked r = s.isLocked r := rfl
@[simp] theorem State.countStep_readByte (b : Nat) : (s.countStep).readByte b = s.readByte b := rfl
@[simp] theorem State.countStep_inBounds (d : Word) (n : Width) : (s.countStep).inBounds d n = s.inBounds d n := rfl
@[simp] theorem State.countStep_fetch : (s.countStep).fetch = s.fetch := rfl

@[simp] theorem State.setDmem_readByte (m : Memory) (b : Nat) : (s.setDmem m).readByte b = Memory.read m b := rfl

@[simp] theorem State.writeReg_isLocked (i : Reg) (v : Word) (r : Reg) :
    (s.writeReg i v).isLocked r = s.isLocked r := by
  unfold State.writeReg; split <;> rfl

@[simp] theorem State.writeReg_readByte (i : Reg) (v : Word) (b : Nat) :
    (s.writeReg i v).readByte b = s.readByte b := by
  unfold State.writeReg; split <;> rfl

end Sys2Proof.Machine
end

