-- ==== Sys2Proof/Laws/Memory.lean ====
section
/-! SUPPORT. DataMemory as a list of cells: a read after a write, the canonical form and the bound
on the addresses are kept, and the multi-byte accesses seen byte by byte (20_memory.md R65, R66, R69). -/

namespace Sys2Proof.Machine

/-! ### One byte -/

theorem Memory.read_erase (m : Memory) (a b : Nat) :
    Memory.read (Memory.erase m a) b = if b = a then unlistedByte else Memory.read m b := by
  induction m with
  | nil => simp [Memory.erase, Memory.read]
  | cons c m ih =>
    simp only [Memory.erase] at ih
    by_cases hc : c.1 = a
    · by_cases hb : b = a
      · subst hb; simpa [Memory.erase, hc] using ih
      · have : c.1 ≠ b := fun h => hb (h ▸ hc ▸ rfl)
        simp [Memory.erase, hc, ih, hb, Memory.read, Ne.symm hb]
    · by_cases hcb : c.1 = b
      · simp [Memory.erase, Memory.read, hcb, hcb ▸ hc]
      · simp [Memory.erase, hc, Memory.read, hcb, ih]

theorem Memory.read_insert_ne (m : Memory) {a b : Nat} (v : Byte) (h : b ≠ a) :
    Memory.read (Memory.insert m a v) b = Memory.read m b := by
  induction m with
  | nil => simp [Memory.insert, Memory.read, Ne.symm h]
  | cons c m ih =>
    simp only [Memory.insert]
    split
    · simp [Memory.read, Ne.symm h]
    · simp [Memory.read, ih]

theorem Memory.read_insert_self (m : Memory) (a : Nat) (v : Byte) (h : ∀ c ∈ m, c.1 ≠ a) :
    Memory.read (Memory.insert m a v) a = v := by
  induction m with
  | nil => simp [Memory.insert, Memory.read]
  | cons c m ih =>
    simp only [Memory.insert]
    split
    · simp [Memory.read]
    · simp [Memory.read, h c (by simp), ih fun d hd => h d (by simp [hd])]

/-- A byte reads as last written; every other byte is unchanged. It holds of every list. -/
theorem Memory.read_write (m : Memory) (a b : Nat) (v : Byte) :
    Memory.read (Memory.write m a v) b = if b = a then v else Memory.read m b := by
  unfold Memory.write
  split
  · next h => rw [Memory.read_erase, h]
  · by_cases hb : b = a
    · subst hb
      simp only [↓reduceIte]
      exact Memory.read_insert_self _ _ _ fun c hc => by
        simpa using (List.mem_filter.1 hc).2
    · simp [Memory.read_insert_ne _ _ hb, Memory.read_erase, hb]

/-! ### Canonical form and bounds -/

theorem Memory.wf_nil : Memory.wf [] := ⟨List.Pairwise.nil, by simp⟩

theorem Memory.wf_erase {m : Memory} (a : Nat) (h : Memory.wf m) : Memory.wf (Memory.erase m a) :=
  ⟨h.1.sublist List.filter_sublist, fun c hc => h.2 c (List.mem_filter.1 hc).1⟩

theorem Memory.mem_insert {m : Memory} {a : Nat} {v : Byte} {c : Host.Cell}
    (h : c ∈ Memory.insert m a v) : c = (a, v) ∨ c ∈ m := by
  induction m with
  | nil => exact .inl (by simpa [Memory.insert] using h)
  | cons d m ih =>
    simp only [Memory.insert] at h
    split at h
    · simpa using h
    · rcases List.mem_cons.1 h with rfl | h
      · simp
      · rcases ih h with h | h <;> simp [h]

theorem Memory.wf_insert {m : Memory} {a : Nat} {v : Byte} (h : Memory.wf m) (hv : v ≠ unlistedByte)
    (ha : ∀ c ∈ m, c.1 ≠ a) : Memory.wf (Memory.insert m a v) := by
  refine ⟨?_, fun c hc => ?_⟩
  · have hp := h.1
    clear h
    induction m with
    | nil => simp [Memory.insert]
    | cons d m ih =>
      have hd := List.pairwise_cons.1 hp
      simp only [Memory.insert]
      split
      · next hlt =>
        refine List.pairwise_cons.2 ⟨fun c hc => ?_, hp⟩
        rcases List.mem_cons.1 hc with rfl | hc
        · exact hlt
        · exact Nat.lt_trans hlt (hd.1 c hc)
      · next hlt =>
        refine List.pairwise_cons.2 ⟨fun c hc => ?_, ih (fun c hc => ha c (by simp [hc])) hd.2⟩
        rcases Memory.mem_insert hc with rfl | hc
        · have := ha d (by simp)
          simp only; omega
        · exact hd.1 c hc
  · rcases Memory.mem_insert hc with rfl | hc
    · exact hv
    · exact h.2 c hc

/-- Storing a byte keeps the canonical form. -/
theorem Memory.wf_write {m : Memory} (a : Nat) (v : Byte) (h : Memory.wf m) :
    Memory.wf (Memory.write m a v) := by
  unfold Memory.write
  split
  · exact Memory.wf_erase a h
  · next hv =>
    exact Memory.wf_insert (Memory.wf_erase a h) hv fun c hc => by
      simpa using (List.mem_filter.1 hc).2

/-- Storing a byte lists no address but its own. -/
theorem Memory.mem_write {m : Memory} {a : Nat} {v : Byte} {c : Host.Cell}
    (h : c ∈ Memory.write m a v) : c.1 = a ∨ c ∈ m := by
  unfold Memory.write at h
  split at h
  · exact .inr (List.mem_filter.1 h).1
  · rcases Memory.mem_insert h with rfl | h
    · exact .inl rfl
    · exact .inr (List.mem_filter.1 h).1

/-! ### Several bytes -/

theorem Memory.wf_writeAll {m : Memory} (cells : List Host.Cell) (h : Memory.wf m) :
    Memory.wf (Memory.writeAll m cells) := by
  induction cells generalizing m with
  | nil => exact h
  | cons c cells ih => exact ih (Memory.wf_write c.1 c.2 h)

theorem Memory.bounded_writeAll {m : Memory} {cells : List Host.Cell} {N : Nat}
    (hm : ∀ c ∈ m, c.1 < N) (hc : ∀ c ∈ cells, c.1 < N) :
    ∀ c ∈ Memory.writeAll m cells, c.1 < N := by
  induction cells generalizing m with
  | nil => exact hm
  | cons d cells ih =>
    refine ih (fun c h => ?_) fun c h => hc c (by simp [h])
    rcases Memory.mem_write h with h | h
    · exact h ▸ hc d (by simp)
    · exact hm c h

theorem Memory.read_writeAll_of_notMem {m : Memory} {cells : List Host.Cell} {b : Nat}
    (h : ∀ c ∈ cells, c.1 ≠ b) : Memory.read (Memory.writeAll m cells) b = Memory.read m b := by
  induction cells generalizing m with
  | nil => rfl
  | cons c cells ih =>
    have hb : b ≠ c.1 := Ne.symm (h c (by simp))
    simp only [Memory.writeAll, List.foldl_cons] at ih ⊢
    rw [ih fun d hd => h d (by simp [hd]), Memory.read_write, if_neg hb]

/-- Of cells with distinct addresses each address reads as its cell says. -/
theorem Memory.read_writeAll_of_mem {m : Memory} {cells : List Host.Cell} {c : Host.Cell}
    (hd : cells.Pairwise fun c d => c.1 ≠ d.1) (h : c ∈ cells) :
    Memory.read (Memory.writeAll m cells) c.1 = c.2 := by
  induction cells generalizing m with
  | nil => simp at h
  | cons d cells ih =>
    have hp := List.pairwise_cons.1 hd
    rcases List.mem_cons.1 h with rfl | h
    · have := Memory.read_writeAll_of_notMem (m := Memory.write m c.1 c.2) (b := c.1)
        fun e he => Ne.symm (hp.1 e he)
      simpa [Memory.writeAll, Memory.read_write] using this
    · exact ih (m := Memory.write m d.1 d.2) hp.2 h

theorem mem_storeCells {a : Nat} {n : Width} {v : Word} {c : Host.Cell} :
    c ∈ storeCells a n v ↔ ∃ k < n.bytes, c = (a + k, byteOf v k) := by
  simp [storeCells, eq_comm]

theorem storeCells_distinct (a : Nat) (n : Width) (v : Word) :
    (storeCells a n v).Pairwise fun c d => c.1 ≠ d.1 := by
  cases n <;> simp [storeCells, Width.bytes, List.range_succ]

/-- The bytes of a store (R66): byte k of the value at address + k. -/
theorem Memory.read_store (m : Memory) (a : Nat) (n : Width) (v : Word) {k : Nat} (hk : k < n.bytes) :
    Memory.read (Memory.writeAll m (storeCells a n v)) (a + k) = byteOf v k :=
  Memory.read_writeAll_of_mem (c := (a + k, byteOf v k)) (storeCells_distinct a n v)
    (mem_storeCells.2 ⟨k, hk, rfl⟩)

/-- A store leaves every byte outside its own unchanged. -/
theorem Memory.read_store_outside (m : Memory) (a : Nat) (n : Width) (v : Word) {b : Nat}
    (hb : b < a ∨ a + n.bytes ≤ b) :
    Memory.read (Memory.writeAll m (storeCells a n v)) b = Memory.read m b :=
  Memory.read_writeAll_of_notMem fun c hc => by
    obtain ⟨k, hk, rfl⟩ := mem_storeCells.1 hc
    simp only; omega

/-- A value is its bytes, one by one (R65). -/
theorem Memory.readValue_congr {m m' : Memory} {a a' : Nat} (n : Width)
    (h : ∀ k < n.bytes, Memory.read m (a + k) = Memory.read m' (a' + k)) :
    Memory.readValue m a n = Memory.readValue m' a' n := by
  cases n
  · have h0 := h 0 (by decide)
    simp only [Memory.readValue]; simp_all
  · have h0 := h 0 (by decide)
    have h1 := h 1 (by decide)
    simp only [Memory.readValue]; simp_all
  · have h0 := h 0 (by decide)
    have h1 := h 1 (by decide)
    have h2 := h 2 (by decide)
    have h3 := h 3 (by decide)
    simp only [Memory.readValue]; simp_all

theorem byteOf_append4 (w : Word) : byteOf w 3 ++ byteOf w 2 ++ byteOf w 1 ++ byteOf w 0 = w := by
  apply BitVec.eq_of_getLsbD_eq
  intro i hi
  simp only [byteOf, BitVec.getLsbD_append, BitVec.getLsbD_extractLsb']
  rcases Nat.lt_or_ge i 8 with h | h
  · simp [h]
  rcases Nat.lt_or_ge i 16 with h' | h'
  · simp [show ¬ i < 8 by omega, show i - 8 < 8 by omega, show 8 + (i - 8) = i by omega]
  rcases Nat.lt_or_ge i 24 with h'' | h''
  · simp [show ¬ i < 8 by omega, show ¬ i - 8 < 8 by omega, show i - 8 - 8 < 8 by omega,
      show 16 + (i - 8 - 8) = i by omega]
  · simp [show ¬ i < 8 by omega, show ¬ i - 8 < 8 by omega, show ¬ i - 8 - 8 < 8 by omega,
      show i - 8 - 8 - 8 < 8 by omega, show 24 + (i - 8 - 8 - 8) = i by omega]

/-- A word stored reads back whole (R69). -/
theorem Memory.readValue_store_word (m : Memory) (a : Nat) (v : Word) :
    Memory.readValue (Memory.writeAll m (storeCells a .word v)) a .word = v := by
  have h := fun k hk => Memory.read_store m a .word v (k := k) hk
  have h0 := h 0 (by decide)
  have h1 := h 1 (by decide)
  have h2 := h 2 (by decide)
  have h3 := h 3 (by decide)
  simp only [Nat.add_zero] at h0
  simp only [Memory.readValue, h0, h1, h2, h3, byteOf_append4]

end Sys2Proof.Machine
end

