-- ==== Sys2Proof/Laws/Registers.lean ====
section
/-! SUPPORT. The register file: what a read answers after a write through the lock (10_state.md R32
to R34). -/

namespace Sys2Proof.Machine

@[simp] theorem State.readReg_zero (s : State) : s.readReg 0 = 0#32 := rfl

@[simp] theorem State.isLocked_zero (s : State) : s.isLocked 0 = true := rfl

theorem State.readReg_of_ne (s : State) {i : Reg} (h : i ≠ 0) : s.readReg i = s.rfValue[i.val] := by
  simp [State.readReg, h]

theorem State.isLocked_of_ne (s : State) {i : Reg} (h : i ≠ 0) : s.isLocked i = s.rfLocked[i.val] := by
  simp [State.isLocked, h]

theorem State.writeReg_of_locked {s : State} {i : Reg} (h : s.isLocked i = true) (v : Word) :
    s.writeReg i v = s := by
  simp [State.writeReg, h]

theorem State.writeReg_of_unlocked {s : State} {i : Reg} (h : s.isLocked i = false) (v : Word) :
    s.writeReg i v = s.setReg i v := by
  simp [State.writeReg, h]

/-- Register 0 discards every write (R32). -/
@[simp] theorem State.writeReg_zero (s : State) (v : Word) : s.writeReg 0 v = s :=
  State.writeReg_of_locked s.isLocked_zero v

theorem State.readReg_setReg (s : State) (i j : Reg) (v : Word) :
    (s.setReg i v).readReg j = if j = 0 then 0#32 else if j = i then v else s.readReg j := by
  by_cases hj : j = 0
  · simp [State.readReg, hj]
  · by_cases hij : j = i
    · subst hij; simp [State.readReg, hj]
    · have : i.val ≠ j.val := fun h => hij (Fin.ext h.symm)
      simp [State.readReg, hj, hij, this]

/-- R34: the written register holds the value unless it is locked, every other is unchanged. -/
theorem State.readReg_writeReg (s : State) (i j : Reg) (v : Word) :
    (s.writeReg i v).readReg j = if j = i ∧ s.isLocked i = false then v else s.readReg j := by
  by_cases hl : s.isLocked i
  · simp [State.writeReg_of_locked hl, hl]
  · have hl' : s.isLocked i = false := by simpa using hl
    have hi : i ≠ 0 := by rintro rfl; simp at hl'
    rw [State.writeReg_of_unlocked hl', State.readReg_setReg]
    by_cases hji : j = i
    · subst hji; simp [hi, hl']
    · by_cases hj : j = 0
      · subst hj; simp [Ne.symm hi, hl']
      · simp [hji, hj]

theorem State.readReg_writeReg_ne (s : State) {i j : Reg} (h : j ≠ i) (v : Word) :
    (s.writeReg i v).readReg j = s.readReg j := by
  simp [State.readReg_writeReg, h]

theorem State.readReg_writeReg_self (s : State) (i : Reg) (v : Word) :
    (s.writeReg i v).readReg i = if s.isLocked i then s.readReg i else v := by
  rw [State.readReg_writeReg]; cases s.isLocked i <;> simp

end Sys2Proof.Machine
end

