-- ==== Sys2Proof/Laws/Exec.lean ====
section
/-! SUPPORT. One lemma per shared operation: everything the way an instruction ends can do. Proofs
about instructions cite these and never unfold the operations. -/

namespace Sys2Proof.Machine

open Sys2Proof.Safety

/-! ### States that agree -/

theorem SameRegisters.refl (s : State) : SameRegisters s s := ⟨fun _ => rfl, fun _ => rfl⟩

theorem SameRegisters.of_eq {s t : State} (hv : t.rfValue = s.rfValue) (hl : t.rfLocked = s.rfLocked) :
    SameRegisters s t :=
  ⟨fun r => by simp [State.readReg, hv], fun r => by simp [State.isLocked, hl]⟩

theorem SameMemory.of_eq {s t : State} (h : t.dmem = s.dmem) : SameMemory s t := fun a => by
  simp [State.readByte, h]

theorem SameRunStatus.refl (s : State) : SameRunStatus s s := ⟨rfl, rfl, rfl, rfl, rfl⟩

/-! ### Writing a register through its lock -/

theorem State.writeReg_cases (s : State) (rd : Reg) (v : Word) :
    (s.isLocked rd = true ∧ s.writeReg rd v = s) ∨
    (s.isLocked rd = false ∧ s.writeReg rd v = s.setReg rd v) := by
  cases h : s.isLocked rd
  · exact .inr ⟨rfl, State.writeReg_of_unlocked h v⟩
  · exact .inl ⟨rfl, State.writeReg_of_locked h v⟩

/-- What every ending through the lock check does: the frame of R34. -/
theorem wrote_writeReg_setPc (s : State) (rd : Reg) (v p : Word) :
    Wrote s ((s.writeReg rd v).setPc p) rd v p := by
  have hr : ∀ r, ((s.writeReg rd v).setPc p).readReg r = (s.writeReg rd v).readReg r := fun _ => rfl
  have hl : ∀ r, ((s.writeReg rd v).setPc p).isLocked r = (s.writeReg rd v).isLocked r := fun _ => rfl
  rcases State.writeReg_cases s rd v with ⟨hlk, h⟩ | ⟨hlk, h⟩
  · rw [h] at hr hl ⊢
    exact ⟨by simp [hr, hlk], fun r _ => hr r, hl, rfl, fun _ => rfl, ⟨rfl, rfl, rfl, rfl, rfl⟩, rfl, rfl⟩
  · refine ⟨?_, fun r hne => ?_, fun r => ?_, rfl, ?_, ⟨?_, ?_, ?_, ?_, ?_⟩, ?_, ?_⟩
    · rw [hr, State.readReg_writeReg_self]
    · rw [hr, State.readReg_writeReg_ne s hne]
    all_goals rw [h]; try rfl
    intro a; rfl

/-- The end of an R, I, L or U instruction. -/
theorem writeResult_spec (rd : Reg) (v : Word) (s : State) :
    ∃ t, writeResult rd v s = .next t ∧ Wrote s t rd v (s.pc + 4#32) :=
  ⟨_, rfl, by
    have := wrote_writeReg_setPc s rd v (s.pc + 4#32)
    rwa [← State.writeReg_pc s rd v] at this ⊢⟩

/-- The end of a branch. -/
theorem branchOn_spec (cond : Bool) (imm : Word) (s : State) :
    ∃ t, branchOn cond imm s = .next t ∧ Branched s t (if cond then s.pc + imm else s.pc + 4#32) := by
  refine ⟨_, rfl, ?_⟩
  cases cond <;>
    exact ⟨⟨fun _ => rfl, fun _ => rfl⟩, rfl, fun _ => rfl, ⟨rfl, rfl, rfl, rfl, rfl⟩, rfl, rfl⟩

/-- The end of a jump. -/
theorem jumpAndLink_spec (rd : Reg) (target : Word) (s : State) :
    ∃ t, jumpAndLink rd target s = .next t ∧ Wrote s t rd (s.pc + 4#32) target :=
  ⟨_, rfl, wrote_writeReg_setPc s rd _ target⟩

theorem jumpAndLink_locked {rd : Reg} {s : State} (h : s.isLocked rd = true) (target : Word) :
    jumpAndLink rd target s = .next (s.setPc target) := by
  simp [jumpAndLink, State.writeReg_of_locked h]

/-! ### Halting -/

/-- A halt writes the run status and nothing else (R253). -/
theorem haltWith_spec (s : State) (cause : HaltCause) (word addr : Word) :
    HaltedWith s (s.haltWith cause word addr) cause word addr :=
  ⟨rfl, rfl, rfl, rfl, rfl, ⟨fun _ => rfl, fun _ => rfl⟩, rfl, fun _ => rfl, rfl, rfl⟩

/-! ### Loads and stores -/

theorem State.inBounds_iff (s : State) (addr : Word) (n : Width) :
    s.inBounds addr n = true ↔ addr.toNat + n.bytes ≤ s.cfg.dmemSize := by
  simp [State.inBounds]

theorem State.memRead_of_inBounds {s : State} {addr : Word} {n : Width}
    (h : addr.toNat + n.bytes ≤ s.cfg.dmemSize) :
    s.memRead addr n = some (Memory.readValue s.dmem addr.toNat n) := by
  simp [State.memRead, (s.inBounds_iff addr n).2 h]

theorem State.memRead_eq_none_iff {s : State} {addr : Word} {n : Width} :
    s.memRead addr n = none ↔ s.cfg.dmemSize < addr.toNat + n.bytes := by
  simp [State.memRead, State.inBounds]

theorem State.memWrite_of_inBounds {s : State} {addr : Word} {n : Width} (v : Word)
    (h : addr.toNat + n.bytes ≤ s.cfg.dmemSize) :
    s.memWrite addr n v = some (s.setDmem (Memory.writeAll s.dmem (storeCells addr.toNat n v))) := by
  simp [State.memWrite, (s.inBounds_iff addr n).2 h]

theorem State.memWrite_eq_none_iff {s : State} {addr v : Word} {n : Width} :
    s.memWrite addr n v = none ↔ s.cfg.dmemSize < addr.toNat + n.bytes := by
  simp [State.memWrite, State.inBounds]

/-- `MemWrite` keeps the canonical form and lists no address outside DataMemory. -/
theorem State.memWrite_keeps {s t : State} {addr v : Word} {n : Width} (h : s.memWrite addr n v = some t)
    (hw : Memory.wf s.dmem) (hb : ∀ c ∈ s.dmem, c.1 < s.cfg.dmemSize) :
    Memory.wf t.dmem ∧ ∀ c ∈ t.dmem, c.1 < t.cfg.dmemSize := by
  rcases Nat.lt_or_ge s.cfg.dmemSize (addr.toNat + n.bytes) with hlt | hle
  · rw [State.memWrite_eq_none_iff.2 hlt] at h
    cases h
  · rw [State.memWrite_of_inBounds v hle] at h
    cases h
    refine ⟨Memory.wf_writeAll _ hw, Memory.bounded_writeAll hb fun c hc => ?_⟩
    obtain ⟨k, hk, rfl⟩ := mem_storeCells.1 hc
    exact Nat.lt_of_lt_of_le (Nat.add_lt_add_left hk _) hle

/-- An in-bounds `MemWrite` followed by the advance of the pc has the frame of a store. -/
theorem stored_setDmem (s : State) (a : Nat) (n : Width) (v : Word) :
    Stored s ((s.setDmem (Memory.writeAll s.dmem (storeCells a n v))).setPc (s.pc + 4#32)) a n v :=
  ⟨fun _ hk => Memory.read_store s.dmem a n v hk, fun _ hb => Memory.read_store_outside s.dmem a n v hb,
    ⟨fun _ => rfl, fun _ => rfl⟩, rfl, ⟨rfl, rfl, rfl, rfl, rfl⟩, rfl, rfl⟩

/-- A store in bounds. -/
theorem storeValue_spec {n : Width} {rs1 rs2 : Reg} {imm : Word} {s : State} (w : Word)
    (h : (s.effAddr rs1 imm).toNat + n.bytes ≤ s.cfg.dmemSize) :
    ∃ t, storeValue w n rs1 rs2 imm s = .next t ∧
      Stored s t (s.effAddr rs1 imm).toNat n (s.readReg rs2) := by
  refine ⟨_, ?_, stored_setDmem s _ n _⟩
  simp only [storeValue, State.memWrite_of_inBounds _ h]; rfl

/-- A store out of bounds. -/
theorem storeValue_outOfBounds {n : Width} {rs1 rs2 : Reg} {imm : Word} {s : State} (w : Word)
    (h : s.cfg.dmemSize < (s.effAddr rs1 imm).toNat + n.bytes) :
    storeValue w n rs1 rs2 imm s = .next (s.haltWith .memoryBoundsFault w (s.effAddr rs1 imm)) := by
  simp only [storeValue, State.memWrite_eq_none_iff.2 h]

/-- A load in bounds. -/
theorem loadValue_spec {n : Width} {rd rs1 : Reg} {imm : Word} {s : State} (w : Word) (e : Extend)
    (h : (s.effAddr rs1 imm).toNat + n.bytes ≤ s.cfg.dmemSize) :
    ∃ t, loadValue w n e rd rs1 imm s = .next t ∧
      Wrote s t rd (extendLoaded e n (Memory.readValue s.dmem (s.effAddr rs1 imm).toNat n)) (s.pc + 4#32) := by
  simp only [loadValue, State.memRead_of_inBounds h]
  exact writeResult_spec _ _ _

/-- A load out of bounds. -/
theorem loadValue_outOfBounds {n : Width} {rd rs1 : Reg} {imm : Word} {s : State} (w : Word) (e : Extend)
    (h : s.cfg.dmemSize < (s.effAddr rs1 imm).toNat + n.bytes) :
    loadValue w n e rd rs1 imm s = .next (s.haltWith .memoryBoundsFault w (s.effAddr rs1 imm)) := by
  simp only [loadValue, State.memRead_eq_none_iff.2 h]

/-! ### Accesses -/

/-- `storeOf` names exactly the stores. -/
theorem storeOf_eq_some {i : Instr} {n : Width} {rs1 rs2 : Reg} {imm : Word} :
    storeOf i = some (n, rs1, rs2, imm) ↔ Stores i n rs1 rs2 imm := by
  cases n <;> cases i <;> simp [storeOf, Stores]

theorem destOf_of_stores {i : Instr} {n : Width} {rs1 rs2 : Reg} {imm : Word} (h : Stores i n rs1 rs2 imm) :
    destOf i = none := by
  cases n <;> cases h <;> rfl

theorem storeOf_of_loads {i : Instr} {n : Width} {rd rs1 : Reg} {imm : Word} (h : Loads i n rd rs1 imm) :
    storeOf i = none := by
  cases n
  · rcases h with h | h <;> subst h <;> rfl
  · rcases h with h | h <;> subst h <;> rfl
  · cases h; rfl

/-! ### Everything an instruction can do -/

/-- The inversion of `exec`: every instruction ends in one of six ways. -/
inductive Ending (i : Instr) (s : State) : State → Prop where
  | wrote (rd : Reg) (v : Word) (hd : destOf i = some rd) (hs : storeOf i = none) :
      Ending i s ((s.writeReg rd v).setPc (s.pc + 4#32))
  | branched (p : Word) (hp : p = s.pc + 4#32 ∨ ∃ rs1 rs2 imm, p = s.pc + imm ∧
        i ∈ [.beq rs1 rs2 imm, .bne rs1 rs2 imm, .blt rs1 rs2 imm, .bge rs1 rs2 imm,
          .bltu rs1 rs2 imm, .bgeu rs1 rs2 imm])
      (hd : destOf i = none) (hs : storeOf i = none) : Ending i s (s.setPc p)
  | jumped (rd : Reg) (p : Word) (hd : destOf i = some rd) (hs : storeOf i = none)
      (hp : (∃ imm, i = .jal rd imm ∧ p = s.pc + imm) ∨
        ∃ rs1 imm f3, i = .jalr rd rs1 imm f3 ∧ p = (s.readReg rs1 + imm) &&& 0xFFFFFFFE#32) :
      Ending i s ((s.writeReg rd (s.pc + 4#32)).setPc p)
  | stored (n : Width) (rs1 rs2 : Reg) (imm : Word) (hs : storeOf i = some (n, rs1, rs2, imm))
      (hd : destOf i = none) (hb : (s.effAddr rs1 imm).toNat + n.bytes ≤ s.cfg.dmemSize) :
      Ending i s ((s.setDmem (Memory.writeAll s.dmem
        (storeCells (s.effAddr rs1 imm).toNat n (s.readReg rs2)))).setPc (s.pc + 4#32))
  | outOfBounds (n : Width) (rs1 : Reg) (imm : Word) (ha : Accesses i n rs1 imm)
      (hb : s.cfg.dmemSize < (s.effAddr rs1 imm).toNat + n.bytes) :
      Ending i s (s.haltWith .memoryBoundsFault (encode i) (s.effAddr rs1 imm))
  | ecall (rest : BitVec 25) (hi : i = .ecall rest) :
      Ending i s (s.haltWith .ecallHalt (encode i) 0#32)

theorem writeResult_eq (rd : Reg) (v : Word) (s : State) :
    writeResult rd v s = .next ((s.writeReg rd v).setPc (s.pc + 4#32)) := by
  simp only [writeResult, State.advancePc, State.writeReg_pc]

theorem branchOn_eq (cond : Bool) (imm : Word) (s : State) :
    branchOn cond imm s = .next (s.setPc (if cond then s.pc + imm else s.pc + 4#32)) := by
  cases cond <;> rfl

/-- A load in bounds, as an equation. -/
theorem loadValue_cases (w : Word) (n : Width) (e : Extend) (rd rs1 : Reg) (imm : Word) (s : State) :
    (∃ v, loadValue w n e rd rs1 imm s = .next ((s.writeReg rd v).setPc (s.pc + 4#32))) ∨
    (s.cfg.dmemSize < (s.effAddr rs1 imm).toNat + n.bytes ∧
      loadValue w n e rd rs1 imm s = .next (s.haltWith .memoryBoundsFault w (s.effAddr rs1 imm))) := by
  rcases Nat.lt_or_ge s.cfg.dmemSize ((s.effAddr rs1 imm).toNat + n.bytes) with h | h
  · exact .inr ⟨h, loadValue_outOfBounds w e h⟩
  · refine .inl ⟨extendLoaded e n (Memory.readValue s.dmem (s.effAddr rs1 imm).toNat n), ?_⟩
    simp only [loadValue, State.memRead_of_inBounds h]
    exact writeResult_eq _ _ _

theorem storeValue_cases (w : Word) (n : Width) (rs1 rs2 : Reg) (imm : Word) (s : State) :
    ((s.effAddr rs1 imm).toNat + n.bytes ≤ s.cfg.dmemSize ∧
      storeValue w n rs1 rs2 imm s = .next ((s.setDmem (Memory.writeAll s.dmem
        (storeCells (s.effAddr rs1 imm).toNat n (s.readReg rs2)))).setPc (s.pc + 4#32))) ∨
    (s.cfg.dmemSize < (s.effAddr rs1 imm).toNat + n.bytes ∧
      storeValue w n rs1 rs2 imm s = .next (s.haltWith .memoryBoundsFault w (s.effAddr rs1 imm))) := by
  rcases Nat.lt_or_ge s.cfg.dmemSize ((s.effAddr rs1 imm).toNat + n.bytes) with h | h
  · exact .inr ⟨h, storeValue_outOfBounds w h⟩
  · refine .inl ⟨h, ?_⟩
    simp only [storeValue, State.memWrite_of_inBounds _ h]; rfl

theorem Ending.ofWrite {i : Instr} {s : State} {rd : Reg} {v : Word} {r : Result}
    (h : r = writeResult rd v s) (hd : destOf i = some rd) (hs : storeOf i = none) :
    ∃ t, r = .next t ∧ Ending i s t :=
  ⟨_, h.trans (writeResult_eq rd v s), .wrote rd v hd hs⟩

theorem Ending.ofBranch {i : Instr} {s : State} {c : Bool} {rs1 rs2 : Reg} {imm : Word} {r : Result}
    (h : r = branchOn c imm s)
    (hi : i ∈ [Instr.beq rs1 rs2 imm, .bne rs1 rs2 imm, .blt rs1 rs2 imm, .bge rs1 rs2 imm,
      .bltu rs1 rs2 imm, .bgeu rs1 rs2 imm])
    (hd : destOf i = none) (hs : storeOf i = none) : ∃ t, r = .next t ∧ Ending i s t := by
  refine ⟨_, h.trans (branchOn_eq c imm s), .branched _ ?_ hd hs⟩
  cases c
  · exact .inl rfl
  · exact .inr ⟨rs1, rs2, imm, rfl, hi⟩

theorem Ending.ofLoad {i : Instr} {s : State} {n : Width} {e : Extend} {rd rs1 : Reg} {imm : Word} {r : Result}
    (h : r = loadValue (encode i) n e rd rs1 imm s) (ha : Loads i n rd rs1 imm) (hd : destOf i = some rd)
    (hs : storeOf i = none) : ∃ t, r = .next t ∧ Ending i s t := by
  rcases loadValue_cases (encode i) n e rd rs1 imm s with ⟨v, hv⟩ | ⟨hb, hv⟩
  · exact ⟨_, h.trans hv, .wrote rd v hd hs⟩
  · exact ⟨_, h.trans hv, .outOfBounds n rs1 imm (.inr ⟨rd, ha⟩) hb⟩

theorem Ending.ofStore {i : Instr} {s : State} {n : Width} {rs1 rs2 : Reg} {imm : Word} {r : Result}
    (h : r = storeValue (encode i) n rs1 rs2 imm s) (ha : Stores i n rs1 rs2 imm) :
    ∃ t, r = .next t ∧ Ending i s t := by
  rcases storeValue_cases (encode i) n rs1 rs2 imm s with ⟨hb, hv⟩ | ⟨hb, hv⟩
  · exact ⟨_, h.trans hv, .stored n rs1 rs2 imm (storeOf_eq_some.2 ha) (destOf_of_stores ha) hb⟩
  · exact ⟨_, h.trans hv, .outOfBounds n rs1 imm (.inl ⟨rs2, ha⟩) hb⟩

/-- Every instruction answers a next state, by one of the endings. -/
theorem exec_ending (i : Instr) (s : State) : ∃ t, exec i s = .next t ∧ Ending i s t := by
  cases i with
  | sb _ _ _ => exact Ending.ofStore (n := .byte) rfl rfl
  | sh _ _ _ => exact Ending.ofStore (n := .half) rfl rfl
  | sw _ _ _ => exact Ending.ofStore (n := .word) rfl rfl
  | lb _ _ _ => exact Ending.ofLoad rfl (.inl rfl) rfl rfl
  | lh _ _ _ => exact Ending.ofLoad rfl (.inl rfl) rfl rfl
  | lw _ _ _ => exact Ending.ofLoad (n := .word) rfl rfl rfl rfl
  | lbu _ _ _ => exact Ending.ofLoad rfl (.inr rfl) rfl rfl
  | lhu _ _ _ => exact Ending.ofLoad rfl (.inr rfl) rfl rfl
  | beq rs1 rs2 _ => exact Ending.ofBranch (rs1 := rs1) (rs2 := rs2) rfl (by simp) rfl rfl
  | bne rs1 rs2 _ => exact Ending.ofBranch (rs1 := rs1) (rs2 := rs2) rfl (by simp) rfl rfl
  | blt rs1 rs2 _ => exact Ending.ofBranch (rs1 := rs1) (rs2 := rs2) rfl (by simp) rfl rfl
  | bge rs1 rs2 _ => exact Ending.ofBranch (rs1 := rs1) (rs2 := rs2) rfl (by simp) rfl rfl
  | bltu rs1 rs2 _ => exact Ending.ofBranch (rs1 := rs1) (rs2 := rs2) rfl (by simp) rfl rfl
  | bgeu rs1 rs2 _ => exact Ending.ofBranch (rs1 := rs1) (rs2 := rs2) rfl (by simp) rfl rfl
  | jal rd imm => exact ⟨_, rfl, .jumped rd _ rfl rfl (.inl ⟨imm, rfl, rfl⟩)⟩
  | jalr rd rs1 imm f3 => exact ⟨_, rfl, .jumped rd _ rfl rfl (.inr ⟨rs1, imm, f3, rfl, rfl⟩)⟩
  | ecall rest => exact ⟨_, rfl, .ecall rest rfl⟩
  | _ => exact Ending.ofWrite rfl rfl rfl

theorem ending_of_exec {i : Instr} {s t : State} (h : exec i s = .next t) : Ending i s t := by
  obtain ⟨u, hu, he⟩ := exec_ending i s
  rw [hu] at h
  cases h
  exact he

end Sys2Proof.Machine
end

