-- ==== Sys2Proof/Laws/Values.lean ====
section
/-! SUPPORT. The values instructions compute, as integers: shifts as products and quotients, compares
as 0 or 1, and the bytes a load puts together (00_scope.md R21, 20_memory.md R65). -/

namespace Sys2Proof.Machine

/-! ### Shifts and compares -/

theorem shiftAmount_eq (v : Word) : shiftAmount v = v.toNat % 32 := by
  rw [shiftAmount, BitVec.toNat_and, show (0x1F#32).toNat = 2 ^ 5 - 1 by decide, Nat.and_two_pow_sub_one_eq_mod]

theorem toNat_shiftLeft (a : Word) (n : Nat) : (shiftLeft a n).toNat = a.toNat * 2 ^ n % 2 ^ 32 := by
  simp [shiftLeft, Nat.shiftLeft_eq]

theorem toNat_shiftRightLogical (a : Word) (n : Nat) : (shiftRightLogical a n).toNat = a.toNat / 2 ^ n := by
  simp [shiftRightLogical, Nat.shiftRight_eq_div_pow]

/-- `a >>s n` is the floor of s(a) / 2^n. -/
theorem toInt_shiftRightArith (a : Word) (n : Nat) :
    (shiftRightArith a n).toInt = Int.fdiv a.toInt (2 ^ n) := by
  rw [shiftRightArith, BitVec.toInt_sshiftRight, Int.shiftRight_eq_div_pow,
    Int.fdiv_eq_ediv_of_nonneg _ (by positivity)]
  norm_cast

theorem boolWord_decide (p : Prop) [Decidable p] : boolWord (decide p) = if p then 1#32 else 0#32 := by
  simp [boolWord]

/-! ### The bytes of a value -/

theorem toNat_append_byte {n : Nat} (x : BitVec n) (y : Byte) : (x ++ y).toNat = x.toNat * 256 + y.toNat := by
  have := Nat.two_pow_add_eq_or_of_lt y.isLt x.toNat
  rw [BitVec.toNat_append, Nat.shiftLeft_eq, Nat.mul_comm, ← this]

theorem Memory.readValue_byte (m : Memory) (a : Nat) :
    Memory.readValue m a .byte = (Memory.read m a).setWidth 32 := rfl

theorem Memory.readValue_half (m : Memory) (a : Nat) :
    Memory.readValue m a .half = (Memory.read m (a + 1) ++ Memory.read m a).setWidth 32 := rfl

/-- The word read is the word of its four bytes. -/
theorem Memory.readValue_word (m : Memory) (a : Nat) :
    Memory.readValue m a .word =
      wordOfBytes (Memory.read m a) (Memory.read m (a + 1)) (Memory.read m (a + 2)) (Memory.read m (a + 3)) := rfl

theorem toNat_append4 (b3 b2 b1 b0 : Byte) :
    (b3 ++ b2 ++ b1 ++ b0).toNat = ((b3.toNat * 256 + b2.toNat) * 256 + b1.toNat) * 256 + b0.toNat := by
  rw [toNat_append_byte, toNat_append_byte, toNat_append_byte]

theorem toNat_wordOfBytes (b0 b1 b2 b3 : Byte) :
    (wordOfBytes b0 b1 b2 b3).toNat =
      ((b3.toNat * 256 + b2.toNat) * 256 + b1.toNat) * 256 + b0.toNat := by
  unfold wordOfBytes
  exact toNat_append4 b3 b2 b1 b0

/-- Byte k of the word of four bytes. -/
theorem byteOf_wordOfBytes (b0 b1 b2 b3 : Byte) :
    byteOf (wordOfBytes b0 b1 b2 b3) 0 = b0 ∧ byteOf (wordOfBytes b0 b1 b2 b3) 1 = b1 ∧
    byteOf (wordOfBytes b0 b1 b2 b3) 2 = b2 ∧ byteOf (wordOfBytes b0 b1 b2 b3) 3 = b3 := by
  refine ⟨?_, ?_, ?_, ?_⟩ <;> unfold byteOf wordOfBytes <;> apply BitVec.eq_of_getLsbD_eq <;> intro i hi <;>
    interval_cases i <;> simp only [BitVec.getLsbD_extractLsb', BitVec.getLsbD_append] <;> simp

/-- Two neighbouring bytes of a word are its 16 bits. -/
theorem byteOf_append (x : Word) (k : Nat) : byteOf x (k + 1) ++ byteOf x k = x.extractLsb' (8 * k) 16 := by
  apply BitVec.eq_of_getLsbD_eq
  intro i hi
  simp only [byteOf, BitVec.getLsbD_extractLsb', BitVec.getLsbD_append]
  split
  · simp [*]
  · simp only [show i - 8 < 8 by omega, hi]
    congr 2
    omega

/-- An address that does not wrap. -/
theorem toNat_add_ofNat {a : Word} {k : Nat} (h : a.toNat + k < 2 ^ 32) :
    (a + BitVec.ofNat 32 k).toNat = a.toNat + k := by
  rw [BitVec.toNat_add, BitVec.toNat_ofNat]; omega

end Sys2Proof.Machine
end

