-- ==== Sys2Proof/Laws/Cycle.lean ====
section
/-! SUPPORT. Everything a cycle can do (10_state.md R55), and the opcodes of each format
(30_encoding.md R91). -/

namespace Sys2Proof.Machine

open Sys2Proof.Safety

/-! ### The step limit -/

theorem State.stepLimitReached_eq_true {s : State} :
    s.stepLimitReached = true ↔ ∃ n, s.cfg.maxSteps = some n ∧ n ≤ s.steps := by
  unfold State.stepLimitReached
  cases s.cfg.maxSteps <;> simp

theorem State.stepLimitReached_eq_false {s : State} :
    s.stepLimitReached = false ↔ ∀ n, s.cfg.maxSteps = some n → s.steps < n := by
  unfold State.stepLimitReached
  cases s.cfg.maxSteps <;> simp

/-! ### The fetch (20_memory.md R70) -/

theorem State.fetch_eq_none_iff {s : State} : s.fetch = none ↔ s.cfg.imageSize < s.pc.toNat + 4 := by
  simp [State.fetch]

/-- The word fetched is the word of the four image bytes at pc. -/
theorem State.fetch_eq_some {s : State} {w : Word} (h : s.fetch = some w) :
    s.pc.toNat + 4 ≤ s.cfg.imageSize ∧
    w = wordOfBytes (s.cfg.image.getD s.pc.toNat 0#8) (s.cfg.image.getD (s.pc.toNat + 1) 0#8)
      (s.cfg.image.getD (s.pc.toNat + 2) 0#8) (s.cfg.image.getD (s.pc.toNat + 3) 0#8) := by
  unfold State.fetch at h
  simp only at h
  split at h
  · cases h
  · next hlt => exact ⟨by omega, (Option.some.inj h).symm⟩

theorem State.fetch_of_le {s : State} (h : s.pc.toNat + 4 ≤ s.cfg.imageSize) :
    ∃ w, s.fetch = some w := by
  cases hf : s.fetch with
  | none => have := State.fetch_eq_none_iff.1 hf; omega
  | some w => exact ⟨w, rfl⟩

/-! ### Everything a cycle can do -/

/-- The inversion of `cycle`: the five ways a cycle ends. -/
inductive CycleEnding (fetched : Option Word) (s : State) : State → Prop where
  | idle (hh : s.halted = true) : CycleEnding fetched s s
  | limit (hh : s.halted = false) (hl : s.stepLimitReached = true) :
      CycleEnding fetched s (s.haltWith .stepLimit 0#32 0#32)
  | stream (hh : s.halted = false) (hl : s.stepLimitReached = false) (hf : fetched = none) :
      CycleEnding fetched s (s.haltWith .endOfStream 0#32 0#32)
  | undecodable (w : Word) (e : DecodeReject) (hh : s.halted = false) (hl : s.stepLimitReached = false)
      (hf : fetched = some w) (hd : decode w = .error e) : CycleEnding fetched s (s.decodeFault w)
  | ran (w : Word) (i : Instr) (u : State) (hh : s.halted = false) (hl : s.stepLimitReached = false)
      (hf : fetched = some w) (hd : decode w = .ok i) (he : Ending i s u) (hx : exec i s = .next u) :
      CycleEnding fetched s (if u.halted then u else u.countStep)

theorem cycle_ending (fetched : Option Word) (s : State) :
    ∃ t, cycle fetched s = .next t ∧ CycleEnding fetched s t := by
  cases hh : s.halted
  · cases hl : s.stepLimitReached
    · cases hf : fetched with
      | none => exact ⟨_, by simp [cycle, hh, hl], .stream hh hl rfl⟩
      | some w =>
        cases hd : decode w with
        | error e => exact ⟨_, by simp [cycle, hh, hl, runWord, hd], .undecodable w e hh hl rfl hd⟩
        | ok i =>
          obtain ⟨u, hu, he⟩ := exec_ending i s
          exact ⟨_, by simp [cycle, hh, hl, runWord, hd, hu, finishCycle], .ran w i u hh hl rfl hd he hu⟩
    · exact ⟨_, by simp [cycle, hh, hl], .limit hh hl⟩
  · exact ⟨s, by simp [cycle, hh], .idle hh⟩

theorem ending_of_cycle {fetched : Option Word} {s t : State} (h : cycle fetched s = .next t) :
    CycleEnding fetched s t := by
  obtain ⟨u, hu, he⟩ := cycle_ending fetched s
  rw [hu] at h
  cases h
  exact he

theorem ending_of_step {s t : State} (h : step s = .next t) : CycleEnding s.fetch s t := ending_of_cycle h

/-- A cycle that fetched a word runs it. -/
theorem step_of_fetches {s : State} {w : Word} (h : Fetches s w) : step s = runWord w s := by
  have hl := State.stepLimitReached_eq_false.2 h.belowLimit
  simp [step, cycle, h.running, hl, h.fetched]

theorem runWord_ok {s u : State} {w : Word} {i : Instr} (hd : decode w = .ok i) (hx : exec i s = .next u) :
    runWord w s = .next (if u.halted then u else u.countStep) := by
  simp [runWord, hd, hx, finishCycle]

theorem runWord_error {s : State} {w : Word} {e : DecodeReject} (hd : decode w = .error e) :
    runWord w s = .next (s.decodeFault w) := by
  simp [runWord, hd]

/-! ### The format of an opcode -/

/-- R91, read backwards. -/
theorem formatOf_cases (op : BitVec 7) :
    (formatOf op = some .r ↔ op = 0x33#7) ∧ (formatOf op = some .i ↔ op = 0x13#7) ∧
    (formatOf op = some .s ↔ op = 0x23#7) ∧ (formatOf op = some .l ↔ op = 0x03#7) ∧
    (formatOf op = some .u ↔ op = 0x37#7 ∨ op = 0x17#7) ∧ (formatOf op = some .b ↔ op = 0x63#7) ∧
    (formatOf op = some .j ↔ op = 0x6F#7) ∧ (formatOf op = some .jalr ↔ op = 0x67#7) ∧
    (formatOf op = some .sys ↔ op = 0x73#7) := by
  revert op; decide

end Sys2Proof.Machine
end

