-- ==== Sys2Proof/Laws/Encoding.lean ====
section
/-! SUPPORT. The layouts of 30_encoding.md R93 to R99 field by field: what the Decoder's fields are of
an assembled word, that an assembled immediate is the immediate when it fits its format, that the
fields of a word assemble to the word, and the mask conditions of R118 in terms of the fields. -/

namespace Sys2Proof

/-! ### Slices of a concatenation -/

theorem extract_append_low {v w : Nat} (x : BitVec v) (y : BitVec w) {st len : Nat} (h : st + len ≤ w) :
    (x ++ y).extractLsb' st len = y.extractLsb' st len := by
  apply BitVec.eq_of_getLsbD_eq
  intro i hi
  simp only [BitVec.getLsbD_extractLsb', BitVec.getLsbD_append, show st + i < w by omega, if_true]

theorem extract_append_high {v w : Nat} (x : BitVec v) (y : BitVec w) {st len : Nat} (h : w ≤ st) :
    (x ++ y).extractLsb' st len = x.extractLsb' (st - w) len := by
  apply BitVec.eq_of_getLsbD_eq
  intro i hi
  simp only [BitVec.getLsbD_extractLsb', BitVec.getLsbD_append, show ¬ st + i < w by omega, if_false,
    show st + i - w = st - w + i by omega]

@[simp] theorem regOfBits_regBits (r : Reg) : regOfBits (regBits r) = r := rfl

@[simp] theorem regBits_regOfBits (b : BitVec 5) : regBits (regOfBits b) = b := rfl

theorem regOfBits_of_eq {b : BitVec 5} {r : Reg} (h : b = regBits r) : regOfBits b = r := by
  rw [h, regOfBits_regBits]

/-! ### Fields of an assembled word -/

section
variable (f7 : BitVec 7) (rs2 rs1 rd : Reg) (f3 : BitVec 3) (op : BitVec 7) (imm : Word) (rest : BitVec 25)

@[simp] theorem opcode_packR : opcode (packR f7 rs2 rs1 f3 rd op) = op :=
  (extract_append_low _ _ (by decide)).trans BitVec.extractLsb'_eq_self
@[simp] theorem rdField_packR : rdField (packR f7 rs2 rs1 f3 rd op) = rd :=
  regOfBits_of_eq (((extract_append_high _ _ (by decide)).trans (extract_append_low _ _ (by decide))).trans BitVec.extractLsb'_eq_self)
@[simp] theorem funct3_packR : funct3 (packR f7 rs2 rs1 f3 rd op) = f3 :=
  (((extract_append_high _ _ (by decide)).trans (extract_append_high _ _ (by decide))).trans (extract_append_low _ _ (by decide))).trans BitVec.extractLsb'_eq_self
@[simp] theorem rs1Field_packR : rs1Field (packR f7 rs2 rs1 f3 rd op) = rs1 :=
  regOfBits_of_eq (((((extract_append_high _ _ (by decide)).trans (extract_append_high _ _ (by decide))).trans (extract_append_high _ _ (by decide))).trans (extract_append_low _ _ (by decide))).trans BitVec.extractLsb'_eq_self)
@[simp] theorem rs2Field_packR : rs2Field (packR f7 rs2 rs1 f3 rd op) = rs2 :=
  regOfBits_of_eq ((((((extract_append_high _ _ (by decide)).trans (extract_append_high _ _ (by decide))).trans (extract_append_high _ _ (by decide))).trans (extract_append_high _ _ (by decide))).trans (extract_append_low _ _ (by decide))).trans BitVec.extractLsb'_eq_self)
@[simp] theorem funct7_packR : funct7 (packR f7 rs2 rs1 f3 rd op) = f7 :=
  (((((extract_append_high _ _ (by decide)).trans (extract_append_high _ _ (by decide))).trans (extract_append_high _ _ (by decide))).trans (extract_append_high _ _ (by decide))).trans (extract_append_high _ _ (by decide))).trans BitVec.extractLsb'_eq_self

@[simp] theorem opcode_packI : opcode (packI imm rs1 f3 rd op) = op :=
  (extract_append_low _ _ (by decide)).trans BitVec.extractLsb'_eq_self
@[simp] theorem rdField_packI : rdField (packI imm rs1 f3 rd op) = rd :=
  regOfBits_of_eq (((extract_append_high _ _ (by decide)).trans (extract_append_low _ _ (by decide))).trans BitVec.extractLsb'_eq_self)
@[simp] theorem funct3_packI : funct3 (packI imm rs1 f3 rd op) = f3 :=
  (((extract_append_high _ _ (by decide)).trans (extract_append_high _ _ (by decide))).trans (extract_append_low _ _ (by decide))).trans BitVec.extractLsb'_eq_self
@[simp] theorem rs1Field_packI : rs1Field (packI imm rs1 f3 rd op) = rs1 :=
  regOfBits_of_eq (((((extract_append_high _ _ (by decide)).trans (extract_append_high _ _ (by decide))).trans (extract_append_high _ _ (by decide))).trans (extract_append_low _ _ (by decide))).trans BitVec.extractLsb'_eq_self)
@[simp] theorem slice20_packI : (packI imm rs1 f3 rd op).extractLsb' 20 12 = imm.extractLsb' 0 12 :=
  ((((extract_append_high _ _ (by decide)).trans (extract_append_high _ _ (by decide))).trans (extract_append_high _ _ (by decide))).trans (extract_append_high _ _ (by decide))).trans BitVec.extractLsb'_eq_self

@[simp] theorem opcode_packS : opcode (packS imm rs2 rs1 f3 op) = op :=
  (extract_append_low _ _ (by decide)).trans BitVec.extractLsb'_eq_self
@[simp] theorem funct3_packS : funct3 (packS imm rs2 rs1 f3 op) = f3 :=
  (((extract_append_high _ _ (by decide)).trans (extract_append_high _ _ (by decide))).trans (extract_append_low _ _ (by decide))).trans BitVec.extractLsb'_eq_self
@[simp] theorem rs1Field_packS : rs1Field (packS imm rs2 rs1 f3 op) = rs1 :=
  regOfBits_of_eq (((((extract_append_high _ _ (by decide)).trans (extract_append_high _ _ (by decide))).trans (extract_append_high _ _ (by decide))).trans (extract_append_low _ _ (by decide))).trans BitVec.extractLsb'_eq_self)
@[simp] theorem rs2Field_packS : rs2Field (packS imm rs2 rs1 f3 op) = rs2 :=
  regOfBits_of_eq ((((((extract_append_high _ _ (by decide)).trans (extract_append_high _ _ (by decide))).trans (extract_append_high _ _ (by decide))).trans (extract_append_high _ _ (by decide))).trans (extract_append_low _ _ (by decide))).trans BitVec.extractLsb'_eq_self)
@[simp] theorem slice25_packS : (packS imm rs2 rs1 f3 op).extractLsb' 25 7 = imm.extractLsb' 5 7 :=
  (((((extract_append_high _ _ (by decide)).trans (extract_append_high _ _ (by decide))).trans (extract_append_high _ _ (by decide))).trans (extract_append_high _ _ (by decide))).trans (extract_append_high _ _ (by decide))).trans BitVec.extractLsb'_eq_self
@[simp] theorem slice7_packS : (packS imm rs2 rs1 f3 op).extractLsb' 7 5 = imm.extractLsb' 0 5 :=
  ((extract_append_high _ _ (by decide)).trans (extract_append_low _ _ (by decide))).trans BitVec.extractLsb'_eq_self

@[simp] theorem opcode_packB : opcode (packB imm rs2 rs1 f3 op) = op :=
  (extract_append_low _ _ (by decide)).trans BitVec.extractLsb'_eq_self
@[simp] theorem funct3_packB : funct3 (packB imm rs2 rs1 f3 op) = f3 :=
  ((((extract_append_high _ _ (by decide)).trans (extract_append_high _ _ (by decide))).trans (extract_append_high _ _ (by decide))).trans (extract_append_low _ _ (by decide))).trans BitVec.extractLsb'_eq_self
@[simp] theorem rs1Field_packB : rs1Field (packB imm rs2 rs1 f3 op) = rs1 :=
  regOfBits_of_eq ((((((extract_append_high _ _ (by decide)).trans (extract_append_high _ _ (by decide))).trans (extract_append_high _ _ (by decide))).trans (extract_append_high _ _ (by decide))).trans (extract_append_low _ _ (by decide))).trans BitVec.extractLsb'_eq_self)
@[simp] theorem rs2Field_packB : rs2Field (packB imm rs2 rs1 f3 op) = rs2 :=
  regOfBits_of_eq (((((((extract_append_high _ _ (by decide)).trans (extract_append_high _ _ (by decide))).trans (extract_append_high _ _ (by decide))).trans (extract_append_high _ _ (by decide))).trans (extract_append_high _ _ (by decide))).trans (extract_append_low _ _ (by decide))).trans BitVec.extractLsb'_eq_self)
@[simp] theorem slice31_packB : (packB imm rs2 rs1 f3 op).extractLsb' 31 1 = imm.extractLsb' 12 1 :=
  (((((((extract_append_high _ _ (by decide)).trans (extract_append_high _ _ (by decide))).trans (extract_append_high _ _ (by decide))).trans (extract_append_high _ _ (by decide))).trans (extract_append_high _ _ (by decide))).trans (extract_append_high _ _ (by decide))).trans (extract_append_high _ _ (by decide))).trans BitVec.extractLsb'_eq_self
@[simp] theorem slice7_packB : (packB imm rs2 rs1 f3 op).extractLsb' 7 1 = imm.extractLsb' 11 1 :=
  ((extract_append_high _ _ (by decide)).trans (extract_append_low _ _ (by decide))).trans BitVec.extractLsb'_eq_self
@[simp] theorem slice25_packB : (packB imm rs2 rs1 f3 op).extractLsb' 25 6 = imm.extractLsb' 5 6 :=
  (((((((extract_append_high _ _ (by decide)).trans (extract_append_high _ _ (by decide))).trans (extract_append_high _ _ (by decide))).trans (extract_append_high _ _ (by decide))).trans (extract_append_high _ _ (by decide))).trans (extract_append_high _ _ (by decide))).trans (extract_append_low _ _ (by decide))).trans BitVec.extractLsb'_eq_self
@[simp] theorem slice8_packB : (packB imm rs2 rs1 f3 op).extractLsb' 8 4 = imm.extractLsb' 1 4 :=
  (((extract_append_high _ _ (by decide)).trans (extract_append_high _ _ (by decide))).trans (extract_append_low _ _ (by decide))).trans BitVec.extractLsb'_eq_self

@[simp] theorem opcode_packU : opcode (packU imm rd op) = op :=
  (extract_append_low _ _ (by decide)).trans BitVec.extractLsb'_eq_self
@[simp] theorem rdField_packU : rdField (packU imm rd op) = rd :=
  regOfBits_of_eq (((extract_append_high _ _ (by decide)).trans (extract_append_low _ _ (by decide))).trans BitVec.extractLsb'_eq_self)
@[simp] theorem slice12_packU : (packU imm rd op).extractLsb' 12 20 = imm.extractLsb' 12 20 :=
  ((extract_append_high _ _ (by decide)).trans (extract_append_high _ _ (by decide))).trans BitVec.extractLsb'_eq_self

@[simp] theorem opcode_packJ : opcode (packJ imm rd op) = op :=
  (extract_append_low _ _ (by decide)).trans BitVec.extractLsb'_eq_self
@[simp] theorem rdField_packJ : rdField (packJ imm rd op) = rd :=
  regOfBits_of_eq (((extract_append_high _ _ (by decide)).trans (extract_append_low _ _ (by decide))).trans BitVec.extractLsb'_eq_self)
@[simp] theorem slice31_packJ : (packJ imm rd op).extractLsb' 31 1 = imm.extractLsb' 20 1 :=
  (((((extract_append_high _ _ (by decide)).trans (extract_append_high _ _ (by decide))).trans (extract_append_high _ _ (by decide))).trans (extract_append_high _ _ (by decide))).trans (extract_append_high _ _ (by decide))).trans BitVec.extractLsb'_eq_self
@[simp] theorem slice12_packJ : (packJ imm rd op).extractLsb' 12 8 = imm.extractLsb' 12 8 :=
  (((extract_append_high _ _ (by decide)).trans (extract_append_high _ _ (by decide))).trans (extract_append_low _ _ (by decide))).trans BitVec.extractLsb'_eq_self
@[simp] theorem slice20_packJ : (packJ imm rd op).extractLsb' 20 1 = imm.extractLsb' 11 1 :=
  ((((extract_append_high _ _ (by decide)).trans (extract_append_high _ _ (by decide))).trans (extract_append_high _ _ (by decide))).trans (extract_append_low _ _ (by decide))).trans BitVec.extractLsb'_eq_self
@[simp] theorem slice21_packJ : (packJ imm rd op).extractLsb' 21 10 = imm.extractLsb' 1 10 :=
  (((((extract_append_high _ _ (by decide)).trans (extract_append_high _ _ (by decide))).trans (extract_append_high _ _ (by decide))).trans (extract_append_high _ _ (by decide))).trans (extract_append_low _ _ (by decide))).trans BitVec.extractLsb'_eq_self

@[simp] theorem opcode_packSys : opcode (packSys rest op) = op :=
  (extract_append_low _ _ (by decide)).trans BitVec.extractLsb'_eq_self
@[simp] theorem slice7_packSys : (packSys rest op).extractLsb' 7 25 = rest :=
  (extract_append_high _ _ (by decide)).trans BitVec.extractLsb'_eq_self

end

/-! ### Immediates that fit their format -/

/-- A word whose value n bits can hold is the sign extension of its low n bits. -/
theorem signExtend_setWidth_of_range {n : Nat} (hn : n ≤ 32) (imm : Word)
    (hl : -(((2 ^ n : Nat) : Int) / 2) ≤ imm.toInt) (hu : imm.toInt < (((2 ^ n : Nat) : Int) + 1) / 2) :
    (imm.setWidth n).signExtend 32 = imm := by
  apply BitVec.eq_of_toInt_eq
  rw [BitVec.toInt_signExtend, BitVec.toInt_setWidth, Nat.min_eq_right hn,
    Int.bmod_bmod_of_dvd (Nat.dvd_refl _), ← Int.bmod_bmod_of_dvd (Nat.pow_dvd_pow 2 hn),
    ← BitVec.toInt_eq_toNat_bmod, Int.bmod_eq_of_le hl hu]

theorem setWidth_eq_extract (imm : Word) (n : Nat) : imm.setWidth n = imm.extractLsb' 0 n := by
  apply BitVec.eq_of_getLsbD_eq
  intro i hi
  simp [hi]

theorem fitsI_iff {imm : Word} : fitsI imm = true ↔ -2048 ≤ imm.toInt ∧ imm.toInt ≤ 2047 := by
  simp [fitsI]

theorem fitsB_iff {imm : Word} :
    fitsB imm = true ↔ -4096 ≤ imm.toInt ∧ imm.toInt ≤ 4094 ∧ imm.getLsbD 0 = false := by
  simp [fitsB, and_assoc]

theorem fitsJ_iff {imm : Word} :
    fitsJ imm = true ↔ -1048576 ≤ imm.toInt ∧ imm.toInt ≤ 1048574 ∧ imm.getLsbD 0 = false := by
  simp [fitsJ, and_assoc]

theorem immI_packI {imm : Word} (h : fitsI imm = true) (rs1 : Reg) (f3 : BitVec 3) (rd : Reg) (op : BitVec 7) :
    immI (packI imm rs1 f3 rd op) = imm := by
  have h := fitsI_iff.1 h
  rw [immI, slice20_packI, ← setWidth_eq_extract]
  exact signExtend_setWidth_of_range (by decide) imm (by omega) (by omega)

theorem immS_packS {imm : Word} (h : fitsS imm = true) (rs2 rs1 : Reg) (f3 : BitVec 3) (op : BitVec 7) :
    immS (packS imm rs2 rs1 f3 op) = imm := by
  simp only [fitsS, decide_eq_true_eq] at h
  have hj : imm.extractLsb' 5 7 ++ imm.extractLsb' 0 5 = imm.setWidth 12 := by
    apply BitVec.eq_of_getLsbD_eq
    intro i hi
    interval_cases i <;> simp only [BitVec.getLsbD_append, BitVec.getLsbD_extractLsb', BitVec.getLsbD_setWidth] <;> simp
  rw [immS, slice25_packS, slice7_packS, hj]
  apply BitVec.eq_of_toNat_eq
  simp only [BitVec.toNat_setWidth]
  omega

theorem immB_packB {imm : Word} (h : fitsB imm = true) (rs2 rs1 : Reg) (f3 : BitVec 3) (op : BitVec 7) :
    immB (packB imm rs2 rs1 f3 op) = imm := by
  obtain ⟨hl, hu, h0⟩ := fitsB_iff.1 h
  have hj : imm.extractLsb' 12 1 ++ imm.extractLsb' 11 1 ++ imm.extractLsb' 5 6 ++ imm.extractLsb' 1 4 ++ 0#1
      = imm.setWidth 13 := by
    apply BitVec.eq_of_getLsbD_eq
    intro i hi
    interval_cases i <;> simp only [BitVec.getLsbD_append, BitVec.getLsbD_extractLsb', BitVec.getLsbD_setWidth] <;> simp
    simpa using h0
  rw [immB, slice31_packB, slice7_packB, slice25_packB, slice8_packB, hj]
  exact signExtend_setWidth_of_range (by decide) imm (by omega) (by omega)

theorem immU_packU {imm : Word} (h : fitsU imm = true) (rd : Reg) (op : BitVec 7) :
    immU (packU imm rd op) = imm := by
  simp only [fitsU, beq_iff_eq] at h
  rw [immU, slice12_packU]
  apply BitVec.eq_of_getLsbD_eq
  intro i hi
  have hb := congrArg (BitVec.getLsbD · i) h
  simp only [BitVec.getLsbD_setWidth] at hb
  simp only [BitVec.getLsbD_append, BitVec.getLsbD_extractLsb']
  by_cases hi' : i < 12
  · have hz : (0#12).getLsbD i = imm.getLsbD i := by rw [← hb, decide_eq_true hi', Bool.true_and]
    rw [if_pos hi', hz]
  · simp [hi', show i - 12 < 20 by omega, show 12 + (i - 12) = i by omega]

theorem immJ_packJ {imm : Word} (h : fitsJ imm = true) (rd : Reg) (op : BitVec 7) :
    immJ (packJ imm rd op) = imm := by
  obtain ⟨hl, hu, h0⟩ := fitsJ_iff.1 h
  have hj : imm.extractLsb' 20 1 ++ imm.extractLsb' 12 8 ++ imm.extractLsb' 11 1 ++ imm.extractLsb' 1 10 ++ 0#1
      = imm.setWidth 21 := by
    apply BitVec.eq_of_getLsbD_eq
    intro i hi
    interval_cases i <;> simp only [BitVec.getLsbD_append, BitVec.getLsbD_extractLsb', BitVec.getLsbD_setWidth] <;> simp
    simpa using h0
  rw [immJ, slice31_packJ, slice12_packJ, slice20_packJ, slice21_packJ, hj]
  exact signExtend_setWidth_of_range (by decide) imm (by omega) (by omega)

/-- Bit 30 of a format-I word is bit 10 of its immediate (R94, R109). -/
theorem bit30_packI (imm : Word) (rs1 : Reg) (f3 : BitVec 3) (rd : Reg) (op : BitVec 7) :
    (packI imm rs1 f3 rd op).getLsbD 30 = imm.getLsbD 10 := by
  have h := congrArg (BitVec.getLsbD · 10) (slice20_packI rs1 rd f3 op imm)
  simpa only [BitVec.getLsbD_extractLsb', Nat.reduceAdd, Nat.reduceLT, decide_true, Bool.true_and] using h

/-! ### The fields of a word assemble to the word -/

theorem packR_fields (w : Word) :
    packR (funct7 w) (rs2Field w) (rs1Field w) (funct3 w) (rdField w) (opcode w) = w := by
  apply BitVec.eq_of_getLsbD_eq
  intro i hi
  simp only [packR, funct7, rs2Field, rs1Field, funct3, rdField, opcode, regBits_regOfBits]
  interval_cases i <;> simp only [BitVec.getLsbD_append, BitVec.getLsbD_extractLsb'] <;> simp

theorem packI_fields (w : Word) :
    packI (immI w) (rs1Field w) (funct3 w) (rdField w) (opcode w) = w := by
  apply BitVec.eq_of_getLsbD_eq
  intro i hi
  simp only [packI, immI, rs1Field, funct3, rdField, opcode, regBits_regOfBits]
  interval_cases i <;> simp only [BitVec.getLsbD_append, BitVec.getLsbD_extractLsb', BitVec.getLsbD_signExtend] <;> simp

theorem packS_fields (w : Word) :
    packS (immS w) (rs2Field w) (rs1Field w) (funct3 w) (opcode w) = w := by
  apply BitVec.eq_of_getLsbD_eq
  intro i hi
  simp only [packS, immS, rs1Field, rs2Field, funct3, opcode, regBits_regOfBits]
  interval_cases i <;> simp only [BitVec.getLsbD_append, BitVec.getLsbD_extractLsb', BitVec.getLsbD_setWidth] <;> simp

theorem packB_fields (w : Word) :
    packB (immB w) (rs2Field w) (rs1Field w) (funct3 w) (opcode w) = w := by
  apply BitVec.eq_of_getLsbD_eq
  intro i hi
  simp only [packB, immB, rs1Field, rs2Field, funct3, opcode, regBits_regOfBits]
  interval_cases i <;> simp only [BitVec.getLsbD_append, BitVec.getLsbD_extractLsb', BitVec.getLsbD_signExtend] <;> simp

theorem packU_fields (w : Word) : packU (immU w) (rdField w) (opcode w) = w := by
  apply BitVec.eq_of_getLsbD_eq
  intro i hi
  simp only [packU, immU, rdField, opcode, regBits_regOfBits]
  interval_cases i <;> simp only [BitVec.getLsbD_append, BitVec.getLsbD_extractLsb'] <;> simp

theorem packJ_fields (w : Word) : packJ (immJ w) (rdField w) (opcode w) = w := by
  apply BitVec.eq_of_getLsbD_eq
  intro i hi
  simp only [packJ, immJ, rdField, opcode, regBits_regOfBits]
  interval_cases i <;> simp only [BitVec.getLsbD_append, BitVec.getLsbD_extractLsb', BitVec.getLsbD_signExtend] <;> simp

theorem packSys_fields (w : Word) : packSys (w.extractLsb' 7 25) (opcode w) = w := by
  apply BitVec.eq_of_getLsbD_eq
  intro i hi
  simp only [packSys, opcode]
  interval_cases i <;> simp only [BitVec.getLsbD_append, BitVec.getLsbD_extractLsb'] <;> simp

/-! ### Decoded immediates fit their format -/

/-- Sign extension keeps the signed value, so it lies in the range of the narrow width. -/
theorem toInt_signExtend_range {n : Nat} (hn : n ≤ 32) (x : BitVec n) :
    -(2 ^ (n - 1) : Int) ≤ (x.signExtend 32).toInt ∧ (x.signExtend 32).toInt < 2 ^ (n - 1) := by
  have h : (x.signExtend 32).toInt = x.toInt := by
    rw [BitVec.toInt_signExtend, Nat.min_eq_right hn, BitVec.toInt_eq_toNat_bmod,
      Int.bmod_bmod_of_dvd (Nat.dvd_refl _)]
  rw [h]
  exact ⟨BitVec.le_toInt x, BitVec.toInt_lt⟩

/-- A word with bit 0 clear is even as a signed number. -/
theorem toInt_even {w : Word} (h : w.getLsbD 0 = false) : w.toInt % 2 = 0 := by
  have hn : w.toNat % 2 = 0 := by
    simpa [BitVec.getLsbD, Nat.testBit_zero] using h
  rw [BitVec.toInt_eq_toNat_cond]
  split <;> omega

theorem fitsI_immI (w : Word) : fitsI (immI w) = true := by
  have h := toInt_signExtend_range (n := 12) (by decide) (w.extractLsb' 20 12)
  exact fitsI_iff.2 ⟨h.1, Int.le_of_lt_add_one h.2⟩

theorem fitsS_immS (w : Word) : fitsS (immS w) = true := by
  have h := (w.extractLsb' 25 7 ++ w.extractLsb' 7 5).isLt
  simp only [fitsS, immS, BitVec.toNat_setWidth, decide_eq_true_eq]
  omega

theorem fitsB_immB (w : Word) : fitsB (immB w) = true := by
  have h := toInt_signExtend_range (n := 13) (by decide)
    (w.extractLsb' 31 1 ++ w.extractLsb' 7 1 ++ w.extractLsb' 25 6 ++ w.extractLsb' 8 4 ++ 0#1)
  have h0 : (immB w).getLsbD 0 = false := by
    simp only [immB, BitVec.getLsbD_signExtend, BitVec.getLsbD_append]; simp
  have he := Int.emod_two_eq_zero_or_one (immB w).toInt
  have hp : (immB w).toInt % 2 = 0 := toInt_even h0
  exact fitsB_iff.2 ⟨h.1, by have := h.2; change (immB w).toInt < _ at this; omega, h0⟩

theorem fitsU_immU (w : Word) : fitsU (immU w) = true := by
  simp only [fitsU, immU, beq_iff_eq]
  exact (setWidth_eq_extract _ _).trans
    ((extract_append_low _ _ (by decide)).trans BitVec.extractLsb'_eq_self)

theorem fitsJ_immJ (w : Word) : fitsJ (immJ w) = true := by
  have h := toInt_signExtend_range (n := 21) (by decide)
    (w.extractLsb' 31 1 ++ w.extractLsb' 12 8 ++ w.extractLsb' 20 1 ++ w.extractLsb' 21 10 ++ 0#1)
  have h0 : (immJ w).getLsbD 0 = false := by
    simp only [immJ, BitVec.getLsbD_signExtend, BitVec.getLsbD_append]; simp
  have he := Int.emod_two_eq_zero_or_one (immJ w).toInt
  have hp : (immJ w).toInt % 2 = 0 := toInt_even h0
  exact fitsJ_iff.2 ⟨h.1, by have := h.2; change (immJ w).toInt < _ at this; omega, h0⟩

/-- Bit 10 of a decoded format-I immediate is bit 30 of the word. -/
theorem bit10_immI (w : Word) : (immI w).getLsbD 10 = w.getLsbD 30 := by
  simp only [immI, BitVec.getLsbD_signExtend, BitVec.getLsbD_extractLsb']; simp

/-! ### The masks of R118 -/

/-- Words with equal fields are equal. -/
theorem word_ext {a b : Word} (h1 : opcode a = opcode b) (h2 : rdField a = rdField b)
    (h3 : funct3 a = funct3 b) (h4 : rs1Field a = rs1Field b) (h5 : rs2Field a = rs2Field b)
    (h6 : funct7 a = funct7 b) : a = b := by
  rw [← packR_fields a, ← packR_fields b, h1, h2, h3, h4, h5, h6]

theorem opcode_and (a b : Word) : opcode (a &&& b) = opcode a &&& opcode b := BitVec.extractLsb'_and
theorem funct3_and (a b : Word) : funct3 (a &&& b) = funct3 a &&& funct3 b := BitVec.extractLsb'_and
theorem funct7_and (a b : Word) : funct7 (a &&& b) = funct7 a &&& funct7 b := BitVec.extractLsb'_and

theorem zero_rd_and (w : Word) (m : BitVec 7) (g : BitVec 3) (op : BitVec 7) :
    rdField (w &&& packR m 0 0 g 0 op) = 0 := by
  rw [rdField, BitVec.extractLsb'_and]
  exact (congrArg (fun r => regOfBits (_ &&& r)) (congrArg regBits (rdField_packR m 0 0 0 g op))).trans
    (congrArg regOfBits BitVec.and_zero)

theorem zero_rs1_and (w : Word) (m : BitVec 7) (g : BitVec 3) (op : BitVec 7) :
    rs1Field (w &&& packR m 0 0 g 0 op) = 0 := by
  rw [rs1Field, BitVec.extractLsb'_and]
  exact (congrArg (fun r => regOfBits (_ &&& r)) (congrArg regBits (rs1Field_packR m 0 0 0 g op))).trans
    (congrArg regOfBits BitVec.and_zero)

theorem zero_rs2_and (w : Word) (m : BitVec 7) (g : BitVec 3) (op : BitVec 7) :
    rs2Field (w &&& packR m 0 0 g 0 op) = 0 := by
  rw [rs2Field, BitVec.extractLsb'_and]
  exact (congrArg (fun r => regOfBits (_ &&& r)) (congrArg regBits (rs2Field_packR m 0 0 0 g op))).trans
    (congrArg regOfBits BitVec.and_zero)

/-- A mask that keeps the opcode, the bits `g` of funct3 and the bits `m` of funct7 (every mask of
R118 is of this form) compares exactly those. -/
theorem mask_fields (w : Word) (m p : BitVec 7) (g q : BitVec 3) (op : BitVec 7) :
    w &&& packR m 0 0 g 0 0x7F#7 = packR p 0 0 q 0 op ↔
      opcode w = op ∧ funct3 w &&& g = q ∧ funct7 w &&& m = p := by
  have ho : opcode (w &&& packR m 0 0 g 0 0x7F#7) = opcode w := by
    rw [opcode_and, opcode_packR, show 0x7F#7 = BitVec.allOnes 7 by decide, BitVec.and_allOnes]
  constructor
  · intro h
    have h1 := congrArg opcode h
    have h2 := congrArg funct3 h
    have h3 := congrArg funct7 h
    rw [ho, opcode_packR] at h1
    rw [funct3_and, funct3_packR, funct3_packR] at h2
    rw [funct7_and, funct7_packR, funct7_packR] at h3
    exact ⟨h1, h2, h3⟩
  · rintro ⟨h1, h2, h3⟩
    refine word_ext ?_ ?_ ?_ ?_ ?_ ?_
    · rw [ho, opcode_packR, h1]
    · rw [zero_rd_and, rdField_packR]
    · rw [funct3_and, funct3_packR, funct3_packR, h2]
    · rw [zero_rs1_and, rs1Field_packR]
    · rw [zero_rs2_and, rs2Field_packR]
    · rw [funct7_and, funct7_packR, funct7_packR, h3]

/-- Bit 30 is bit 5 of funct7 (R109). -/
theorem funct7_bit30 (w : Word) : (funct7 w).getLsbD 5 = w.getLsbD 30 := by
  simp only [funct7, BitVec.getLsbD_extractLsb', Nat.reduceAdd, Nat.reduceLT, decide_true, Bool.true_and]

end Sys2Proof
end

