-- ==== Sys2Proof/Laws/PerInstr.lean ====
section
/-! SUPPORT. Statements about every instruction as syntax, one lemma per constructor. RoundTrip: the
word the encoder writes for a well-formed instruction is the word the decoder reads it from. -/

namespace Sys2Proof.Laws.RoundTrip

def Statement (i : Instr) : Prop := i.wellFormed = true → decode (encode i) = .ok i

theorem add (rd rs1 rs2 : Reg) : Statement (.add rd rs1 rs2) := fun _ => by
  simp [encode, decode, formatOf, decodeR]

theorem sub (rd rs1 rs2 : Reg) : Statement (.sub rd rs1 rs2) := fun _ => by
  simp [encode, decode, formatOf, decodeR]

theorem sll (rd rs1 rs2 : Reg) (f7 : BitVec 7) : Statement (.sll rd rs1 rs2 f7) := fun _ => by
  simp [encode, decode, formatOf, decodeR]

theorem slt (rd rs1 rs2 : Reg) (f7 : BitVec 7) : Statement (.slt rd rs1 rs2 f7) := fun _ => by
  simp [encode, decode, formatOf, decodeR]

theorem sltu (rd rs1 rs2 : Reg) (f7 : BitVec 7) : Statement (.sltu rd rs1 rs2 f7) := fun _ => by
  simp [encode, decode, formatOf, decodeR]

theorem xor (rd rs1 rs2 : Reg) (f7 : BitVec 7) : Statement (.xor rd rs1 rs2 f7) := fun _ => by
  simp [encode, decode, formatOf, decodeR]

theorem srl (rd rs1 rs2 : Reg) : Statement (.srl rd rs1 rs2) := fun _ => by
  simp [encode, decode, formatOf, decodeR]

theorem sra (rd rs1 rs2 : Reg) : Statement (.sra rd rs1 rs2) := fun _ => by
  simp [encode, decode, formatOf, decodeR]

theorem or (rd rs1 rs2 : Reg) (f7 : BitVec 7) : Statement (.or rd rs1 rs2 f7) := fun _ => by
  simp [encode, decode, formatOf, decodeR]

theorem and (rd rs1 rs2 : Reg) (f7 : BitVec 7) : Statement (.and rd rs1 rs2 f7) := fun _ => by
  simp [encode, decode, formatOf, decodeR]

theorem addi (rd rs1 : Reg) (imm : Word) : Statement (.addi rd rs1 imm) := fun h => by
  simp [encode, decode, formatOf, decodeI, immI_packI h]

theorem slli (rd rs1 : Reg) (imm : Word) : Statement (.slli rd rs1 imm) := fun h => by
  simp [encode, decode, formatOf, decodeI, immI_packI h]

theorem slti (rd rs1 : Reg) (imm : Word) : Statement (.slti rd rs1 imm) := fun h => by
  simp [encode, decode, formatOf, decodeI, immI_packI h]

theorem sltiu (rd rs1 : Reg) (imm : Word) : Statement (.sltiu rd rs1 imm) := fun h => by
  simp [encode, decode, formatOf, decodeI, immI_packI h]

theorem xori (rd rs1 : Reg) (imm : Word) : Statement (.xori rd rs1 imm) := fun h => by
  simp [encode, decode, formatOf, decodeI, immI_packI h]

theorem srli (rd rs1 : Reg) (imm : Word) : Statement (.srli rd rs1 imm) := fun h => by
  simp only [Instr.wellFormed, Bool.and_eq_true, Bool.not_eq_true'] at h
  simp only [encode, decode, formatOf, decodeI, opcode_packI, funct3_packI, rdField_packI, rs1Field_packI,
    immI_packI h.1, bit30_packI, h.2]
  rfl

theorem srai (rd rs1 : Reg) (imm : Word) : Statement (.srai rd rs1 imm) := fun h => by
  simp only [Instr.wellFormed, Bool.and_eq_true] at h
  simp only [encode, decode, formatOf, decodeI, opcode_packI, funct3_packI, rdField_packI, rs1Field_packI,
    immI_packI h.1, bit30_packI, h.2]
  rfl

theorem ori (rd rs1 : Reg) (imm : Word) : Statement (.ori rd rs1 imm) := fun h => by
  simp [encode, decode, formatOf, decodeI, immI_packI h]

theorem andi (rd rs1 : Reg) (imm : Word) : Statement (.andi rd rs1 imm) := fun h => by
  simp [encode, decode, formatOf, decodeI, immI_packI h]

theorem sb (rs1 rs2 : Reg) (imm : Word) : Statement (.sb rs1 rs2 imm) := fun h => by
  simp [encode, decode, formatOf, decodeS, immS_packS h]

theorem sh (rs1 rs2 : Reg) (imm : Word) : Statement (.sh rs1 rs2 imm) := fun h => by
  simp [encode, decode, formatOf, decodeS, immS_packS h]

theorem sw (rs1 rs2 : Reg) (imm : Word) : Statement (.sw rs1 rs2 imm) := fun h => by
  simp [encode, decode, formatOf, decodeS, immS_packS h]

theorem lb (rd rs1 : Reg) (imm : Word) : Statement (.lb rd rs1 imm) := fun h => by
  simp [encode, decode, formatOf, decodeL, immI_packI h]

theorem lh (rd rs1 : Reg) (imm : Word) : Statement (.lh rd rs1 imm) := fun h => by
  simp [encode, decode, formatOf, decodeL, immI_packI h]

theorem lw (rd rs1 : Reg) (imm : Word) : Statement (.lw rd rs1 imm) := fun h => by
  simp [encode, decode, formatOf, decodeL, immI_packI h]

theorem lbu (rd rs1 : Reg) (imm : Word) : Statement (.lbu rd rs1 imm) := fun h => by
  simp [encode, decode, formatOf, decodeL, immI_packI h]

theorem lhu (rd rs1 : Reg) (imm : Word) : Statement (.lhu rd rs1 imm) := fun h => by
  simp [encode, decode, formatOf, decodeL, immI_packI h]

theorem auipc (rd : Reg) (imm : Word) : Statement (.auipc rd imm) := fun h => by
  simp [encode, decode, formatOf, decodeU, immU_packU h]

theorem lui (rd : Reg) (imm : Word) : Statement (.lui rd imm) := fun h => by
  simp [encode, decode, formatOf, decodeU, immU_packU h]

theorem beq (rs1 rs2 : Reg) (imm : Word) : Statement (.beq rs1 rs2 imm) := fun h => by
  simp [encode, decode, formatOf, decodeB, immB_packB h]

theorem bne (rs1 rs2 : Reg) (imm : Word) : Statement (.bne rs1 rs2 imm) := fun h => by
  simp [encode, decode, formatOf, decodeB, immB_packB h]

theorem blt (rs1 rs2 : Reg) (imm : Word) : Statement (.blt rs1 rs2 imm) := fun h => by
  simp [encode, decode, formatOf, decodeB, immB_packB h]

theorem bge (rs1 rs2 : Reg) (imm : Word) : Statement (.bge rs1 rs2 imm) := fun h => by
  simp [encode, decode, formatOf, decodeB, immB_packB h]

theorem bltu (rs1 rs2 : Reg) (imm : Word) : Statement (.bltu rs1 rs2 imm) := fun h => by
  simp [encode, decode, formatOf, decodeB, immB_packB h]

theorem bgeu (rs1 rs2 : Reg) (imm : Word) : Statement (.bgeu rs1 rs2 imm) := fun h => by
  simp [encode, decode, formatOf, decodeB, immB_packB h]

theorem jal (rd : Reg) (imm : Word) : Statement (.jal rd imm) := fun h => by
  simp [encode, decode, formatOf, immJ_packJ h]

theorem jalr (rd rs1 : Reg) (imm : Word) (f3 : BitVec 3) : Statement (.jalr rd rs1 imm f3) := fun h => by
  simp [encode, decode, formatOf, immI_packI h]

theorem ecall (rest : BitVec 25) : Statement (.ecall rest) := fun _ => by
  simp [encode, decode, formatOf]

end Sys2Proof.Laws.RoundTrip
end

