-- ==== Sys2Proof/Laws/Pseudo.lean ====
section
/-! SUPPORT. The two immediates of the wide `li` (30_encoding.md R123): each fits the field it is
encoded in, and together they are the constant. -/

namespace Sys2Proof.Machine

theorem fitsU_liUpper (imm : Word) : fitsU (liUpper imm) = true := by
  simp only [fitsU, beq_iff_eq]
  apply BitVec.eq_of_getLsbD_eq
  intro k hk
  simp [liUpper, hk]

theorem fitsI_liLower (imm : Word) : fitsI (liLower imm) = true := by
  have h := toInt_signExtend_range (n := 12) (by decide) (imm.setWidth 12)
  exact fitsI_iff.2 ⟨h.1, Int.le_of_lt_add_one h.2⟩

/-- `hi20` rounds up exactly where `lo12` is negative. -/
theorem liUpper_add_liLower (imm : Word) : liUpper imm + liLower imm = imm := by
  apply BitVec.eq_of_toNat_eq
  have h := imm.isLt
  simp only [liUpper, liLower, BitVec.toNat_add, BitVec.toNat_shiftLeft, BitVec.toNat_ushiftRight,
    BitVec.toNat_signExtend, BitVec.toNat_setWidth, BitVec.msb_eq_decide, BitVec.toNat_ofNat,
    Nat.shiftLeft_eq, Nat.shiftRight_eq_div_pow, decide_eq_true_eq]
  split <;> omega

end Sys2Proof.Machine
end

