-- ==== Sys2Proof/Laws/Reset.lean ====
section
/-! SUPPORT. The memory a reset leaves is in canonical form, lists no address outside DataMemory, and
reads as `DMEM_INIT` and the seeding say (20_memory.md R81). -/

namespace Sys2Proof.Machine

theorem wf_initialContents (c : Config) : Memory.wf (initialContents c) := by
  unfold initialContents
  induction c.dmemInit.filter (fun p => decide (p.1 < c.dmemSize)) with
  | nil => exact Memory.wf_nil
  | cons p l ih => exact Memory.wf_write p.1 p.2 ih

theorem bounded_initialContents (c : Config) : ∀ x ∈ initialContents c, x.1 < c.dmemSize := by
  unfold initialContents
  have h : ∀ p ∈ c.dmemInit.filter (fun p => decide (p.1 < c.dmemSize)), p.1 < c.dmemSize := fun p hp => by
    simpa using (List.mem_filter.1 hp).2
  revert h
  induction c.dmemInit.filter (fun p => decide (p.1 < c.dmemSize)) with
  | nil => simp
  | cons p l ih =>
    intro h x hx
    rcases Memory.mem_write hx with hx | hx
    · exact hx ▸ h p (by simp)
    · exact ih (fun q hq => h q (by simp [hq])) x hx

/-- The first pair listed for an address counts. -/
theorem read_initialContents (c : Config) {a : Nat} (ha : a < c.dmemSize) :
    Memory.read (initialContents c) a = dmemInitByte c a := by
  unfold initialContents dmemInitByte
  induction c.dmemInit with
  | nil => rfl
  | cons p l ih =>
    by_cases hp : p.1 < c.dmemSize
    · simp only [List.filter_cons, hp, decide_true, ↓reduceIte, List.foldr_cons, Memory.read_write, Memory.read]
      by_cases h : a = p.1
      · simp [h]
      · simp [h, Ne.symm h, ih]
    · have : p.1 ≠ a := fun h => hp (h ▸ ha)
      simp [hp, Memory.read, this, ih]

theorem mem_imageCells {image : List Byte} {c : Host.Cell} :
    c ∈ imageCells image ↔ image[c.1]? = some c.2 := by
  obtain ⟨a, b⟩ := c
  simp [imageCells, List.mem_zipIdx_iff_getElem?]

theorem imageCells_distinct (image : List Byte) :
    (imageCells image).Pairwise fun c d => c.1 ≠ d.1 := by
  have h : ((imageCells image).map Prod.fst).Nodup := by
    have : (imageCells image).map Prod.fst = List.range' 0 image.length := by
      simp [imageCells, Function.comp_def, List.zipIdx_map_snd]
    rw [this]; exact List.nodup_range'
  exact List.pairwise_map.1 h

theorem wf_initialDmem (c : Config) : Memory.wf (initialDmem c) := by
  unfold initialDmem
  split
  · exact Memory.wf_writeAll _ (wf_initialContents c)
  · exact wf_initialContents c

theorem bounded_initialDmem {c : Config} (h : c.seedDmem = true → c.imageSize ≤ c.dmemSize) :
    ∀ x ∈ initialDmem c, x.1 < c.dmemSize := by
  unfold initialDmem
  split
  · next hs =>
    refine Memory.bounded_writeAll (bounded_initialContents c) fun x hx => ?_
    have hx := mem_imageCells.1 hx
    have hlt : x.1 < c.image.length := by
      rcases Nat.lt_or_ge x.1 c.image.length with h | h
      · exact h
      · rw [List.getElem?_eq_none h] at hx; cases hx
    exact Nat.lt_of_lt_of_le hlt (h hs)
  · exact bounded_initialContents c

/-- R81: the image over `DMEM_INIT` when seeding, `DMEM_INIT` alone when not. -/
theorem read_initialDmem (c : Config) {a : Nat} (ha : a < c.dmemSize) :
    Memory.read (initialDmem c) a =
      if c.seedDmem = true ∧ a < c.imageSize then c.image.getD a 0#8 else dmemInitByte c a := by
  unfold initialDmem
  cases hs : c.seedDmem
  · simpa using read_initialContents c ha
  · rcases Nat.lt_or_ge a c.image.length with hlt | hge
    · have hm : (a, c.image[a]) ∈ imageCells c.image := mem_imageCells.2 (by simp [hlt])
      have := Memory.read_writeAll_of_mem (m := initialContents c) (imageCells_distinct c.image) hm
      simpa [Config.imageSize, hlt] using this
    · have : ∀ x ∈ imageCells c.image, x.1 ≠ a := fun x hx he => by
        have := mem_imageCells.1 hx
        rw [he, List.getElem?_eq_none hge] at this; cases this
      have := Memory.read_writeAll_of_notMem (m := initialContents c) this
      simp [Config.imageSize, Nat.not_lt.2 hge, this, read_initialContents c ha]

theorem configProblem_eq_none {c : Config} :
    configProblem c = none ↔ 1 ≤ c.dmemSize ∧ c.dmemSize ≤ 2 ^ 32 ∧ c.imageSize ≤ 2 ^ 32 ∧
      (c.seedDmem = true → c.imageSize ≤ c.dmemSize) := by
  unfold configProblem
  split
  · simp only [reduceCtorEq, false_iff]; omega
  · split
    · simp only [reduceCtorEq, false_iff]; omega
    · split
      · next h => simp only [reduceCtorEq, false_iff]; intro hc; have := hc.2.2.2 h.1; omega
      · next h1 h2 h3 =>
        simp only [true_iff]
        refine ⟨by omega, by omega, by omega, fun hs => ?_⟩
        by_contra hc
        exact h3 ⟨hs, by omega⟩

theorem resetWith_eq_next {c : Config} {t : State} :
    resetWith c = .next t ↔ configProblem c = none ∧ t = initialState c := by
  unfold resetWith
  cases configProblem c <;> simp [eq_comm]

end Sys2Proof.Machine
end

