-- ==== Sys2Proof/Tests/Slice0.lean ====
section
/-! SUPPORT. Tests of the model and witnesses of the statements. Expected values are those of
95_test_vectors.md (its row is named in each docstring) or written out from the rule named. -/

open Sys2Proof Sys2Proof.Machine Sys2Proof.Safety

namespace Sys2Proof.Tests

/-! ### Helpers -/

/-- The next state of a result. -/
def nextOf : Result → Option State
  | .next t => some t
  | .fault _ => none
  | .refused _ => none

/-- The state after one step. -/
def after (s : State) : Option State := nextOf (step s)

/-- The reset state of a configuration with registers, memory and pc preset. -/
def preset (c : Config) (pc : Word) (regs : List (Reg × Word)) (mem : List Host.Cell) : State :=
  regs.foldl (fun s p => s.setReg p.1 p.2)
    { initialState c with pc := pc, dmem := Memory.writeAll [] mem }

/-- A vector's "before" state: the word in the image at pc. -/
def vector (c : Config) (w pc : Word) (regs : List (Reg × Word)) (mem : List Host.Cell) : State :=
  (preset c pc regs mem).placeWord w

/-- The state after a cycle that fetches `w` (for vectors whose pc lies far into the image). -/
def ran (w : Word) (s : State) : Option State := nextOf (cycle (some w) s)

/-- A configuration with a small DataMemory and a program of words. -/
def small (size : Nat) (words : List Word) : Config :=
  { Config.defaults with dmemSize := size, image := words.flatMap bytesOfWord }

theorem next_of {r : Result} {p : State → Bool} (h : (nextOf r).any p = true) :
    ∃ t, r = .next t ∧ p t = true := by
  cases r with
  | next t => exact ⟨t, rfl, by simpa [nextOf] using h⟩
  | fault e => cases e
  | refused e => simp [nextOf] at h

theorem next_exists {r : Result} (h : (nextOf r).isSome = true) : ∃ t, r = .next t := by
  obtain ⟨t, ht, _⟩ := next_of (r := r) (p := fun _ => true) (by cases hr : nextOf r <;> simp_all)
  exact ⟨t, ht⟩

theorem fetches_of {s : State} {w : Word} (h : s.halted = false) (hl : s.stepLimitReached = false)
    (hf : s.fetch = some w) : Fetches s w := ⟨h, State.stepLimitReached_eq_false.1 hl, hf⟩

/-! ### WellFormed refuses each ill-formed term (30_encoding.md R101 to R106, R109) -/

theorem test_wf_i_above : (Instr.addi 1 1 2048#32).wellFormed = false := by decide
theorem test_wf_i_below : (Instr.lw 1 1 0xFFFFF7FF#32).wellFormed = false := by decide
theorem test_wf_jalr_above : (Instr.jalr 1 1 2048#32 0#3).wellFormed = false := by decide
theorem test_wf_s_above : (Instr.sw 1 1 4096#32).wellFormed = false := by decide
theorem test_wf_s_negative : (Instr.sb 1 1 0xFFFFFFFC#32).wellFormed = false := by decide
theorem test_wf_b_above : (Instr.beq 1 1 4096#32).wellFormed = false := by decide
theorem test_wf_b_below : (Instr.bne 1 1 0xFFFFEFFE#32).wellFormed = false := by decide
theorem test_wf_b_odd : (Instr.blt 1 1 3#32).wellFormed = false := by decide
theorem test_wf_u_low_bits : (Instr.lui 1 0x12345001#32).wellFormed = false := by decide
theorem test_wf_j_above : (Instr.jal 1 1048576#32).wellFormed = false := by decide
theorem test_wf_j_below : (Instr.jal 1 0xFFEFFFFE#32).wellFormed = false := by decide
theorem test_wf_j_odd : (Instr.jal 1 1#32).wellFormed = false := by decide
theorem test_wf_srli_bit30 : (Instr.srli 1 1 0x404#32).wellFormed = false := by decide
theorem test_wf_srai_bit30 : (Instr.srai 1 1 4#32).wellFormed = false := by decide
theorem test_wf_accepts_bounds :
    (Instr.addi 1 1 0xFFFFF800#32).wellFormed = true ∧ (Instr.sw 1 1 4095#32).wellFormed = true ∧
    (Instr.beq 1 1 0xFFFFF000#32).wellFormed = true ∧ (Instr.beq 1 1 4094#32).wellFormed = true ∧
    (Instr.jal 1 0xFFF00000#32).wellFormed = true ∧ (Instr.srai 1 1 0x404#32).wellFormed = true := by decide

/-! ### Decoding: one word of every constructor, from sections 2.1 to 2.9 of 95_test_vectors.md -/

theorem test_decode_add : decodeTableWord 32 0x002081B3 = some (.add 3 1 2) := by decide
theorem test_decode_sub : decodeTableWord 32 0x402081B3 = some (.sub 3 1 2) := by decide
theorem test_decode_sll : decodeTableWord 32 0x022091B3 = some (.sll 3 1 2 0x01#7) := by decide
theorem test_decode_slt : decodeTableWord 32 0x0020A1B3 = some (.slt 3 1 2 0#7) := by decide
theorem test_decode_sltu : decodeTableWord 32 0x0020B1B3 = some (.sltu 3 1 2 0#7) := by decide
theorem test_decode_xor : decodeTableWord 32 0xFE20C1B3 = some (.xor 3 1 2 0x7F#7) := by decide
theorem test_decode_srl : decodeTableWord 32 0x0020D1B3 = some (.srl 3 1 2) := by decide
theorem test_decode_sra : decodeTableWord 32 0x4020D1B3 = some (.sra 3 1 2) := by decide
theorem test_decode_or : decodeTableWord 32 0x0020E1B3 = some (.or 3 1 2 0#7) := by decide
theorem test_decode_and : decodeTableWord 32 0x0020F1B3 = some (.and 3 1 2 0#7) := by decide
theorem test_decode_addi : decodeTableWord 32 0x80008193 = some (.addi 3 1 0xFFFFF800#32) := by decide
theorem test_decode_slli : decodeTableWord 32 0x01F09193 = some (.slli 3 1 31#32) := by decide
theorem test_decode_slti : decodeTableWord 32 0xFFF0A193 = some (.slti 3 1 0xFFFFFFFF#32) := by decide
theorem test_decode_sltiu : decodeTableWord 32 0x0050B193 = some (.sltiu 3 1 5#32) := by decide
theorem test_decode_xori : decodeTableWord 32 0x0050C193 = some (.xori 3 1 5#32) := by decide
theorem test_decode_srli : decodeTableWord 32 0xBE40D193 = some (.srli 3 1 0xFFFFFBE4#32) := by decide
theorem test_decode_srai : decodeTableWord 32 0x4040D193 = some (.srai 3 1 0x404#32) := by decide
theorem test_decode_ori : decodeTableWord 32 0xFFF0E193 = some (.ori 3 1 0xFFFFFFFF#32) := by decide
theorem test_decode_andi : decodeTableWord 32 0x7FF0F193 = some (.andi 3 1 2047#32) := by decide
theorem test_decode_sb : decodeTableWord 32 0xFE208E23 = some (.sb 1 2 4092#32) := by decide
theorem test_decode_sh : decodeTableWord 32 0x002090A3 = some (.sh 1 2 1#32) := by decide
theorem test_decode_sw : decodeTableWord 32 0x8020A023 = some (.sw 1 2 2048#32) := by decide
theorem test_decode_lb : decodeTableWord 32 0xFFC08183 = some (.lb 3 1 0xFFFFFFFC#32) := by decide
theorem test_decode_lh : decodeTableWord 32 0x00A09183 = some (.lh 3 1 10#32) := by decide
theorem test_decode_lw : decodeTableWord 32 0xFFC0A183 = some (.lw 3 1 0xFFFFFFFC#32) := by decide
theorem test_decode_lbu : decodeTableWord 32 0x0080C183 = some (.lbu 3 1 8#32) := by decide
theorem test_decode_lhu : decodeTableWord 32 0x00A0D183 = some (.lhu 3 1 10#32) := by decide
theorem test_decode_auipc : decodeTableWord 32 0xFFFFF197 = some (.auipc 3 0xFFFFF000#32) := by decide
theorem test_decode_lui : decodeTableWord 32 0x123451B7 = some (.lui 3 0x12345000#32) := by decide
theorem test_decode_beq : decodeTableWord 32 0xFE208F63 = some (.beq 1 2 0xFFFFF7FE#32) := by decide
theorem test_decode_bne : decodeTableWord 32 0x00209863 = some (.bne 1 2 16#32) := by decide
theorem test_decode_blt : decodeTableWord 32 0x0020C863 = some (.blt 1 2 16#32) := by decide
theorem test_decode_bge : decodeTableWord 32 0xFE20D8E3 = some (.bge 1 2 0xFFFFFFF0#32) := by decide
theorem test_decode_bltu : decodeTableWord 32 0x0020E863 = some (.bltu 1 2 16#32) := by decide
theorem test_decode_bgeu : decodeTableWord 32 0xFE20F8E3 = some (.bgeu 1 2 0xFFFFFFF0#32) := by decide
theorem test_decode_jal : decodeTableWord 32 0x7FFFF0EF = some (.jal 1 0x000FFFFE#32) := by decide
theorem test_decode_jalr : decodeTableWord 32 0x0002F0E7 = some (.jalr 1 5 0#32 7#3) := by decide
theorem test_decode_ecall : decodeTableWord 32 0x30200073 = some (.ecall 0x0604000#25) := by decide

/-- R118's 38 rows name 38 different instructions. -/
theorem test_table_has_38_rows : (opcodeTable.map OpcodeRow.mnemonic).Nodup ∧ opcodeTable.length = 38 := by decide

/-- R115 and V33 to V35, V87, V111, V159, V183: a word of each class that decodes to nothing. -/
theorem test_undecodable_words :
    [0x0000000F, 0x022081B3, 0x0220D1B3, 0x0020B023, 0x0000B183, 0x0020A863].all
      (fun w => decodeTableWord 32 w == none) = true := by decide

/-- Fewer than four bytes hold no instruction (F2's image). -/
theorem test_decode_short : decodeBytes [0x13#8, 0#8, 0#8] = .error .shortWord := by rfl

/-! ### One step of the vectors of 95_test_vectors.md, sections 2.2 to 2.9 -/

/-- V2: `add x3,x1,x2`. -/
theorem test_add_v2 :
    (after (vector .defaults 0x002081B3#32 0x00000000#32 [(1, 0xFFFFFFFF#32), (2, 0x00000001#32), (3, 0xAAAAAAAA#32)] [])).map (fun t => (t.readReg 3, t.pc)) =
      some (0x00000000#32, 0x00000004#32) := by decide

/-- V27: `add x1,x1,x1`. -/
theorem test_add_v27 :
    (after (vector .defaults 0x001080B3#32 0x00000000#32 [(1, 0x00000005#32)] [])).map (fun t => (t.readReg 1, t.pc)) =
      some (0x0000000A#32, 0x00000004#32) := by decide

/-- V4: `sub x3,x1,x2`. -/
theorem test_sub_v4 :
    (after (vector .defaults 0x402081B3#32 0x00000000#32 [(1, 0x00000003#32), (2, 0x00000005#32)] [])).map (fun t => (t.readReg 3, t.pc)) =
      some (0xFFFFFFFE#32, 0x00000004#32) := by decide

/-- V9: `sll x3,x1,x2`. -/
theorem test_sll_v9 :
    (after (vector .defaults 0x002091B3#32 0x00000000#32 [(1, 0xFFFFFFFF#32), (2, 0x00000024#32)] [])).map (fun t => (t.readReg 3, t.pc)) =
      some (0xFFFFFFF0#32, 0x00000004#32) := by decide

/-- V31: `(MULH encoding) = sll x3,x1,x2`. -/
theorem test_sll_v31 :
    (after (vector .defaults 0x022091B3#32 0x00000000#32 [(1, 0x00000003#32), (2, 0x00000002#32)] [])).map (fun t => (t.readReg 3, t.pc)) =
      some (0x0000000C#32, 0x00000004#32) := by decide

/-- V11: `slt x3,x1,x2`. -/
theorem test_slt_v11 :
    (after (vector .defaults 0x0020A1B3#32 0x00000000#32 [(1, 0x00000001#32), (2, 0xFFFFFFFF#32), (3, 0x00000007#32)] [])).map (fun t => (t.readReg 3, t.pc)) =
      some (0x00000000#32, 0x00000004#32) := by decide

/-- V12: `slt x3,x1,x2`. -/
theorem test_slt_v12 :
    (after (vector .defaults 0x0020A1B3#32 0x00000000#32 [(1, 0x80000000#32), (2, 0x7FFFFFFF#32)] [])).map (fun t => (t.readReg 3, t.pc)) =
      some (0x00000001#32, 0x00000004#32) := by decide

/-- V14: `sltu x3,x1,x2`. -/
theorem test_sltu_v14 :
    (after (vector .defaults 0x0020B1B3#32 0x00000000#32 [(1, 0xFFFFFFFF#32), (2, 0x00000001#32), (3, 0x00000007#32)] [])).map (fun t => (t.readReg 3, t.pc)) =
      some (0x00000000#32, 0x00000004#32) := by decide

/-- V15: `sltu x3,x1,x2`. -/
theorem test_sltu_v15 :
    (after (vector .defaults 0x0020B1B3#32 0x00000000#32 [(1, 0x00000001#32), (2, 0xFFFFFFFF#32)] [])).map (fun t => (t.readReg 3, t.pc)) =
      some (0x00000001#32, 0x00000004#32) := by decide

/-- V32: `(funct7=0x7F) = xor x3,x1,x2`. -/
theorem test_xor_v32 :
    (after (vector .defaults 0xFE20C1B3#32 0x00000000#32 [(1, 0xF0F0F0F0#32), (2, 0xFF00FF00#32)] [])).map (fun t => (t.readReg 3, t.pc)) =
      some (0x0FF00FF0#32, 0x00000004#32) := by decide

/-- V20: `srl x3,x1,x2`. -/
theorem test_srl_v20 :
    (after (vector .defaults 0x0020D1B3#32 0x00000000#32 [(1, 0x80000000#32), (2, 0x00000020#32)] [])).map (fun t => (t.readReg 3, t.pc)) =
      some (0x80000000#32, 0x00000004#32) := by decide

/-- V22: `sra x3,x1,x2`. -/
theorem test_sra_v22 :
    (after (vector .defaults 0x4020D1B3#32 0x00000000#32 [(1, 0x80000000#32), (2, 0x00000004#32)] [])).map (fun t => (t.readReg 3, t.pc)) =
      some (0xF8000000#32, 0x00000004#32) := by decide

/-- V24: `sra x3,x1,x2`. -/
theorem test_sra_v24 :
    (after (vector .defaults 0x4020D1B3#32 0x00000000#32 [(1, 0xFFFFFF00#32), (2, 0x00000024#32)] [])).map (fun t => (t.readReg 3, t.pc)) =
      some (0xFFFFFFF0#32, 0x00000004#32) := by decide

/-- V25: `or x3,x1,x2`. -/
theorem test_or_v25 :
    (after (vector .defaults 0x0020E1B3#32 0x00000000#32 [(1, 0xF0F0F0F0#32), (2, 0xFF00FF00#32)] [])).map (fun t => (t.readReg 3, t.pc)) =
      some (0xFFF0FFF0#32, 0x00000004#32) := by decide

/-- V26: `and x3,x1,x2`. -/
theorem test_and_v26 :
    (after (vector .defaults 0x0020F1B3#32 0x00000000#32 [(1, 0xF0F0F0F0#32), (2, 0xFF00FF00#32)] [])).map (fun t => (t.readReg 3, t.pc)) =
      some (0xF000F000#32, 0x00000004#32) := by decide

/-- V37: `addi x3,x1,-1`. -/
theorem test_addi_v37 :
    (after (vector .defaults 0xFFF08193#32 0x00000000#32 [(1, 0x00000000#32)] [])).map (fun t => (t.readReg 3, t.pc)) =
      some (0xFFFFFFFF#32, 0x00000004#32) := by decide

/-- V44: `(slli, imm field 0x021) = slli x3,x1,1`. -/
theorem test_slli_v44 :
    (after (vector .defaults 0x02109193#32 0x00000000#32 [(1, 0x12345678#32)] [])).map (fun t => (t.readReg 3, t.pc)) =
      some (0x2468ACF0#32, 0x00000004#32) := by decide

/-- V46: `slti x3,x1,-1`. -/
theorem test_slti_v46 :
    (after (vector .defaults 0xFFF0A193#32 0x00000000#32 [(1, 0xFFFFFFFE#32)] [])).map (fun t => (t.readReg 3, t.pc)) =
      some (0x00000001#32, 0x00000004#32) := by decide

/-- V48: `slti x3,x1,5`. -/
theorem test_slti_v48 :
    (after (vector .defaults 0x0050A193#32 0x00000000#32 [(1, 0x80000000#32)] [])).map (fun t => (t.readReg 3, t.pc)) =
      some (0x00000001#32, 0x00000004#32) := by decide

/-- V50: `sltiu x3,x1,-1`. -/
theorem test_sltiu_v50 :
    (after (vector .defaults 0xFFF0B193#32 0x00000000#32 [(1, 0x00000005#32)] [])).map (fun t => (t.readReg 3, t.pc)) =
      some (0x00000001#32, 0x00000004#32) := by decide

/-- V54: `sltiu x3,x1,5`. -/
theorem test_sltiu_v54 :
    (after (vector .defaults 0x0050B193#32 0x00000000#32 [(1, 0x80000000#32), (3, 0x00000007#32)] [])).map (fun t => (t.readReg 3, t.pc)) =
      some (0x00000000#32, 0x00000004#32) := by decide

/-- V55: `xori x3,x1,-1 (not)`. -/
theorem test_xori_v55 :
    (after (vector .defaults 0xFFF0C193#32 0x00000000#32 [(1, 0xF0F0F0F0#32)] [])).map (fun t => (t.readReg 3, t.pc)) =
      some (0x0F0F0F0F#32, 0x00000004#32) := by decide

/-- V59: `(imm field 0xBE4, bit 30 = 0) = srli x3,x1,4`. -/
theorem test_srli_v59 :
    (after (vector .defaults 0xBE40D193#32 0x00000000#32 [(1, 0x87654321#32)] [])).map (fun t => (t.readReg 3, t.pc)) =
      some (0x08765432#32, 0x00000004#32) := by decide

/-- V63: `(imm field 0xFE4, bit 30 = 1) = srai x3,x1,4`. -/
theorem test_srai_v63 :
    (after (vector .defaults 0xFE40D193#32 0x00000000#32 [(1, 0x87654321#32)] [])).map (fun t => (t.readReg 3, t.pc)) =
      some (0xF8765432#32, 0x00000004#32) := by decide

/-- V65: `ori x3,x1,5`. -/
theorem test_ori_v65 :
    (after (vector .defaults 0x0050E193#32 0x00000000#32 [(1, 0x000000F0#32)] [])).map (fun t => (t.readReg 3, t.pc)) =
      some (0x000000F5#32, 0x00000004#32) := by decide

/-- V66: `andi x3,x1,-1`. -/
theorem test_andi_v66 :
    (after (vector .defaults 0xFFF0F193#32 0x00000000#32 [(1, 0x12345678#32)] [])).map (fun t => (t.readReg 3, t.pc)) =
      some (0x12345678#32, 0x00000004#32) := by decide

/-- V74: `sb x2,-4(x1)`. -/
theorem test_sb_v74 :
    (after (vector .defaults 0xFE208E23#32 0x00000000#32 [(1, 0x00001000#32), (2, 0x11223344#32)] [])).map (fun t => (t.readByte 0x1FFC, t.readByte 0x1FFD, t.pc)) =
      some (0x44#8, 0x00#8, 0x00000004#32) := by decide

/-- V82: `sb x2,0(x1)`. -/
theorem test_sb_v82 :
    (after (vector .defaults 0x00208023#32 0x00000004#32 [(1, 0x00100000#32), (2, 0x11223344#32)] [])).map (fun t => (t.haltCause, t.haltPc, t.haltWord, t.haltAddr, t.pc)) =
      some (HaltCause.memoryBoundsFault, 0x00000004#32, 0x00208023#32, 0x00100000#32, 0x00000004#32) := by decide

/-- V83: `sh x2,1(x1)`. -/
theorem test_sh_v83 :
    (after (vector .defaults 0x002090A3#32 0x00000000#32 [(1, 0xFFFFFFFF#32), (2, 0x0000BEEF#32)] [])).map (fun t => (t.readByte 0x0, t.readByte 0x1, t.readByte 0x2, t.pc)) =
      some (0xEF#8, 0xBE#8, 0x00#8, 0x00000004#32) := by decide

/-- V73: `sw x2,-4(x1)`. -/
theorem test_sw_v73 :
    (after (vector .defaults 0xFE20AE23#32 0x00000000#32 [(1, 0x00001000#32), (2, 0x11223344#32)] [])).map (fun t => (t.readByte 0x1FFC, t.readByte 0x1FFD, t.readByte 0x1FFE, t.readByte 0x1FFF, t.readByte 0x2000, t.pc)) =
      some (0x44#8, 0x33#8, 0x22#8, 0x11#8, 0x00#8, 0x00000004#32) := by decide

/-- V80: `sw x2,0(x1)`. -/
theorem test_sw_v80 :
    (after (vector .defaults 0x0020A023#32 0x00000004#32 [(1, 0x000FFFFD#32), (2, 0x11223344#32)] [])).map (fun t => (t.haltCause, t.haltPc, t.haltWord, t.haltAddr, t.pc)) =
      some (HaltCause.memoryBoundsFault, 0x00000004#32, 0x0020A023#32, 0x000FFFFD#32, 0x00000004#32) := by decide

/-- V99: `lb x3,-4(x1)`. -/
theorem test_lb_v99 :
    (after (vector .defaults 0xFFC08183#32 0x00000000#32 [(1, 0x0000100C#32)] [(0x1008, 0x80#8), (0x1009, 0x7F#8), (0x100A, 0xFF#8), (0x100B, 0x81#8), (0x100C, 0x01#8)])).map (fun t => (t.readReg 3, t.pc)) =
      some (0xFFFFFF80#32, 0x00000004#32) := by decide

/-- V93: `lh x3,10(x1)`. -/
theorem test_lh_v93 :
    (after (vector .defaults 0x00A09183#32 0x00000000#32 [(1, 0x00001000#32)] [(0x1008, 0x80#8), (0x1009, 0x7F#8), (0x100A, 0xFF#8), (0x100B, 0x81#8), (0x100C, 0x01#8)])).map (fun t => (t.readReg 3, t.pc)) =
      some (0xFFFF81FF#32, 0x00000004#32) := by decide

/-- V106: `lh x3,0(x1)`. -/
theorem test_lh_v106 :
    (after (vector .defaults 0x00009183#32 0x00000004#32 [(1, 0x000FFFFF#32), (3, 0x00000009#32)] [])).map (fun t => (t.haltCause, t.haltPc, t.haltWord, t.haltAddr, t.pc)) =
      some (HaltCause.memoryBoundsFault, 0x00000004#32, 0x00009183#32, 0x000FFFFF#32, 0x00000004#32) := by decide

/-- V96: `lw x3,9(x1)`. -/
theorem test_lw_v96 :
    (after (vector .defaults 0x0090A183#32 0x00000000#32 [(1, 0x00001000#32)] [(0x1008, 0x80#8), (0x1009, 0x7F#8), (0x100A, 0xFF#8), (0x100B, 0x81#8), (0x100C, 0x01#8)])).map (fun t => (t.readReg 3, t.pc)) =
      some (0x0181FF7F#32, 0x00000004#32) := by decide

/-- V103: `lw x3,-4(x1)`. -/
theorem test_lw_v103 :
    (after (vector .defaults 0xFFC0A183#32 0x00000004#32 [(1, 0x00000000#32), (3, 0x00000009#32)] [])).map (fun t => (t.haltCause, t.haltPc, t.haltWord, t.haltAddr, t.pc)) =
      some (HaltCause.memoryBoundsFault, 0x00000004#32, 0xFFC0A183#32, 0xFFFFFFFC#32, 0x00000004#32) := by decide

/-- V91: `lbu x3,8(x1)`. -/
theorem test_lbu_v91 :
    (after (vector .defaults 0x0080C183#32 0x00000000#32 [(1, 0x00001000#32)] [(0x1008, 0x80#8), (0x1009, 0x7F#8), (0x100A, 0xFF#8), (0x100B, 0x81#8), (0x100C, 0x01#8)])).map (fun t => (t.readReg 3, t.pc)) =
      some (0x00000080#32, 0x00000004#32) := by decide

/-- V107: `lbu x3,0(x1)`. -/
theorem test_lbu_v107 :
    (after (vector .defaults 0x0000C183#32 0x00000004#32 [(1, 0x00100000#32), (3, 0x00000009#32)] [])).map (fun t => (t.haltCause, t.haltPc, t.haltWord, t.haltAddr, t.pc)) =
      some (HaltCause.memoryBoundsFault, 0x00000004#32, 0x0000C183#32, 0x00100000#32, 0x00000004#32) := by decide

/-- V94: `lhu x3,10(x1)`. -/
theorem test_lhu_v94 :
    (after (vector .defaults 0x00A0D183#32 0x00000000#32 [(1, 0x00001000#32)] [(0x1008, 0x80#8), (0x1009, 0x7F#8), (0x100A, 0xFF#8), (0x100B, 0x81#8), (0x100C, 0x01#8)])).map (fun t => (t.readReg 3, t.pc)) =
      some (0x000081FF#32, 0x00000004#32) := by decide

/-- V119: `auipc x3,0xFFFFF`. -/
theorem test_auipc_v119 :
    (ran 0xFFFFF197#32 (preset .defaults 0x00000010#32 [] [])).map (fun t => (t.readReg 3, t.pc)) =
      some (0xFFFFF010#32, 0x00000014#32) := by decide

/-- V115: `lui x3,0xFFFFF`. -/
theorem test_lui_v115 :
    (after (vector .defaults 0xFFFFF1B7#32 0x00000000#32 [] [])).map (fun t => (t.readReg 3, t.pc)) =
      some (0xFFFFF000#32, 0x00000004#32) := by decide

/-- V155: `beq x1,x2,-2050`. -/
theorem test_beq_v155 :
    (ran 0xFE208F63#32 (preset .defaults 0x00001000#32 [] [])).map (fun t => (t.pc)) =
      some (0x000007FE#32) := by decide

/-- V123: `beq x1,x2,+16`. -/
theorem test_beq_v123 :
    (ran 0x00208863#32 (preset .defaults 0x00000100#32 [(1, 0xFFFFFFFF#32), (2, 0x00000001#32)] [])).map (fun t => (t.pc)) =
      some (0x00000104#32) := by decide

/-- V127: `bne x1,x2,+16`. -/
theorem test_bne_v127 :
    (ran 0x00209863#32 (preset .defaults 0x00000100#32 [(1, 0xFFFFFFFF#32), (2, 0x00000001#32)] [])).map (fun t => (t.pc)) =
      some (0x00000110#32) := by decide

/-- V131: `blt x1,x2,+16`. -/
theorem test_blt_v131 :
    (ran 0x0020C863#32 (preset .defaults 0x00000100#32 [(1, 0xFFFFFFFF#32), (2, 0x00000001#32)] [])).map (fun t => (t.pc)) =
      some (0x00000110#32) := by decide

/-- V132: `blt x1,x2,+16`. -/
theorem test_blt_v132 :
    (ran 0x0020C863#32 (preset .defaults 0x00000100#32 [(1, 0x00000001#32), (2, 0xFFFFFFFF#32)] [])).map (fun t => (t.pc)) =
      some (0x00000104#32) := by decide

/-- V136: `bge x1,x2,+16`. -/
theorem test_bge_v136 :
    (ran 0x0020D863#32 (preset .defaults 0x00000100#32 [(1, 0x00000001#32), (2, 0xFFFFFFFF#32)] [])).map (fun t => (t.pc)) =
      some (0x00000110#32) := by decide

/-- V135: `bge x1,x2,+16`. -/
theorem test_bge_v135 :
    (ran 0x0020D863#32 (preset .defaults 0x00000100#32 [(1, 0xFFFFFFFF#32), (2, 0x00000001#32)] [])).map (fun t => (t.pc)) =
      some (0x00000104#32) := by decide

/-- V140: `bltu x1,x2,+16`. -/
theorem test_bltu_v140 :
    (ran 0x0020E863#32 (preset .defaults 0x00000100#32 [(1, 0x00000001#32), (2, 0xFFFFFFFF#32)] [])).map (fun t => (t.pc)) =
      some (0x00000110#32) := by decide

/-- V139: `bltu x1,x2,+16`. -/
theorem test_bltu_v139 :
    (ran 0x0020E863#32 (preset .defaults 0x00000100#32 [(1, 0xFFFFFFFF#32), (2, 0x00000001#32)] [])).map (fun t => (t.pc)) =
      some (0x00000104#32) := by decide

/-- V143: `bgeu x1,x2,+16`. -/
theorem test_bgeu_v143 :
    (ran 0x0020F863#32 (preset .defaults 0x00000100#32 [(1, 0xFFFFFFFF#32), (2, 0x00000001#32)] [])).map (fun t => (t.pc)) =
      some (0x00000110#32) := by decide

/-- V144: `bgeu x1,x2,+16`. -/
theorem test_bgeu_v144 :
    (ran 0x0020F863#32 (preset .defaults 0x00000100#32 [(1, 0x00000001#32), (2, 0xFFFFFFFF#32)] [])).map (fun t => (t.pc)) =
      some (0x00000104#32) := by decide

/-- V163: `jal x1,-4`. -/
theorem test_jal_v163 :
    (ran 0xFFDFF0EF#32 (preset .defaults 0x00000100#32 [] [])).map (fun t => (t.readReg 1, t.pc)) =
      some (0x00000104#32, 0x000000FC#32) := by decide

/-- V167: `jal x1,-4`. -/
theorem test_jal_v167 :
    (after (vector .defaults 0xFFDFF0EF#32 0x00000000#32 [] [])).map (fun t => (t.readReg 1, t.pc)) =
      some (0x00000004#32, 0xFFFFFFFC#32) := by decide

/-- V170: `jalr x1,-3(x5)`. -/
theorem test_jalr_v170 :
    (ran 0xFFD280E7#32 (preset .defaults 0x00000020#32 [(5, 0x00000104#32)] [])).map (fun t => (t.readReg 1, t.pc)) =
      some (0x00000024#32, 0x00000100#32) := by decide

/-- V173: `jalr x5,4(x5)`. -/
theorem test_jalr_v173 :
    (ran 0x004282E7#32 (preset .defaults 0x00000020#32 [(5, 0x00000200#32)] [])).map (fun t => (t.readReg 5, t.pc)) =
      some (0x00000024#32, 0x00000204#32) := by decide

/-- V182: `(opcode 0x73, rest ones) = ecall`. -/
theorem test_ecall_v182 :
    (ran 0xFFFFFFF3#32 (preset .defaults 0x00000014#32 [] [])).map (fun t => (t.haltCause, t.haltPc, t.haltWord, t.haltAddr, t.pc)) =
      some (HaltCause.ecallHalt, 0x00000014#32, 0xFFFFFFF3#32, 0x00000000#32, 0x00000014#32) := by decide

/-- V33: `(MUL encoding)`. -/
theorem test_decode_v33 :
    (after (vector .defaults 0x022081B3#32 0x00000008#32 [(1, 0x00000003#32), (2, 0x00000002#32), (3, 0x00000009#32)] [])).map (fun t => (t.haltCause, t.haltPc, t.haltWord, t.haltAddr, t.pc)) =
      some (HaltCause.decodeFault, 0x00000008#32, 0x022081B3#32, 0x00000000#32, 0x00000008#32) := by decide

/-- V185: `(all zeros)`. -/
theorem test_decode_v185 :
    (ran 0x00000000#32 (preset .defaults 0x00000014#32 [] [])).map (fun t => (t.haltCause, t.haltPc, t.haltWord, t.haltAddr, t.pc)) =
      some (HaltCause.decodeFault, 0x00000014#32, 0x00000000#32, 0x00000000#32, 0x00000014#32) := by decide

/-- V191: `(FENCE encoding), policy skip`. -/
theorem test_skip_v191 :
    (ran 0x0000000F#32 (preset { Config.defaults with decodeFaultPolicy := .skip } 0x00000014#32 [(1, 0x00000005#32)] [])).map (fun t => (t.pc)) =
      some (0x00000018#32) := by decide

/-- V30: `add x3,x1,x2`. -/
theorem test_locked_v30 :
    (after (vector { Config.defaults with lockInit := 0x9#32 } 0x002081B3#32 0x00000000#32 [(1, 0x00000001#32), (2, 0x00000002#32), (3, 0x00000009#32)] [])).map (fun t => (t.readReg 3, t.pc)) =
      some (0x00000009#32, 0x00000004#32) := by decide

/-- V177: `jalr x1,0(x5)`. -/
theorem test_locked_v177 :
    (ran 0x000280E7#32 (preset { Config.defaults with lockInit := 0x3#32 } 0x00000020#32 [(5, 0x00000200#32), (1, 0x00000009#32)] [])).map (fun t => (t.readReg 1, t.pc)) =
      some (0x00000009#32, 0x00000200#32) := by decide

/-! ### Witnesses: concrete states and operands that meet the hypotheses of each statement -/

/-- Two registers preset, a 16-byte DataMemory whose bytes 8 to 11 hold 80 7F FF 81. -/
def w0 : State :=
  preset (small 16 [0x002081B3#32]) 0#32 [(1, 0xFFFFFFFF#32), (2, 1#32), (5, 13#32), (6, 12#32), (7, 14#32), (8, 15#32)]
    [(8, 0x80#8), (9, 0x7F#8), (10, 0xFF#8), (11, 0x81#8)]

/-- Registers 0 and 3 locked. -/
def wLocked : State := preset { small 16 [] with lockInit := 9#32 } 0#32 [(1, 5#32)] []

theorem test_witness_AddAndSubWrapModulo2To32 :
    (3 : Reg) ≠ 2 ∧ w0.isLocked 3 = false ∧ w0.isLocked 4 = false ∧
    ∃ t, exec (.add 3 1 2) w0 = .next t := ⟨by decide, by decide, by decide, next_exists (by decide)⟩

/-- x1 = 0xFFFFFFFF and x2 = 1 have different signs (E3), x2 and x5 the same. -/
theorem test_witness_SltAndSltuDisagreeExactlyOnMixedSigns :
    w0.isLocked 3 = false ∧ (∃ t, exec (.slt 3 1 2 0#7) w0 = .next t) ∧
    (∃ t, exec (.sltu 3 1 2 0#7) w0 = .next t) ∧ (∃ t, exec (.slt 3 2 5 0#7) w0 = .next t) ∧
    ∃ t, exec (.sltu 3 2 5 0#7) w0 = .next t :=
  ⟨by decide, next_exists (by decide), next_exists (by decide), next_exists (by decide), next_exists (by decide)⟩

/-- The last address in bounds of each width. -/
theorem test_witness_StoresWriteTheirBytesOnly :
    (w0.effAddr 8 0#32).toNat + 1 = w0.cfg.dmemSize ∧ (w0.effAddr 7 0#32).toNat + 2 = w0.cfg.dmemSize ∧
    (w0.effAddr 6 0#32).toNat + 4 = w0.cfg.dmemSize := by decide

theorem test_witness_LoadsExtendTheBytesTheyRead :
    (w0.effAddr 8 0#32).toNat + 1 ≤ w0.cfg.dmemSize ∧ (w0.effAddr 7 0#32).toNat + 2 ≤ w0.cfg.dmemSize ∧
    (w0.effAddr 6 0#32).toNat + 4 ≤ w0.cfg.dmemSize ∧ (w0.effAddr 0 0#32).toNat = 0 := by decide

/-- A 16-byte DataMemory, the word `w` at pc 0, x1 = 16, x2 = 15, x3 = 13. -/
def wBounds (w : Word) : State := preset (small 16 [w]) 0#32 [(1, 16#32), (2, 15#32), (3, 13#32)] []

/-- The first address out of bounds of each width, for every load and store. -/
theorem test_witness_OutOfBoundsAccessesHalt_byte :
    (Fetches (wBounds 0x00008203#32) 0x00008203#32 ∧ decode 0x00008203#32 = .ok (.lb 4 1 0#32)) ∧
    (Fetches (wBounds 0x0000C203#32) 0x0000C203#32 ∧ decode 0x0000C203#32 = .ok (.lbu 4 1 0#32)) ∧
    (Fetches (wBounds 0x00408023#32) 0x00408023#32 ∧ decode 0x00408023#32 = .ok (.sb 1 4 0#32)) ∧
    (wBounds 0#32).cfg.dmemSize + 1 = ((wBounds 0#32).effAddr 1 0#32).toNat + Width.byte.bytes :=
  ⟨⟨fetches_of (by decide) (by decide) (by decide), by rfl⟩, ⟨fetches_of (by decide) (by decide) (by decide), by rfl⟩,
    ⟨fetches_of (by decide) (by decide) (by decide), by rfl⟩, by decide⟩

theorem test_witness_OutOfBoundsAccessesHalt_half :
    (Fetches (wBounds 0x00011203#32) 0x00011203#32 ∧ decode 0x00011203#32 = .ok (.lh 4 2 0#32)) ∧
    (Fetches (wBounds 0x00015203#32) 0x00015203#32 ∧ decode 0x00015203#32 = .ok (.lhu 4 2 0#32)) ∧
    (Fetches (wBounds 0x00411023#32) 0x00411023#32 ∧ decode 0x00411023#32 = .ok (.sh 2 4 0#32)) ∧
    (wBounds 0#32).cfg.dmemSize + 1 = ((wBounds 0#32).effAddr 2 0#32).toNat + Width.half.bytes :=
  ⟨⟨fetches_of (by decide) (by decide) (by decide), by rfl⟩, ⟨fetches_of (by decide) (by decide) (by decide), by rfl⟩,
    ⟨fetches_of (by decide) (by decide) (by decide), by rfl⟩, by decide⟩

theorem test_witness_OutOfBoundsAccessesHalt_word :
    (Fetches (wBounds 0x0001A203#32) 0x0001A203#32 ∧ decode 0x0001A203#32 = .ok (.lw 4 3 0#32)) ∧
    (Fetches (wBounds 0x0041A023#32) 0x0041A023#32 ∧ decode 0x0041A023#32 = .ok (.sw 3 4 0#32)) ∧
    (wBounds 0#32).cfg.dmemSize + 1 = ((wBounds 0#32).effAddr 3 0#32).toNat + Width.word.bytes :=
  ⟨⟨fetches_of (by decide) (by decide) (by decide), by rfl⟩, ⟨fetches_of (by decide) (by decide) (by decide), by rfl⟩,
    by decide⟩

/-- The last word of DataMemory, and a read of each width. -/
theorem test_witness_MixedWidthAccessesSeeTheSameBytes :
    w0.cfg.dmemSize ≤ 2 ^ 32 ∧ (w0.memWrite 12#32 .word 0x12345678#32).isSome = true ∧
    w0.memRead 15#32 .byte = some 0#32 ∧ w0.memRead 10#32 .half = some 0x81FF#32 ∧
    w0.memRead 8#32 .word = some 0x81FF7F80#32 := by decide

/-- SW then LW at the last word, the load through another register. -/
theorem test_witness_MixedWidthAccessesSeeTheSameBytes_instructions :
    (w0.effAddr 6 0#32).toNat + 4 = w0.cfg.dmemSize ∧
    (∃ t, exec (.sw 6 1 0#32) w0 = .next t ∧ decide (t.effAddr 5 0xFFFFFFFF#32 = w0.effAddr 6 0#32) = true) ∧
    w0.isLocked 3 = false := ⟨by decide, next_of (by decide), by decide⟩

/-- Both sides of the bound. -/
theorem test_witness_MemoryPrimitivesAreBytewiseAndBounded :
    w0.cfg.dmemSize < (13#32 : Word).toNat + Width.word.bytes ∧
    (12#32 : Word).toNat + Width.word.bytes ≤ w0.cfg.dmemSize := by decide

/-- I7 with I4 (negative), I6 with `lw x3,8(x1)` (not negative). -/
theorem test_witness_StoreOffsetsAreUnsignedLoadOffsetsSigned :
    ((0xFE20AE23#32 : Word).extractLsb' 25 7 ++ (0xFE20AE23#32 : Word).extractLsb' 7 5 =
      (0xFFC0A183#32 : Word).extractLsb' 20 12) ∧
    ((0x0020A423#32 : Word).extractLsb' 25 7 ++ (0x0020A423#32 : Word).extractLsb' 7 5 =
      (0x0080A183#32 : Word).extractLsb' 20 12) := by decide

/-- A 4-byte image: the target 1 leaves fewer than four bytes. -/
theorem test_witness_JalLinksAndJumpsRelative :
    w0.cfg.imageSize < (w0.pc + 1#32).toNat + 4 ∧ w0.halted = false := by decide

theorem test_witness_UpperImmediatesFillTheUpper20Bits : w0.halted = false := by decide

/-- A 4-byte image with the word `w` and no step limit, x1 = 0xFFFFFFFF, x2 = 1, x5 = 13. -/
def wTransfer (w : Word) : State := preset (small 16 [w]) 0#32 [(1, 0xFFFFFFFF#32), (2, 1#32), (5, 13#32)] []

/-- A transfer whose premises hold: the word is fetched, decodes, and the target lies outside. -/
theorem transfer_premises {w target : Word} {i : Instr} (hf : (wTransfer w).fetch = some w)
    (hd : decode w = .ok i) (ht : (wTransfer w).cfg.imageSize < target.toNat + 4) :
    Fetches (wTransfer w) w ∧ decode w = .ok i ∧ (wTransfer w).cfg.imageSize < target.toNat + 4 ∧
    ∀ n, (wTransfer w).cfg.maxSteps = some n → (wTransfer w).steps + 1 < n :=
  ⟨fetches_of (by rfl) (by rfl) hf, hd, ht, fun n h => nomatch (show none = some n from h)⟩

/-- Every clause, with the pc just past the image, an odd number of bytes left, or a wrapped target:
`jal x1,4`, `jal x1,-4`, `jalr x1,-3(x5)`, and each branch taken by 4 or 2. -/
theorem test_witness_TransferOutsideTheImageEndsTheStream_jumps :
    (Fetches (wTransfer 0x004000EF#32) 0x004000EF#32 ∧ decode 0x004000EF#32 = .ok (.jal 1 4#32) ∧
      (wTransfer 0x004000EF#32).cfg.imageSize < (4#32 : Word).toNat + 4 ∧
      ∀ n, (wTransfer 0x004000EF#32).cfg.maxSteps = some n → (wTransfer 0x004000EF#32).steps + 1 < n) ∧
    (Fetches (wTransfer 0xFFDFF0EF#32) 0xFFDFF0EF#32 ∧ decode 0xFFDFF0EF#32 = .ok (.jal 1 0xFFFFFFFC#32) ∧
      (wTransfer 0xFFDFF0EF#32).cfg.imageSize < (0xFFFFFFFC#32 : Word).toNat + 4 ∧
      ∀ n, (wTransfer 0xFFDFF0EF#32).cfg.maxSteps = some n → (wTransfer 0xFFDFF0EF#32).steps + 1 < n) ∧
    (Fetches (wTransfer 0xFFD280E7#32) 0xFFD280E7#32 ∧ decode 0xFFD280E7#32 = .ok (.jalr 1 5 0xFFFFFFFD#32 0#3) ∧
      (wTransfer 0xFFD280E7#32).cfg.imageSize < (10#32 : Word).toNat + 4 ∧
      ∀ n, (wTransfer 0xFFD280E7#32).cfg.maxSteps = some n → (wTransfer 0xFFD280E7#32).steps + 1 < n) :=
  ⟨transfer_premises (by decide) (by rfl) (by decide), transfer_premises (by decide) (by rfl) (by decide),
    transfer_premises (by decide) (by rfl) (by decide)⟩

theorem test_witness_TransferOutsideTheImageEndsTheStream_equality :
    ((Fetches (wTransfer 0x00210263#32) 0x00210263#32 ∧ decode 0x00210263#32 = .ok (.beq 2 2 4#32) ∧
      (wTransfer 0x00210263#32).cfg.imageSize < (4#32 : Word).toNat + 4 ∧
      ∀ n, (wTransfer 0x00210263#32).cfg.maxSteps = some n → (wTransfer 0x00210263#32).steps + 1 < n) ∧
      (wTransfer 0x00210263#32).readReg 2 = (wTransfer 0x00210263#32).readReg 2) ∧
    ((Fetches (wTransfer 0x00209163#32) 0x00209163#32 ∧ decode 0x00209163#32 = .ok (.bne 1 2 2#32) ∧
      (wTransfer 0x00209163#32).cfg.imageSize < (2#32 : Word).toNat + 4 ∧
      ∀ n, (wTransfer 0x00209163#32).cfg.maxSteps = some n → (wTransfer 0x00209163#32).steps + 1 < n) ∧
      (wTransfer 0x00209163#32).readReg 1 ≠ (wTransfer 0x00209163#32).readReg 2) :=
  ⟨⟨transfer_premises (by decide) (by rfl) (by decide), by decide⟩,
    ⟨transfer_premises (by decide) (by rfl) (by decide), by decide⟩⟩

theorem test_witness_TransferOutsideTheImageEndsTheStream_signed :
    ((Fetches (wTransfer 0x0020C263#32) 0x0020C263#32 ∧ decode 0x0020C263#32 = .ok (.blt 1 2 4#32) ∧
      (wTransfer 0x0020C263#32).cfg.imageSize < (4#32 : Word).toNat + 4 ∧
      ∀ n, (wTransfer 0x0020C263#32).cfg.maxSteps = some n → (wTransfer 0x0020C263#32).steps + 1 < n) ∧
      ((wTransfer 0x0020C263#32).readReg 1).toInt < ((wTransfer 0x0020C263#32).readReg 2).toInt) ∧
    ((Fetches (wTransfer 0x00115163#32) 0x00115163#32 ∧ decode 0x00115163#32 = .ok (.bge 2 1 2#32) ∧
      (wTransfer 0x00115163#32).cfg.imageSize < (2#32 : Word).toNat + 4 ∧
      ∀ n, (wTransfer 0x00115163#32).cfg.maxSteps = some n → (wTransfer 0x00115163#32).steps + 1 < n) ∧
      ((wTransfer 0x00115163#32).readReg 1).toInt ≤ ((wTransfer 0x00115163#32).readReg 2).toInt) :=
  ⟨⟨transfer_premises (by decide) (by rfl) (by decide), by decide⟩,
    ⟨transfer_premises (by decide) (by rfl) (by decide), by decide⟩⟩

theorem test_witness_TransferOutsideTheImageEndsTheStream_unsigned :
    ((Fetches (wTransfer 0x00116263#32) 0x00116263#32 ∧ decode 0x00116263#32 = .ok (.bltu 2 1 4#32) ∧
      (wTransfer 0x00116263#32).cfg.imageSize < (4#32 : Word).toNat + 4 ∧
      ∀ n, (wTransfer 0x00116263#32).cfg.maxSteps = some n → (wTransfer 0x00116263#32).steps + 1 < n) ∧
      ((wTransfer 0x00116263#32).readReg 2).toNat < ((wTransfer 0x00116263#32).readReg 1).toNat) ∧
    ((Fetches (wTransfer 0x0020F163#32) 0x0020F163#32 ∧ decode 0x0020F163#32 = .ok (.bgeu 1 2 2#32) ∧
      (wTransfer 0x0020F163#32).cfg.imageSize < (2#32 : Word).toNat + 4 ∧
      ∀ n, (wTransfer 0x0020F163#32).cfg.maxSteps = some n → (wTransfer 0x0020F163#32).steps + 1 < n) ∧
      ((wTransfer 0x0020F163#32).readReg 2).toNat ≤ ((wTransfer 0x0020F163#32).readReg 1).toNat) :=
  ⟨⟨transfer_premises (by decide) (by rfl) (by decide), by decide⟩,
    ⟨transfer_premises (by decide) (by rfl) (by decide), by decide⟩⟩

/-- Of nop, j, jr and ret: a running engine. -/
theorem test_witness_PseudoInstructionsDoWhatTheyAbbreviate : w0.halted = false := by decide

/-- R123 by hand: 0xDEADBEEF + 0x800 = 0xDEADC6EF, so hi20 = 0xDEADC and lo12 = 0xEEF - 0x1000. -/
theorem test_pseudo_li_wide :
    (Pseudo.liWide 5 0xDEADBEEF#32).expand = [.lui 5 0xDEADC000#32, .addi 5 5 0xFFFFFEEF#32] ∧
    (Pseudo.liWide 5 0x12345678#32).expand = [.lui 5 0x12345000#32, .addi 5 5 0x678#32] ∧
    (Pseudo.liWide 5 0x7FFFFFFF#32).expand = [.lui 5 0x80000000#32, .addi 5 5 0xFFFFFFFF#32] := by decide

/-- The words of `nop` (V40), `ret` and `j -4` written out from the layouts. -/
theorem test_pseudo_words :
    Pseudo.nop.expand.map encode = [0x00000013#32] ∧ Pseudo.ret.expand.map encode = [0x00008067#32] ∧
    (Pseudo.j 0xFFFFFFFC#32).expand.map encode = [0xFFDFF06F#32] := by decide

/-- Register 0, and a register locked by `LOCK_INIT`. -/
theorem test_witness_JumpWithLockedLinkStillJumps :
    w0.isLocked 0 = true ∧ wLocked.isLocked 3 = true ∧ w0.isLocked 3 = false := by decide

/-- V182: ECALL with every other bit 1. -/
theorem test_witness_EcallHaltsWithItsWord :
    Fetches (vector .defaults 0xFFFFFFF3#32 0#32 [] []) 0xFFFFFFF3#32 ∧
    0xFFFFFFF3#32 &&& 0x0000007F#32 = 0x00000073#32 :=
  ⟨fetches_of (by decide) (by decide) (by decide), by decide⟩

/-- An engine halted at its second instruction. -/
def wHalted : State := (preset .defaults 4#32 [(1, 1#32)] []).haltWith .decodeFault 0x0000000F#32 0#32

theorem test_witness_HaltedEngineDoesNothing : wHalted.halted = true := by decide

/-- F9 and F11: MAX_STEPS = 0. -/
theorem test_witness_StepLimitHaltsBeforeFetch :
    (initialState { small 16 [0x73#32] with maxSteps := some 0 }).halted = false ∧
    (initialState { small 16 [0x73#32] with maxSteps := some 0 }).cfg.maxSteps = some 0 ∧
    0 ≤ (initialState { small 16 [0x73#32] with maxSteps := some 0 }).steps := by decide

/-- F2: three bytes; and pc 1 of a 4-byte image. -/
theorem test_witness_PcPastTheImageEndsTheStream :
    (initialState { Config.defaults with image := [0x13#8, 0#8, 0#8] }).halted = false ∧
    (∀ n, (initialState { Config.defaults with image := [0x13#8, 0#8, 0#8] }).cfg.maxSteps = some n →
      (initialState { Config.defaults with image := [0x13#8, 0#8, 0#8] }).steps < n) ∧
    (initialState { Config.defaults with image := [0x13#8, 0#8, 0#8] }).cfg.imageSize <
      (initialState { Config.defaults with image := [0x13#8, 0#8, 0#8] }).pc.toNat + 4 ∧
    (w0.setPc 1#32).cfg.imageSize < (w0.setPc 1#32).pc.toNat + 4 :=
  ⟨by decide, State.stepLimitReached_eq_false.1 (by decide), by decide, by decide⟩

/-- P5 and P5b: a FENCE word with each policy. -/
theorem test_witness_UndecodableWordFollowsThePolicy :
    (Fetches (vector .defaults 0x0000000F#32 0#32 [] []) 0x0000000F#32 ∧
      (vector .defaults 0x0000000F#32 0#32 [] []).cfg.decodeFaultPolicy = .halt) ∧
    (Fetches (vector { Config.defaults with decodeFaultPolicy := .skip } 0x0000000F#32 0#32 [] []) 0x0000000F#32 ∧
      (vector { Config.defaults with decodeFaultPolicy := .skip } 0x0000000F#32 0#32 [] []).cfg.decodeFaultPolicy =
        .skip) ∧
    decode 0x0000000F#32 = .error .unknownOpcode :=
  ⟨⟨fetches_of (by decide) (by decide) (by decide), by decide⟩,
    ⟨fetches_of (by decide) (by decide) (by decide), by decide⟩, by rfl⟩

/-- One halting step of each cause. -/
theorem test_witness_HaltsWriteOnlyTheRunStatus :
    (∃ t, step (vector .defaults 0x73#32 0#32 [] []) = .next t ∧ decide (t.haltCause = .ecallHalt ∧ t.halted = true) = true) ∧
    (∃ t, step (initialState (small 16 [])) = .next t ∧ decide (t.haltCause = .endOfStream ∧ t.halted = true) = true) ∧
    (∃ t, step (vector .defaults 0x0F#32 0#32 [] []) = .next t ∧ decide (t.haltCause = .decodeFault ∧ t.halted = true) = true) ∧
    (∃ t, step (wBounds 0x00008203#32) = .next t ∧ decide (t.haltCause = .memoryBoundsFault ∧ t.halted = true) = true) ∧
    (∃ t, step (initialState { small 16 [] with maxSteps := some 0 }) = .next t ∧
      decide (t.haltCause = .stepLimit ∧ t.halted = true) = true) :=
  ⟨next_of (by decide), next_of (by decide), next_of (by decide), next_of (by decide), next_of (by decide)⟩

/-- V2's ADD, and an ECALL, at the head of their images. -/
theorem test_witness_StepRunsTheDecodedInstruction :
    w0.halted = false ∧ (∀ n, w0.cfg.maxSteps = some n → w0.steps < n) ∧
    decodeBytes (w0.cfg.image.drop w0.pc.toNat) = .ok (.add 3 1 2, []) ∧
    (∃ t, exec (.add 3 1 2) w0 = .next t ∧ (!t.halted) = true) ∧
    decodeBytes ((wBounds 0x73#32).cfg.image.drop 0) = .ok (.ecall 0#25, []) ∧
    (∃ t, exec (.ecall 0#25) (wBounds 0x73#32) = .next t ∧ t.halted = true) :=
  ⟨by decide, State.stepLimitReached_eq_false.1 (by decide), by rfl, next_of (p := fun t => !t.halted) (by decide), by rfl,
    next_of (p := fun t => t.halted) (by decide)⟩

theorem test_witness_StepsCountsCompletedCycles :
    (∃ t, resetWith (small 16 []) = .next t) ∧ w0.halted = false ∧ (∃ t, step w0 = .next t) ∧
    State.stepLimitReached { w0 with steps := 7 } = w0.stepLimitReached :=
  ⟨next_exists (by decide), by decide, next_exists (by decide), by decide⟩

theorem test_witness_LocksParametersAndImageNeverChange :
    (∃ t, step w0 = .next t) ∧ ∃ t, exec (.add 3 1 2) wLocked = .next t :=
  ⟨next_exists (by decide), next_exists (by decide)⟩

/-- A store that changes a byte, and an instruction that is none of the eight. -/
theorem test_witness_DataMemoryReachedOnlyByLoadsAndStores :
    (∃ t, step (vector .defaults 0x00208423#32 0#32 [(2, 0x44#32)] []) = .next t ∧
      decide (t.readByte 8 ≠ (vector .defaults 0x00208423#32 0#32 [(2, 0x44#32)] []).readByte 8) = true) ∧
    (Instr.add 3 1 2).mnemonic ∉ [.sb, .sh, .sw, .lb, .lh, .lw, .lbu, .lhu] ∧
    ∃ t, exec (.add 3 1 2) w0 = .next t :=
  ⟨next_of (by decide), by decide, next_exists (by decide)⟩

theorem test_witness_RegistersNotNamedAreUntouched :
    (∃ t, exec (.add 3 1 2) w0 = .next t) ∧ destOf (.add 3 1 2) ≠ some 9 ∧ (9 : Reg) ∉ sourcesOf (.add 3 1 2) :=
  ⟨next_exists (by decide), by decide, by decide⟩

theorem test_witness_RegisterZeroIsHardwired :
    (∃ t, resetWith { small 16 [] with lockInit := 0#32 } = .next t) ∧ w0.rfValue[0] = 0#32 ∧
    w0.rfLocked[0] = true ∧ ∃ t, step w0 = .next t :=
  ⟨next_exists (by decide), by decide, by decide, next_exists (by decide)⟩

/-- F12's odd displacement: `jalr x0,0(x5)` with x5 = 6 from pc 0. -/
theorem test_witness_ProgramCounterStaysEven :
    (vector .defaults 0x00028067#32 0#32 [(5, 6#32)] []).pc.toNat % 2 = 0 ∧
    ∃ t, step (vector .defaults 0x00028067#32 0#32 [(5, 6#32)] []) = .next t :=
  ⟨by decide, next_exists (by decide)⟩

/-- The last offset of an image at which a word lies inside it. -/
theorem test_witness_FetchIsLittleEndian : w0.pc.toNat + 4 = w0.cfg.imageSize := by decide

/-- V79's word at another address writes its four pairs, the first store out of bounds none. -/
theorem test_trace_memory_writes :
    ((stepTrace (vector .defaults 0x0020A023#32 0#32 [(1, 8#32), (2, 0x81FF7F80#32)] [])).map fun r => r.memoryWrites) =
      some [(8, 0x80#8), (9, 0x7F#8), (10, 0xFF#8), (11, 0x81#8)] ∧
    ((stepTrace (wBounds 0x0041A023#32)).map fun r => r.memoryWrites) = some [] := by decide

/-- A store in bounds, one out of bounds, an ALU instruction and an undecodable word. -/
theorem test_witness_TraceRecordDescribesTheCycle :
    (Fetches w0 0x002081B3#32 ∧ ∃ t, step w0 = .next t) ∧
    (Fetches (vector .defaults 0x00208423#32 0#32 [] []) 0x00208423#32 ∧
      ∃ t, step (vector .defaults 0x00208423#32 0#32 [] []) = .next t) ∧
    (Fetches (vector .defaults 0x0F#32 0#32 [] []) 0x0F#32 ∧ ∃ t, step (vector .defaults 0x0F#32 0#32 [] []) = .next t) ∧
    (Fetches (wBounds 0x0041A023#32) 0x0041A023#32 ∧ ∃ t, step (wBounds 0x0041A023#32) = .next t) :=
  ⟨⟨fetches_of (by decide) (by decide) (by decide), next_exists (by decide)⟩,
    ⟨fetches_of (by decide) (by decide) (by decide), next_exists (by decide)⟩,
    ⟨fetches_of (by decide) (by decide) (by decide), next_exists (by decide)⟩,
    ⟨fetches_of (by decide) (by decide) (by decide), next_exists (by decide)⟩⟩

/-- V40's NOP, which warns, and V2's ADD, which does not (E2, R34). -/
theorem test_witness_WarningExactlyOnLockedDestination :
    (Fetches (vector .defaults 0x13#32 0#32 [] []) 0x13#32 ∧ decode 0x13#32 = .ok (.addi 0 0 0#32) ∧
      ∃ t, step (vector .defaults 0x13#32 0#32 [] []) = .next t) ∧
    (stepTrace (vector .defaults 0x13#32 0#32 [] [])).map (fun r => r.lockedWriteWarning) = some true ∧
    (stepTrace w0).map (fun r => r.lockedWriteWarning) = some false :=
  ⟨⟨fetches_of (by decide) (by decide) (by decide), by rfl, next_exists (by decide)⟩, by decide, by decide⟩

/-- V109: `lw x0,0(x1)` with x1 = 0x00100000 halts, so it attempts no write. -/
def wLockedFault : State := vector .defaults 0x0000A003#32 0#32 [(1, 0x00100000#32)] []

theorem test_witness_WarningExactlyOnLockedDestination_fault :
    Fetches wLockedFault 0x0000A003#32 ∧ decode 0x0000A003#32 = .ok (.lw 0 1 0#32) ∧
    wLockedFault.isLocked 0 = true ∧
    (∃ t, step wLockedFault = .next t ∧ decide (t.haltCause = .memoryBoundsFault ∧ t.halted = true) = true) ∧
    (stepTrace wLockedFault).map (fun r => r.lockedWriteWarning) = some false :=
  ⟨fetches_of (by decide) (by decide) (by decide), by rfl, by decide, next_of (by decide), by decide⟩

/-- Both values of `rst`, a valid and an invalid instruction port, a state with a word at its pc, and
a halted one for the codes. -/
theorem test_witness_ClockEdgeResetsOrRunsACycle :
    (Inputs.mk true false 0#32).rst = true ∧ (Inputs.mk false true 0x13#32).rst = false ∧
    (Inputs.mk false false 0x13#32).imemValid = false ∧ w0.fetch = some 0x002081B3#32 ∧
    w0.haltCause = .none ∧ wHalted.haltCause = .decodeFault := by decide

/-- One halting step of each cause, and its code on the port (R241). -/
theorem test_halt_cause_port :
    (((after (vector .defaults 0x73#32 0#32 [] [])).map fun t => (t.outputs ⟨false, false, 0#32⟩).haltCause) = some 1#3) ∧
    (((after (initialState (small 16 []))).map fun t => (t.outputs ⟨false, false, 0#32⟩).haltCause) = some 2#3) ∧
    ((wHalted.outputs ⟨false, false, 0#32⟩).haltCause = 3#3) ∧
    (((after (wBounds 0x00008203#32)).map fun t => (t.outputs ⟨false, false, 0#32⟩).haltCause) = some 4#3) ∧
    (((after (initialState { small 16 [] with maxSteps := some 0 })).map fun t =>
      (t.outputs ⟨false, false, 0#32⟩).haltCause) = some 5#3) := by decide

/-- F15: seeding, with `DMEM_INIT` below and above the image. -/
def wSeeded : Config :=
  { small 16 [0x00002183#32] with seedDmem := true, dmemInit := [(0, 0xAA#8), (9, 0xBB#8), (9, 0xCC#8), (99, 1#8)] }

theorem test_witness_ResetInitialisesEveryPieceOfState :
    (∃ t, resetWith wSeeded = .next t) ∧ ∃ t, resetWith { wSeeded with seedDmem := false } = .next t :=
  ⟨next_exists (by decide), next_exists (by decide)⟩

/-- R81 and R12: image bytes 83 21 00 00, `DMEM_INIT` elsewhere, its first pair for an address. -/
theorem test_reset_seeds_data_memory :
    [0, 1, 9, 15].map (initialState wSeeded).readByte = [0x83#8, 0x21#8, 0xBB#8, 0#8] ∧
    [0, 1, 9, 15].map (initialState { wSeeded with seedDmem := false }).readByte = [0xAA#8, 0#8, 0xBB#8, 0#8] := by
  decide

theorem test_witness_ExecutionStartsAtImageOffsetZero :
    (∃ t, resetWith wSeeded = .next t) ∧ wSeeded.maxSteps ≠ some 0 ∧ wSeeded.imageSize = 4 ∧
    (∃ t, resetWith { Config.defaults with image := [0x13#8, 0#8, 0#8] } = .next t) ∧
    Config.imageSize { Config.defaults with image := [0x13#8, 0#8, 0#8] } = 3 :=
  ⟨next_exists (by decide), by decide, by decide, next_exists (by decide), by decide⟩

theorem test_witness_ResetEstablishesTheInvariant : ∃ t, resetWith wSeeded = .next t := next_exists (by decide)

/-- R282's limits: a seed exactly as large as DataMemory is accepted, one byte more is refused. -/
theorem test_configuration_limits :
    configProblem { small 4 [1#32] with seedDmem := true } = none ∧
    configProblem { small 3 [1#32] with seedDmem := true } = some .imageTooLarge ∧
    configProblem (small 0 []) = some .dmemSizeOutOfRange ∧
    configProblem (small (2 ^ 32) []) = none ∧
    configProblem (small (2 ^ 32 + 1) []) = some .dmemSizeOutOfRange := by decide

/-- A running state that is no reset state, about to store. -/
def wInv : State := preset { small 16 [0x00208423#32] with maxSteps := some 3 } 0#32 [(2, 0x44#32)] [(8, 0x80#8)]

theorem test_witness_EveryCycleKeepsTheInvariant : Inv wInv ∧ ∃ t, step wInv = .next t :=
  ⟨⟨by decide, by decide, by decide, by decide, by decide, by decide, by decide,
    fun h => absurd h (by decide), fun _ _ => Nat.zero_le _, by decide⟩, next_exists (by decide)⟩

/-- The bounds of every immediate, and the bit that tells SRLI from SRAI. -/
theorem test_witness_DecodeOfEncodeIsTheInstruction :
    (Instr.addi 31 0 0xFFFFF800#32).wellFormed = true ∧ (Instr.jalr 1 2 2047#32 7#3).wellFormed = true ∧
    (Instr.srli 1 2 0xFFFFFBFF#32).wellFormed = true ∧ (Instr.srai 1 2 0xFFFFFFFF#32).wellFormed = true ∧
    (Instr.sw 1 2 0#32).wellFormed = true ∧ (Instr.sb 1 2 4095#32).wellFormed = true ∧
    (Instr.bgeu 1 2 0xFFFFF000#32).wellFormed = true ∧ (Instr.beq 1 2 4094#32).wellFormed = true ∧
    (Instr.lui 1 0xFFFFF000#32).wellFormed = true ∧ (Instr.jal 1 1048574#32).wellFormed = true ∧
    (Instr.ecall 0x1FFFFFF#25).wellFormed = true ∧ (Instr.and 1 2 3 0x7F#7).wellFormed = true := by decide

theorem test_witness_EncodeOfDecodeIsTheWord : decode 0xFE20AE23#32 = .ok (.sw 1 2 0x00000FFC#32) := by rfl

theorem test_witness_DecoderAgreesWithTheOpcodeTable :
    (⟨.sra, 0xFE00707F#32, 0x40005033#32⟩ : OpcodeRow) ∈ opcodeTable ∧
    0x4020D1B3#32 &&& 0xFE00707F#32 = 0x40005033#32 := by decide

/-! ### The host's placing of a word -/

/-- A word placed after reset is the next one executed. -/
theorem test_withFetchWord_runs_the_word :
    (after (State.reset.withFetchWord 32 0x7FF00093)).map (fun t => (t.readReg 1, t.pc, t.steps)) =
      some (2047#32, 4#32, 1) := by decide

/-- Also in a halted engine and at a reached step limit. -/
theorem test_withFetchWord_wakes_the_engine :
    (after (wHalted.withFetchWord 32 0x7FF00093)).map (fun t => (t.readReg 1, t.pc, t.halted)) =
      some (2047#32, 8#32, false) ∧
    (after ((initialState { small 16 [] with maxSteps := some 0 }).withFetchWord 32 0x7FF00093)).map
      (fun t => (t.readReg 1, t.halted)) = some (2047#32, false) := by decide

end Sys2Proof.Tests
end

section
/-! SUPPORT. The stored cells of the register file through a cycle (10_state.md R32, R34, R35): no
ending of an instruction or of a cycle changes a lock flag, nor the stored value of a locked
register. Register 0 is locked in every state, so its cell is one of those. -/

namespace Sys2Proof.Machine

open Sys2Proof.Safety

/-! ### Writes and decode faults -/

/-- The lock check guards the stored value of every locked register, not only of the one written. -/
theorem State.rfValue_writeReg_of_locked {s : State} {r : Reg} (hr : s.isLocked r = true)
    (rd : Reg) (v : Word) : (s.writeReg rd v).rfValue[r.val] = s.rfValue[r.val] := by
  rcases State.writeReg_cases s rd v with ⟨-, h⟩ | ⟨hrd, h⟩
  · rw [h]
  · have hne : rd.val ≠ r.val := fun he => by
      rw [Fin.ext he, hr] at hrd
      cases hrd
    simp [h, hne]

@[simp] theorem State.decodeFault_rfValue (s : State) (w : Word) : (s.decodeFault w).rfValue = s.rfValue := by
  unfold State.decodeFault; split <;> rfl

@[simp] theorem State.decodeFault_rfLocked (s : State) (w : Word) : (s.decodeFault w).rfLocked = s.rfLocked := by
  unfold State.decodeFault; split <;> rfl

/-! ### Instructions -/

theorem Ending.rfLocked_eq {i : Instr} {s t : State} (h : Ending i s t) : t.rfLocked = s.rfLocked := by
  cases h <;> simp

theorem Ending.rfValue_of_locked {i : Instr} {s t : State} (h : Ending i s t) {r : Reg}
    (hr : s.isLocked r = true) : t.rfValue[r.val] = s.rfValue[r.val] := by
  cases h with
  | wrote rd v => exact State.rfValue_writeReg_of_locked hr rd v
  | jumped rd p => exact State.rfValue_writeReg_of_locked hr rd (s.pc + 4#32)
  | branched | stored | outOfBounds | ecall => rfl

/-! ### Cycles -/

theorem CycleEnding.rfLocked_eq {f : Option Word} {s t : State} (h : CycleEnding f s t) :
    t.rfLocked = s.rfLocked := by
  cases h with
  | idle | limit | stream => rfl
  | undecodable w => exact s.decodeFault_rfLocked w
  | ran w i u _ _ _ _ he => split <;> exact he.rfLocked_eq

theorem CycleEnding.rfValue_of_locked {f : Option Word} {s t : State} (h : CycleEnding f s t) {r : Reg}
    (hr : s.isLocked r = true) : t.rfValue[r.val] = s.rfValue[r.val] := by
  cases h with
  | idle | limit | stream => rfl
  | undecodable w => rw [s.decodeFault_rfValue w]
  | ran w i u _ _ _ _ he => split <;> exact he.rfValue_of_locked hr

theorem rfLocked_of_step {s t : State} (h : step s = .next t) : t.rfLocked = s.rfLocked :=
  (ending_of_step h).rfLocked_eq

theorem rfValue_of_step_of_locked {s t : State} (h : step s = .next t) {r : Reg}
    (hr : s.isLocked r = true) : t.rfValue[r.val] = s.rfValue[r.val] :=
  (ending_of_step h).rfValue_of_locked hr

/-! ### Reset -/

/-- R50: every register is 0 after reset. -/
@[simp] theorem initialState_rfValue (c : Config) (r : Reg) : (initialState c).rfValue[r.val] = 0#32 :=
  Vector.getElem_replicate r.isLt

/-- R13: the flags of `LOCK_INIT`, bit 0 counted as 1. -/
@[simp] theorem initialState_rfLocked (c : Config) (r : Reg) :
    (initialState c).rfLocked[r.val] = (r.val == 0 || c.lockInit.getLsbD r.val) :=
  Vector.getElem_ofFn r.isLt

/-! ### Register 0 -/

/-- Settles O40: register 0 is a locked register, so the facts about locked registers are facts about
it. -/
theorem registerZeroIsHardwired : Obligations.RegisterZeroIsHardwired := by
  unfold Obligations.RegisterZeroIsHardwired
  refine ⟨fun s => ⟨s.readReg_zero, s.isLocked_zero, s.writeReg_zero⟩, fun c t h => ?_, fun s t hv hl h => ?_⟩
  · obtain ⟨-, rfl⟩ := resetWith_eq_next.1 h
    exact ⟨initialState_rfValue c 0, initialState_rfLocked c 0⟩
  · have hvalue : t.rfValue[0] = s.rfValue[0] := rfValue_of_step_of_locked h s.isLocked_zero
    have hlock : t.rfLocked = s.rfLocked := rfLocked_of_step h
    exact ⟨hvalue.trans hv, hlock ▸ hl⟩

end Sys2Proof.Machine
end

section
/-! SUPPORT. DataMemory and the image (20_memory.md R62, R64, R69): the bytes of the values that
`MemRead`, `MemWrite` and the fetch carry, and which parts of the state the instructions do not look at. -/

namespace Sys2Proof.Machine

open Sys2Proof.Safety

/-! ### The bytes of a value -/

/-- `byteOf_wordOfBytes`, with the four bytes as a function of their offset. -/
theorem byteOf_wordOfBytes_of_lt (b : Nat → Byte) {k : Nat} (hk : k < 4) :
    byteOf (wordOfBytes (b 0) (b 1) (b 2) (b 3)) k = b k := by
  obtain ⟨h0, h1, h2, h3⟩ := byteOf_wordOfBytes (b 0) (b 1) (b 2) (b 3)
  obtain rfl | rfl | rfl | rfl : k = 0 ∨ k = 1 ∨ k = 2 ∨ k = 3 := by omega
  exacts [h0, h1, h2, h3]

/-- Widening a value keeps its bytes. -/
theorem byteOf_setWidth {n : Nat} (x : BitVec n) {k : Nat} (hk : 8 * k + 8 ≤ n) (hn : n ≤ 32) :
    byteOf (x.setWidth 32) k = x.extractLsb' (8 * k) 8 := by
  apply BitVec.eq_of_getLsbD_eq
  intro i hi
  simp only [byteOf, BitVec.getLsbD_extractLsb', BitVec.getLsbD_setWidth, show 8 * k + i < 32 by omega,
    decide_true, Bool.true_and]

/-- Byte k of the value read is the byte at address + k (R65). -/
theorem Memory.byteOf_readValue (m : Memory) (a : Nat) (n : Width) {k : Nat} (hk : k < n.bytes) :
    byteOf (Memory.readValue m a n) k = Memory.read m (a + k) := by
  cases n with
  | byte =>
    obtain rfl : k = 0 := by simpa [Width.bytes] using hk
    rw [Memory.readValue_byte, byteOf_setWidth _ (by decide) (by decide)]
    exact BitVec.extractLsb'_eq_self
  | half =>
    have hk : k = 0 ∨ k = 1 := by simp only [Width.bytes] at hk; omega
    rw [Memory.readValue_half]
    rcases hk with rfl | rfl
    · rw [byteOf_setWidth _ (by decide) (by decide), extract_append_low _ _ (by decide)]
      exact BitVec.extractLsb'_eq_self
    · rw [byteOf_setWidth _ (by decide) (by decide), extract_append_high _ _ (by decide)]
      exact BitVec.extractLsb'_eq_self
  | word =>
    rw [Memory.readValue_word]
    exact byteOf_wordOfBytes_of_lt (fun k => Memory.read m (a + k)) hk

section

variable {m : Memory} {a : Nat} {v : Word} (h : ∀ k < 4, Memory.read m (a + k) = byteOf v k)
include h

/-! R69: what is read of a memory that holds the four bytes of a word. -/

theorem Memory.readValue_byte_of_bytes {k : Nat} (hk : k < 4) :
    Memory.readValue m (a + k) .byte = (v.extractLsb' (8 * k) 8).setWidth 32 := by
  rw [Memory.readValue_byte, h k hk, byteOf]

theorem Memory.readValue_half_of_bytes {k : Nat} (hk : k < 2) :
    Memory.readValue m (a + 2 * k) .half = (v.extractLsb' (16 * k) 16).setWidth 32 := by
  rw [Memory.readValue_half, Nat.add_assoc, h (2 * k) (by omega), h (2 * k + 1) (by omega), byteOf_append,
    ← Nat.mul_assoc]

theorem Memory.readValue_word_of_bytes : Memory.readValue m a .word = v :=
  calc Memory.readValue m a .word
      = Memory.readValue (Memory.writeAll m (storeCells a .word v)) a .word :=
        Memory.readValue_congr .word fun k hk => (h k hk).trans (Memory.read_store m a .word v hk).symm
    _ = v := Memory.readValue_store_word m a v

end

/-! ### MemRead and MemWrite that answer -/

theorem State.memRead_eq_some_iff {s : State} {A v : Word} {n : Width} :
    s.memRead A n = some v ↔
      A.toNat + n.bytes ≤ s.cfg.dmemSize ∧ v = Memory.readValue s.dmem A.toNat n := by
  simp [State.memRead, State.inBounds, eq_comm]

/-- A `MemWrite` that answers was in bounds and left the bytes of its value (R66). -/
theorem State.bytes_of_memWrite {s t : State} {A v : Word} {n : Width} (h : s.memWrite A n v = some t) :
    A.toNat + n.bytes ≤ s.cfg.dmemSize ∧ t.cfg = s.cfg ∧
      ∀ k < n.bytes, t.readByte (A.toNat + k) = byteOf v k := by
  have hb : A.toNat + n.bytes ≤ s.cfg.dmemSize := by
    by_contra hb
    rw [State.memWrite_eq_none_iff.2 (Nat.lt_of_not_le hb)] at h
    cases h
  rw [State.memWrite_of_inBounds v hb] at h
  cases h
  exact ⟨hb, rfl, fun k hk => Memory.read_store s.dmem A.toNat n v hk⟩

/-- `MemRead` at an offset that stays inside DataMemory; DMEM_SIZE ≤ 2^32 keeps it from wrapping. -/
theorem State.memRead_add {s : State} {A : Word} {k : Nat} {n : Width} (hd : s.cfg.dmemSize ≤ 2 ^ 32)
    (hb : A.toNat + k + n.bytes ≤ s.cfg.dmemSize) :
    s.memRead (A + BitVec.ofNat 32 k) n = some (Memory.readValue s.dmem (A.toNat + k) n) := by
  have hn : 0 < n.bytes := by cases n <;> decide
  have ha : (A + BitVec.ofNat 32 k).toNat = A.toNat + k := toNat_add_ofNat (by omega)
  exact State.memRead_eq_some_iff.2 ⟨by rwa [ha], by rw [ha]⟩

/-- SW, then LW at the same address. -/
theorem exec_lw_of_exec_sw {s t : State} {rs1 rs2 rd rb : Reg} {imm imm' : Word}
    (hb : (s.effAddr rs1 imm).toNat + 4 ≤ s.cfg.dmemSize) (hx : exec (.sw rs1 rs2 imm) s = .next t)
    (ha : t.effAddr rb imm' = s.effAddr rs1 imm) (hl : s.isLocked rd = false) :
    ∃ u, exec (.lw rd rb imm') t = .next u ∧ u.readReg rd = s.readReg rs2 := by
  obtain ⟨t', ht', hs⟩ := storeValue_spec (n := .word) (rs2 := rs2) (encode (.sw rs1 rs2 imm)) hb
  cases hx.symm.trans ht'
  obtain ⟨u, hu, hw⟩ := loadValue_spec (n := .word) (rd := rd) (encode (.lw rd rb imm')) .sign
    (show (t.effAddr rb imm').toNat + 4 ≤ t.cfg.dmemSize by rwa [ha, hs.cfg])
  refine ⟨u, hu, hw.dest.trans ?_⟩
  rw [hs.registers.locks, hl, ha, Memory.readValue_word_of_bytes hs.stored]
  rfl

/-- Settles O14: a value is its bytes, so a store is read back by its bytes whatever the width. -/
theorem mixedWidthAccessesSeeTheSameBytes : Obligations.MixedWidthAccessesSeeTheSameBytes := by
  unfold Obligations.MixedWidthAccessesSeeTheSameBytes
  refine ⟨fun s t A W hd h => ?_, fun s A v n h k hk => ?_,
    fun s t rs1 rs2 rd rb imm imm' hb hx ha hl => exec_lw_of_exec_sw hb hx ha hl⟩
  · obtain ⟨hb, hcfg, hbytes⟩ := State.bytes_of_memWrite h
    rw [← hcfg] at hd hb
    simp only [Width.bytes] at hb hbytes
    refine ⟨?_, fun k hk => ?_, fun k hk => ?_⟩
    · exact State.memRead_eq_some_iff.2 ⟨hb, (Memory.readValue_word_of_bytes hbytes).symm⟩
    · rw [State.memRead_add hd (by simp only [Width.bytes]; omega), Memory.readValue_byte_of_bytes hbytes hk]
    · rw [State.memRead_add hd (by simp only [Width.bytes]; omega), Memory.readValue_half_of_bytes hbytes hk]
  · obtain ⟨-, rfl⟩ := State.memRead_eq_some_iff.1 h
    exact Memory.byteOf_readValue s.dmem A.toNat n hk

/-! ### The fetch -/

/-- Settles O42: the word fetched is the word of the four image bytes at pc, which the image lists. -/
theorem fetchIsLittleEndian : Obligations.FetchIsLittleEndian := by
  unfold Obligations.FetchIsLittleEndian
  intro s h
  obtain ⟨w, hw⟩ := State.fetch_of_le h
  refine ⟨w, hw, fun k hk => ?_⟩
  obtain ⟨-, rfl⟩ := State.fetch_eq_some hw
  have hlt : s.pc.toNat + k < s.cfg.image.length := by simp only [Config.imageSize] at h; omega
  have hbyte := byteOf_wordOfBytes_of_lt (fun k => s.cfg.image.getD (s.pc.toNat + k) 0#8) hk
  rw [byteOf] at hbyte
  rw [List.getElem?_eq_getElem hlt, ← List.getD_eq_getElem _ 0#8 hlt]
  exact congrArg some hbyte.symm

/-! ### What changes DataMemory -/

@[simp] theorem State.decodeFault_readByte (s : State) (w : Word) (a : Nat) :
    (s.decodeFault w).readByte a = s.readByte a := by
  unfold State.decodeFault; split <;> rfl

theorem Ending.readByte_of_storeOf_none {i : Instr} {s t : State} (h : Ending i s t)
    (hs : storeOf i = none) (a : Nat) : t.readByte a = s.readByte a := by
  cases h with
  | wrote rd v => simp
  | jumped rd p => simp
  | stored n rs1 rs2 imm hs' => rw [hs] at hs'; cases hs'
  | branched | outOfBounds | ecall => rfl

/-- Only the ending `ran`, with a store, changes a byte of DataMemory. -/
theorem CycleEnding.stores_of_readByte_ne {f : Option Word} {s t : State} (h : CycleEnding f s t)
    {a : Nat} (ha : t.readByte a ≠ s.readByte a) :
    ∃ w i n rs1 rs2 imm, s.halted = false ∧ s.stepLimitReached = false ∧ f = some w ∧
      decode w = .ok i ∧ Stores i n rs1 rs2 imm := by
  cases h with
  | idle | limit | stream => exact absurd rfl ha
  | undecodable w => exact absurd (s.decodeFault_readByte w a) ha
  | ran w i u hh hl hf hd he =>
    cases hs : storeOf i with
    | none =>
      have hu : u.readByte a = s.readByte a := he.readByte_of_storeOf_none hs a
      refine absurd ?_ ha
      split <;> exact hu
    | some q =>
      obtain ⟨n, rs1, rs2, imm⟩ := q
      exact ⟨w, i, n, rs1, rs2, imm, hh, hl, hf, hd, storeOf_eq_some.1 hs⟩

/-! ### Loads and stores as one family -/

theorem exec_of_stores {i : Instr} {n : Width} {rs1 rs2 : Reg} {imm : Word} (h : Stores i n rs1 rs2 imm)
    (s : State) : exec i s = storeValue (encode i) n rs1 rs2 imm s := by
  cases n <;> cases h <;> rfl

theorem exec_of_loads {i : Instr} {n : Width} {rd rs1 : Reg} {imm : Word} (h : Loads i n rd rs1 imm) :
    ∃ e, ∀ s, exec i s = loadValue (encode i) n e rd rs1 imm s := by
  cases n with
  | byte =>
    rcases h with rfl | rfl
    · exact ⟨.sign, fun _ => rfl⟩
    · exact ⟨.zero, fun _ => rfl⟩
  | half =>
    rcases h with rfl | rfl
    · exact ⟨.sign, fun _ => rfl⟩
    · exact ⟨.zero, fun _ => rfl⟩
  | word =>
    cases h
    exact ⟨.sign, fun _ => rfl⟩

theorem mnemonic_of_accesses {i : Instr} {n : Width} {rs1 : Reg} {imm : Word} (h : Accesses i n rs1 imm) :
    i.mnemonic ∈ [Mnemonic.sb, .sh, .sw, .lb, .lh, .lw, .lbu, .lhu] := by
  obtain ⟨rs2, h⟩ | ⟨rd, h⟩ := h
  · cases n <;> cases h <;> simp [Instr.mnemonic]
  · cases n with
    | byte => rcases h with rfl | rfl <;> simp [Instr.mnemonic]
    | half => rcases h with rfl | rfl <;> simp [Instr.mnemonic]
    | word => cases h; simp [Instr.mnemonic]

/-! ### Changes of the state that instructions do not notice -/

/-- `f` leaves alone what an instruction other than a load or store looks at, and commutes with what
such an instruction does. -/
structure Unnoticed (f : State → State) : Prop where
  readReg : ∀ s r, (f s).readReg r = s.readReg r
  pc : ∀ s, (f s).pc = s.pc
  writeReg : ∀ s r v, (f s).writeReg r v = f (s.writeReg r v)
  setPc : ∀ s p, (f s).setPc p = f (s.setPc p)
  haltWith : ∀ s c w a, (f s).haltWith c w a = f (s.haltWith c w a)

namespace Unnoticed

variable {f : State → State} {s t : State}

theorem writeResult_next (hf : Unnoticed f) {rd : Reg} {v v' : Word} (h : writeResult rd v s = .next t)
    (hv : v' = v) : writeResult rd v' (f s) = .next (f t) := by
  rw [writeResult_eq] at h ⊢
  cases h
  rw [hv, hf.writeReg, hf.pc, hf.setPc]

theorem branchOn_next (hf : Unnoticed f) {c c' : Bool} {imm : Word} (h : branchOn c imm s = .next t)
    (hc : c' = c) : branchOn c' imm (f s) = .next (f t) := by
  rw [branchOn_eq] at h ⊢
  cases h
  rw [hc, hf.pc, hf.setPc]

theorem jumpAndLink_next (hf : Unnoticed f) {rd : Reg} {p p' : Word} (h : jumpAndLink rd p s = .next t)
    (hp : p' = p) : jumpAndLink rd p' (f s) = .next (f t) := by
  cases h
  rw [jumpAndLink, hp, hf.pc, hf.writeReg, hf.setPc]

theorem exec_next_of_not_accesses (hf : Unnoticed f) {i : Instr} (hi : ∀ n rs1 imm, ¬ Accesses i n rs1 imm)
    (h : exec i s = .next t) : exec i (f s) = .next (f t) := by
  cases i with
  | add | sub | sll | slt | sltu | xor | srl | sra | or | and
  | addi | slli | slti | sltiu | xori | srli | srai | ori | andi =>
    exact hf.writeResult_next h (by simp only [hf.readReg])
  | auipc => exact hf.writeResult_next h (by rw [hf.pc])
  | lui => exact hf.writeResult_next h rfl
  | beq | bne | blt | bge | bltu | bgeu => exact hf.branchOn_next h (by simp only [hf.readReg])
  | jal => exact hf.jumpAndLink_next h (by simp only [State.pcRelative, hf.pc])
  | jalr => exact hf.jumpAndLink_next h (by simp only [State.jalrTarget, hf.readReg])
  | ecall rest =>
    cases h
    exact congrArg _ (hf.haltWith s _ _ _)
  | sb rs1 rs2 imm => exact absurd (.inl ⟨rs2, rfl⟩) (hi .byte rs1 imm)
  | sh rs1 rs2 imm => exact absurd (.inl ⟨rs2, rfl⟩) (hi .half rs1 imm)
  | sw rs1 rs2 imm => exact absurd (.inl ⟨rs2, rfl⟩) (hi .word rs1 imm)
  | lb rd rs1 imm => exact absurd (.inr ⟨rd, .inl rfl⟩) (hi .byte rs1 imm)
  | lbu rd rs1 imm => exact absurd (.inr ⟨rd, .inr rfl⟩) (hi .byte rs1 imm)
  | lh rd rs1 imm => exact absurd (.inr ⟨rd, .inl rfl⟩) (hi .half rs1 imm)
  | lhu rd rs1 imm => exact absurd (.inr ⟨rd, .inr rfl⟩) (hi .half rs1 imm)
  | lw rd rs1 imm => exact absurd (.inr ⟨rd, rfl⟩) (hi .word rs1 imm)

theorem effAddr (hf : Unnoticed f) (rs1 : Reg) (imm : Word) : (f s).effAddr rs1 imm = s.effAddr rs1 imm := by
  rw [State.effAddr, hf.readReg, State.effAddr]

theorem loadValue_next (hf : Unnoticed f) (hr : ∀ s A n, (f s).memRead A n = s.memRead A n) {w : Word}
    {n : Width} {e : Extend} {rd rs1 : Reg} {imm : Word} (h : loadValue w n e rd rs1 imm s = .next t) :
    loadValue w n e rd rs1 imm (f s) = .next (f t) := by
  unfold loadValue at h ⊢
  rw [hf.effAddr, hr]
  cases hm : s.memRead (s.effAddr rs1 imm) n with
  | some v =>
    rw [hm] at h
    exact hf.writeResult_next h rfl
  | none =>
    rw [hm] at h
    cases h
    exact congrArg _ (hf.haltWith s _ _ _)

theorem storeValue_next (hf : Unnoticed f) (hw : ∀ s A n v, (f s).memWrite A n v = (s.memWrite A n v).map f)
    {w : Word} {n : Width} {rs1 rs2 : Reg} {imm : Word} (h : storeValue w n rs1 rs2 imm s = .next t) :
    storeValue w n rs1 rs2 imm (f s) = .next (f t) := by
  unfold storeValue at h ⊢
  rw [hf.effAddr, hf.readReg, hw]
  cases hm : s.memWrite (s.effAddr rs1 imm) n (s.readReg rs2) with
  | some u =>
    rw [hm] at h
    cases h
    simp only [Option.map_some, State.advancePc, hf.pc, hf.setPc]
  | none =>
    rw [hm] at h
    cases h
    exact congrArg _ (hf.haltWith s _ _ _)

/-- When loads and stores do not notice `f` either, no instruction does. -/
theorem exec_next (hf : Unnoticed f) (hr : ∀ s A n, (f s).memRead A n = s.memRead A n)
    (hw : ∀ s A n v, (f s).memWrite A n v = (s.memWrite A n v).map f) {i : Instr}
    (h : exec i s = .next t) : exec i (f s) = .next (f t) := by
  by_cases hi : ∃ n rs1 imm, Accesses i n rs1 imm
  · obtain ⟨n, rs1, imm, ⟨rs2, hs⟩ | ⟨rd, hl⟩⟩ := hi
    · rw [exec_of_stores hs] at h ⊢
      exact hf.storeValue_next hw h
    · obtain ⟨e, he⟩ := exec_of_loads hl
      rw [he] at h ⊢
      exact hf.loadValue_next hr h
  · exact hf.exec_next_of_not_accesses (fun n rs1 imm ha => hi ⟨n, rs1, imm, ha⟩) h

end Unnoticed

/-! ### DataMemory and the image, unnoticed -/

theorem unnoticed_setDmem (m : Memory) : Unnoticed (State.setDmem · m) where
  readReg _ _ := rfl
  pc _ := rfl
  writeReg s r v := by
    unfold State.writeReg
    rw [State.setDmem_isLocked]
    split <;> rfl
  setPc _ _ := rfl
  haltWith _ _ _ _ := rfl

/-- The image replaced. -/
def State.setImage (s : State) (img : List Byte) : State := { s with cfg := { s.cfg with image := img } }

@[simp] theorem State.setImage_isLocked (s : State) (img : List Byte) (r : Reg) :
    (s.setImage img).isLocked r = s.isLocked r := rfl

theorem State.memRead_setImage (s : State) (img : List Byte) (A : Word) (n : Width) :
    (s.setImage img).memRead A n = s.memRead A n := rfl

theorem State.memWrite_setImage (s : State) (img : List Byte) (A : Word) (n : Width) (v : Word) :
    (s.setImage img).memWrite A n v = (s.memWrite A n v).map (State.setImage · img) := by
  rcases Nat.lt_or_ge s.cfg.dmemSize (A.toNat + n.bytes) with h | h
  · rw [State.memWrite_eq_none_iff.2 h]
    exact State.memWrite_eq_none_iff.2 h
  · rw [State.memWrite_of_inBounds v h]
    exact State.memWrite_of_inBounds v h

theorem unnoticed_setImage (img : List Byte) : Unnoticed (State.setImage · img) where
  readReg _ _ := rfl
  pc _ := rfl
  writeReg s r v := by
    unfold State.writeReg
    rw [State.setImage_isLocked]
    split <;> rfl
  setPc _ _ := rfl
  haltWith _ _ _ _ := rfl

theorem exec_setImage {i : Instr} {s t : State} (img : List Byte) (h : exec i s = .next t) :
    exec i (s.setImage img) = .next (t.setImage img) :=
  (unnoticed_setImage img).exec_next (fun s => s.memRead_setImage img) (fun s => s.memWrite_setImage img) h

/-- Settles O38: a byte changes only in the ending of a store; replacing DataMemory is unnoticed by
all but the eight, replacing the image by every instruction. -/
theorem dataMemoryReachedOnlyByLoadsAndStores : Obligations.DataMemoryReachedOnlyByLoadsAndStores := by
  unfold Obligations.DataMemoryReachedOnlyByLoadsAndStores
  refine ⟨fun s t a h ha => ?_, fun i s t m hi h => ?_, fun i s t img h => exec_setImage img h,
    State.setDmem_fetch⟩
  · obtain ⟨w, i, n, rs1, rs2, imm, hh, hl, hf, hd, hs⟩ := (ending_of_step h).stores_of_readByte_ne ha
    refine ⟨w, rs1, rs2, imm, ⟨hh, State.stepLimitReached_eq_false.1 hl, hf⟩, ?_⟩
    cases n with
    | byte => cases hs; exact .inl hd
    | half => cases hs; exact .inr (.inl hd)
    | word => cases hs; exact .inr (.inr hd)
  · exact (unnoticed_setDmem m).exec_next_of_not_accesses (fun n rs1 imm hacc => hi (mnemonic_of_accesses hacc)) h

end Sys2Proof.Machine
end

section
/-! SUPPORT. The words of an instruction (30_encoding.md R118): a word that decodes lies in the row of
its instruction, and so an instruction is encoded by the words of its row alone. -/

namespace Sys2Proof

open Sys2Proof.Safety

/-! ### The four shapes of mask -/

/-- The opcode alone. -/
theorem matches_opcode_iff (w : Word) (op : BitVec 7) :
    w &&& packR 0#7 0 0 0#3 0 0x7F#7 = packR 0#7 0 0 0#3 0 op ↔ opcode w = op := by
  rw [mask_fields]; simp

/-- The opcode and funct3. -/
theorem matches_funct3_iff (w : Word) (f3 : BitVec 3) (op : BitVec 7) :
    w &&& packR 0#7 0 0 7#3 0 0x7F#7 = packR 0#7 0 0 f3 0 op ↔ opcode w = op ∧ funct3 w = f3 := by
  rw [mask_fields, show 7#3 = BitVec.allOnes 3 by decide, BitVec.and_allOnes]; simp

/-- The opcode, funct3 and bit 30 (R109). -/
theorem matches_bit30_iff (w : Word) (b : Bool) (f3 : BitVec 3) (op : BitVec 7) :
    w &&& packR 0x20#7 0 0 7#3 0 0x7F#7 = packR (if b then 0x20#7 else 0#7) 0 0 f3 0 op ↔
      opcode w = op ∧ funct3 w = f3 ∧ w.getLsbD 30 = b := by
  have hbit : ∀ (f7 : BitVec 7) (b : Bool),
      f7 &&& 0x20#7 = (if b then 0x20#7 else 0#7) ↔ f7.getLsbD 5 = b := by decide
  rw [mask_fields, hbit, funct7_bit30, show 7#3 = BitVec.allOnes 3 by decide, BitVec.and_allOnes]

/-- The opcode, funct3 and funct7. -/
theorem matches_funct7_iff (w : Word) (f7 : BitVec 7) (f3 : BitVec 3) (op : BitVec 7) :
    w &&& packR 0x7F#7 0 0 7#3 0 0x7F#7 = packR f7 0 0 f3 0 op ↔
      opcode w = op ∧ funct3 w = f3 ∧ funct7 w = f7 := by
  rw [mask_fields, show 7#3 = BitVec.allOnes 3 by decide, show 0x7F#7 = BitVec.allOnes 7 by decide,
    BitVec.and_allOnes, BitVec.and_allOnes]

/-! ### The row of a word that decodes -/

/-- `w` is a word of the row of `m`. -/
def InRow (w : Word) (m : Mnemonic) : Prop :=
  ∃ mask pattern, ⟨m, mask, pattern⟩ ∈ opcodeTable ∧ w &&& mask = pattern

theorem InRow.of_opcode {w : Word} {op : BitVec 7} (ho : opcode w = op) (m : Mnemonic)
    (hrow : ⟨m, packR 0#7 0 0 0#3 0 0x7F#7, packR 0#7 0 0 0#3 0 op⟩ ∈ opcodeTable) : InRow w m :=
  ⟨_, _, hrow, (matches_opcode_iff w op).2 ho⟩

theorem InRow.of_funct3 {w : Word} {f3 : BitVec 3} {op : BitVec 7} (ho : opcode w = op) (h3 : funct3 w = f3)
    (m : Mnemonic) (hrow : ⟨m, packR 0#7 0 0 7#3 0 0x7F#7, packR 0#7 0 0 f3 0 op⟩ ∈ opcodeTable) : InRow w m :=
  ⟨_, _, hrow, (matches_funct3_iff w f3 op).2 ⟨ho, h3⟩⟩

theorem InRow.of_bit30 {w : Word} {b : Bool} {f3 : BitVec 3} {op : BitVec 7} (ho : opcode w = op)
    (h3 : funct3 w = f3) (hb : w.getLsbD 30 = b) (m : Mnemonic)
    (hrow : ⟨m, packR 0x20#7 0 0 7#3 0 0x7F#7, packR (if b then 0x20#7 else 0#7) 0 0 f3 0 op⟩ ∈ opcodeTable) :
    InRow w m :=
  ⟨_, _, hrow, (matches_bit30_iff w b f3 op).2 ⟨ho, h3, hb⟩⟩

theorem InRow.of_funct7 {w : Word} {f7 : BitVec 7} {f3 : BitVec 3} {op : BitVec 7} (ho : opcode w = op)
    (h3 : funct3 w = f3) (h7 : funct7 w = f7) (m : Mnemonic)
    (hrow : ⟨m, packR 0x7F#7 0 0 7#3 0 0x7F#7, packR f7 0 0 f3 0 op⟩ ∈ opcodeTable) : InRow w m :=
  ⟨_, _, hrow, (matches_funct7_iff w f7 f3 op).2 ⟨ho, h3, h7⟩⟩

/-- The funct3 left to the last branch of formats R and I. -/
theorem eq_seven_of_ne {f : BitVec 3} (h0 : f ≠ 0#3) (h1 : f ≠ 1#3) (h2 : f ≠ 2#3) (h3 : f ≠ 3#3)
    (h4 : f ≠ 4#3) (h5 : f ≠ 5#3) (h6 : f ≠ 6#3) : f = 7#3 := by
  bv_omega

section

variable {w : Word} {i : Instr}

theorem inRow_of_decodeR (ho : opcode w = 0x33#7) (h : decodeR w = .ok i) : InRow w i.mnemonic := by
  unfold decodeR at h
  split_ifs at h with h0 h00 h20 h1 h2 h3 h4 h5 h00 h20 h6 <;> cases h
  · exact .of_funct7 ho h0 h00 .add (by decide)
  · exact .of_funct7 ho h0 h20 .sub (by decide)
  · exact .of_funct3 ho h1 .sll (by decide)
  · exact .of_funct3 ho h2 .slt (by decide)
  · exact .of_funct3 ho h3 .sltu (by decide)
  · exact .of_funct3 ho h4 .xor (by decide)
  · exact .of_funct7 ho h5 h00 .srl (by decide)
  · exact .of_funct7 ho h5 h20 .sra (by decide)
  · exact .of_funct3 ho h6 .or (by decide)
  · exact .of_funct3 ho (eq_seven_of_ne h0 h1 h2 h3 h4 h5 h6) .and (by decide)

theorem inRow_of_decodeI (ho : opcode w = 0x13#7) (h : decodeI w = .ok i) : InRow w i.mnemonic := by
  unfold decodeI at h
  split_ifs at h with h0 h1 h2 h3 h4 h5 hb h6 <;> cases h
  · exact .of_funct3 ho h0 .addi (by decide)
  · exact .of_funct3 ho h1 .slli (by decide)
  · exact .of_funct3 ho h2 .slti (by decide)
  · exact .of_funct3 ho h3 .sltiu (by decide)
  · exact .of_funct3 ho h4 .xori (by decide)
  · exact .of_bit30 ho h5 hb .srli (by decide)
  · exact .of_bit30 ho h5 (Bool.eq_true_of_not_eq_false hb) .srai (by decide)
  · exact .of_funct3 ho h6 .ori (by decide)
  · exact .of_funct3 ho (eq_seven_of_ne h0 h1 h2 h3 h4 h5 h6) .andi (by decide)

theorem inRow_of_decodeS (ho : opcode w = 0x23#7) (h : decodeS w = .ok i) : InRow w i.mnemonic := by
  unfold decodeS at h
  split_ifs at h with h0 h1 h2 <;> cases h
  · exact .of_funct3 ho h0 .sb (by decide)
  · exact .of_funct3 ho h1 .sh (by decide)
  · exact .of_funct3 ho h2 .sw (by decide)

theorem inRow_of_decodeL (ho : opcode w = 0x03#7) (h : decodeL w = .ok i) : InRow w i.mnemonic := by
  unfold decodeL at h
  split_ifs at h with h0 h1 h2 h4 h5 <;> cases h
  · exact .of_funct3 ho h0 .lb (by decide)
  · exact .of_funct3 ho h1 .lh (by decide)
  · exact .of_funct3 ho h2 .lw (by decide)
  · exact .of_funct3 ho h4 .lbu (by decide)
  · exact .of_funct3 ho h5 .lhu (by decide)

theorem inRow_of_decodeU (ho : opcode w = 0x37#7 ∨ opcode w = 0x17#7) (h : decodeU w = .ok i) :
    InRow w i.mnemonic := by
  unfold decodeU at h
  split_ifs at h with h37 <;> cases h
  · exact .of_opcode h37 .lui (by decide)
  · exact .of_opcode (ho.resolve_left h37) .auipc (by decide)

theorem inRow_of_decodeB (ho : opcode w = 0x63#7) (h : decodeB w = .ok i) : InRow w i.mnemonic := by
  unfold decodeB at h
  split_ifs at h with h0 h1 h4 h5 h6 h7 <;> cases h
  · exact .of_funct3 ho h0 .beq (by decide)
  · exact .of_funct3 ho h1 .bne (by decide)
  · exact .of_funct3 ho h4 .blt (by decide)
  · exact .of_funct3 ho h5 .bge (by decide)
  · exact .of_funct3 ho h6 .bltu (by decide)
  · exact .of_funct3 ho h7 .bgeu (by decide)

/-- Every word that decodes lies in the row of its instruction. -/
theorem inRow_of_decode (h : decode w = .ok i) : InRow w i.mnemonic := by
  obtain ⟨hr, hi, hs, hl, hu, hb, hj, hjalr, hsys⟩ := Machine.formatOf_cases (opcode w)
  unfold decode at h
  split at h
  next hf => exact inRow_of_decodeR (hr.1 hf) h
  next hf => exact inRow_of_decodeI (hi.1 hf) h
  next hf => exact inRow_of_decodeS (hs.1 hf) h
  next hf => exact inRow_of_decodeL (hl.1 hf) h
  next hf => exact inRow_of_decodeU (hu.1 hf) h
  next hf => exact inRow_of_decodeB (hb.1 hf) h
  next hf => cases h; exact .of_opcode (hj.1 hf) .jal (by decide)
  next hf => cases h; exact .of_opcode (hjalr.1 hf) .jalr (by decide)
  next hf => cases h; exact .of_opcode (hsys.1 hf) .ecall (by decide)
  next => cases h

end

/-! ### The words of an instruction -/

/-- No mnemonic has two rows. -/
theorem opcodeTable_mnemonic_inj :
    ∀ r ∈ opcodeTable, ∀ r' ∈ opcodeTable, r.mnemonic = r'.mnemonic → r = r' := by decide

theorem mnemonicOf_eq_some_iff {w : Word} {m : Mnemonic} :
    mnemonicOf w = some m ↔ ∃ i, decode w = .ok i ∧ i.mnemonic = m := by
  unfold mnemonicOf
  cases decode w <;> simp

section

variable {m : Mnemonic} {mask pattern : Word} {build : Word → Instr}

theorem and_mask_of_mnemonicOf {w : Word} (hrow : ⟨m, mask, pattern⟩ ∈ opcodeTable)
    (h : mnemonicOf w = some m) : w &&& mask = pattern := by
  obtain ⟨i, hi, rfl⟩ := mnemonicOf_eq_some_iff.1 h
  obtain ⟨mask', pattern', hrow', hw⟩ := inRow_of_decode hi
  cases opcodeTable_mnemonic_inj _ hrow _ hrow' rfl
  exact hw

/-- Once the words of a row are known to decode to its instruction, no other word does. -/
theorem encodedBy_of_decode (hrow : ⟨m, mask, pattern⟩ ∈ opcodeTable) (hm : ∀ w, (build w).mnemonic = m)
    (hdecode : ∀ w, w &&& mask = pattern → decode w = .ok (build w)) : EncodedBy m mask pattern build :=
  fun w => ⟨⟨and_mask_of_mnemonicOf hrow, fun h => mnemonicOf_eq_some_iff.2 ⟨_, hdecode w h, hm w⟩⟩, hdecode w⟩

/-- The rows of format R that examine funct7. -/
theorem encodedBy_of_funct7 {f3 : BitVec 3} {f7 : BitVec 7}
    (hrow : ⟨m, packR 0x7F#7 0 0 7#3 0 0x7F#7, packR f7 0 0 f3 0 0x33#7⟩ ∈ opcodeTable)
    (hm : ∀ w, (build w).mnemonic = m)
    (hdecode : ∀ w, funct3 w = f3 → funct7 w = f7 → decodeR w = .ok (build w)) :
    EncodedBy m (packR 0x7F#7 0 0 7#3 0 0x7F#7) (packR f7 0 0 f3 0 0x33#7) build :=
  encodedBy_of_decode hrow hm fun w h => by
    obtain ⟨ho, h3, h7⟩ := (matches_funct7_iff w f7 f3 0x33#7).1 h
    rw [decode, ho]
    exact hdecode w h3 h7

end

end Sys2Proof
end

section
/-! SUPPORT. Register-register instructions (40_alu_reg.md): the encodings and effects of ADD, SUB,
SRL and SRA. -/

namespace Sys2Proof.Machine

open Sys2Proof.Safety

/-! ### Encodings -/

theorem encodedBy_add : EncodedBy .add 0xFE00707F#32 0x00000033#32
    (fun w => .add (rdField w) (rs1Field w) (rs2Field w)) :=
  encodedBy_of_funct7 (f3 := 0#3) (f7 := 0x00#7) (by decide) (fun _ => rfl) fun w h3 h7 => by
    simp [decodeR, h3, h7]

theorem encodedBy_sub : EncodedBy .sub 0xFE00707F#32 0x40000033#32
    (fun w => .sub (rdField w) (rs1Field w) (rs2Field w)) :=
  encodedBy_of_funct7 (f3 := 0#3) (f7 := 0x20#7) (by decide) (fun _ => rfl) fun w h3 h7 => by
    simp [decodeR, h3, h7]

theorem encodedBy_srl : EncodedBy .srl 0xFE00707F#32 0x00005033#32
    (fun w => .srl (rdField w) (rs1Field w) (rs2Field w)) :=
  encodedBy_of_funct7 (f3 := 5#3) (f7 := 0x00#7) (by decide) (fun _ => rfl) fun w h3 h7 => by
    simp [decodeR, h3, h7]

theorem encodedBy_sra : EncodedBy .sra 0xFE00707F#32 0x40005033#32
    (fun w => .sra (rdField w) (rs1Field w) (rs2Field w)) :=
  encodedBy_of_funct7 (f3 := 5#3) (f7 := 0x20#7) (by decide) (fun _ => rfl) fun w h3 h7 => by
    simp [decodeR, h3, h7]

/-! ### Effects -/

section

variable (s : State) (rd rs1 rs2 : Reg)

theorem exec_add_spec : ∃ t, exec (.add rd rs1 rs2) s = .next t ∧
    Wrote s t rd (s.readReg rs1 + s.readReg rs2) (s.pc + 4#32) :=
  writeResult_spec rd _ s

theorem exec_sub_spec : ∃ t, exec (.sub rd rs1 rs2) s = .next t ∧
    Wrote s t rd (s.readReg rs1 - s.readReg rs2) (s.pc + 4#32) :=
  writeResult_spec rd _ s

theorem exec_srl_spec : ∃ t, exec (.srl rd rs1 rs2) s = .next t ∧
    Wrote s t rd (shiftRightLogical (s.readReg rs1) (shiftAmount (s.readReg rs2))) (s.pc + 4#32) :=
  writeResult_spec rd _ s

theorem exec_sra_spec : ∃ t, exec (.sra rd rs1 rs2) s = .next t ∧
    Wrote s t rd (shiftRightArith (s.readReg rs1) (shiftAmount (s.readReg rs2))) (s.pc + 4#32) :=
  writeResult_spec rd _ s

end

theorem readReg_dest_of_unlocked {s t : State} {rd : Reg} {v p : Word} (h : Wrote s t rd v p)
    (hl : s.isLocked rd = false) : t.readReg rd = v := by
  simp [h.dest, hl]

/-- SUB of the old operand from the sum that ADD left gives the other operand back. -/
theorem exec_sub_of_exec_add {s t : State} {rd rd' rs1 rs2 : Reg} (hne : rd ≠ rs2)
    (hl : s.isLocked rd = false) (hl' : s.isLocked rd' = false) (h : exec (.add rd rs1 rs2) s = .next t) :
    ∃ u, exec (.sub rd' rd rs2) t = .next u ∧ u.readReg rd' = s.readReg rs1 := by
  obtain ⟨t', ht', hadd⟩ := exec_add_spec s rd rs1 rs2
  cases h.symm.trans ht'
  obtain ⟨u, hu, hsub⟩ := exec_sub_spec t rd' rd rs2
  have hlu : t.isLocked rd' = false := (hadd.locks rd').trans hl'
  refine ⟨u, hu, ?_⟩
  calc u.readReg rd' = t.readReg rd - t.readReg rs2 := readReg_dest_of_unlocked hsub hlu
    _ = s.readReg rs1 + s.readReg rs2 - s.readReg rs2 := by
      rw [readReg_dest_of_unlocked hadd hl, hadd.others rs2 hne.symm]
    _ = s.readReg rs1 := BitVec.add_sub_cancel _ _

/-! ### The obligations -/

/-- Settles O1: both are word arithmetic written through the lock check, and a word is given back by
subtracting what was added. -/
theorem addAndSubWrapModulo2To32 : Obligations.AddAndSubWrapModulo2To32 := by
  unfold Obligations.AddAndSubWrapModulo2To32
  refine ⟨encodedBy_add, encodedBy_sub, fun s rd rs1 rs2 => ⟨?_, ?_⟩,
    fun s t rd rd' rs1 rs2 hne hl hl' h => exec_sub_of_exec_add hne hl hl' h⟩
  · obtain ⟨t, ht, hw⟩ := exec_add_spec s rd rs1 rs2
    exact ⟨t, _, ht, hw, BitVec.toNat_add _ _⟩
  · obtain ⟨t, ht, hw⟩ := exec_sub_spec s rd rs1 rs2
    exact ⟨t, _, ht, hw, by rw [BitVec.toNat_sub, Nat.add_comm]⟩

/-- Settles O2: the shifts are quotients (`toNat_shiftRightLogical`, `toInt_shiftRightArith`) and the
amount is x[rs2] mod 32. -/
theorem rightShiftsAreFloorDivisions : Obligations.RightShiftsAreFloorDivisions := by
  unfold Obligations.RightShiftsAreFloorDivisions
  refine ⟨encodedBy_srl, encodedBy_sra, fun s rd rs1 rs2 => ⟨?_, ?_⟩⟩
  · obtain ⟨t, ht, hw⟩ := exec_srl_spec s rd rs1 rs2
    exact ⟨t, _, ht, hw, by rw [toNat_shiftRightLogical, shiftAmount_eq]⟩
  · obtain ⟨t, ht, hw⟩ := exec_sra_spec s rd rs1 rs2
    exact ⟨t, _, ht, hw, by rw [toInt_shiftRightArith, shiftAmount_eq]⟩

end Sys2Proof.Machine
end

section
/-! SUPPORT. Register-immediate instructions (41_alu_imm.md): the encodings and effects of ADDI, SLTI,
SLTIU, XORI, ORI and ANDI. -/

namespace Sys2Proof.Machine

open Sys2Proof.Safety

/-! ### Encodings -/

/-- The rows of any format that examine the opcode and funct3. -/
theorem encodedBy_of_funct3 {m : Mnemonic} {f3 : BitVec 3} {op : BitVec 7} {build : Word → Instr}
    (hrow : ⟨m, packR 0#7 0 0 7#3 0 0x7F#7, packR 0#7 0 0 f3 0 op⟩ ∈ opcodeTable)
    (hm : ∀ w, (build w).mnemonic = m)
    (hdecode : ∀ w, opcode w = op → funct3 w = f3 → decode w = .ok (build w)) :
    EncodedBy m (packR 0#7 0 0 7#3 0 0x7F#7) (packR 0#7 0 0 f3 0 op) build :=
  encodedBy_of_decode hrow hm fun w h =>
    have ⟨ho, h3⟩ := (matches_funct3_iff w f3 op).1 h
    hdecode w ho h3

theorem decode_eq_decodeI {w : Word} (ho : opcode w = 0x13#7) : decode w = decodeI w := by
  rw [decode, ho]
  rfl

theorem encodedBy_addi : EncodedBy .addi 0x0000707F#32 0x00000013#32
    (fun w => .addi (rdField w) (rs1Field w) (immI w)) :=
  encodedBy_of_funct3 (f3 := 0#3) (op := 0x13#7) (by decide) (fun _ => rfl) fun w ho h3 => by
    simp [decode_eq_decodeI ho, decodeI, h3]

theorem encodedBy_slti : EncodedBy .slti 0x0000707F#32 0x00002013#32
    (fun w => .slti (rdField w) (rs1Field w) (immI w)) :=
  encodedBy_of_funct3 (f3 := 2#3) (op := 0x13#7) (by decide) (fun _ => rfl) fun w ho h3 => by
    simp [decode_eq_decodeI ho, decodeI, h3]

theorem encodedBy_sltiu : EncodedBy .sltiu 0x0000707F#32 0x00003013#32
    (fun w => .sltiu (rdField w) (rs1Field w) (immI w)) :=
  encodedBy_of_funct3 (f3 := 3#3) (op := 0x13#7) (by decide) (fun _ => rfl) fun w ho h3 => by
    simp [decode_eq_decodeI ho, decodeI, h3]

theorem encodedBy_xori : EncodedBy .xori 0x0000707F#32 0x00004013#32
    (fun w => .xori (rdField w) (rs1Field w) (immI w)) :=
  encodedBy_of_funct3 (f3 := 4#3) (op := 0x13#7) (by decide) (fun _ => rfl) fun w ho h3 => by
    simp [decode_eq_decodeI ho, decodeI, h3]

theorem encodedBy_ori : EncodedBy .ori 0x0000707F#32 0x00006013#32
    (fun w => .ori (rdField w) (rs1Field w) (immI w)) :=
  encodedBy_of_funct3 (f3 := 6#3) (op := 0x13#7) (by decide) (fun _ => rfl) fun w ho h3 => by
    simp [decode_eq_decodeI ho, decodeI, h3]

theorem encodedBy_andi : EncodedBy .andi 0x0000707F#32 0x00007013#32
    (fun w => .andi (rdField w) (rs1Field w) (immI w)) :=
  encodedBy_of_funct3 (f3 := 7#3) (op := 0x13#7) (by decide) (fun _ => rfl) fun w ho h3 => by
    simp [decode_eq_decodeI ho, decodeI, h3]

/-! ### Effects -/

section

variable (s : State) (rd rs1 : Reg) (imm : Word)

theorem exec_addi_spec : ∃ t, exec (.addi rd rs1 imm) s = .next t ∧
    Wrote s t rd (s.readReg rs1 + imm) (s.pc + 4#32) :=
  writeResult_spec rd _ s

theorem exec_slti_spec : ∃ t, exec (.slti rd rs1 imm) s = .next t ∧
    Wrote s t rd (if (s.readReg rs1).toInt < imm.toInt then 1#32 else 0#32) (s.pc + 4#32) := by
  rw [← boolWord_decide]
  exact writeResult_spec rd _ s

theorem exec_sltiu_spec : ∃ t, exec (.sltiu rd rs1 imm) s = .next t ∧
    Wrote s t rd (if (s.readReg rs1).toNat < imm.toNat then 1#32 else 0#32) (s.pc + 4#32) := by
  rw [← boolWord_decide]
  exact writeResult_spec rd _ s

theorem exec_xori_spec : ∃ t, exec (.xori rd rs1 imm) s = .next t ∧
    Wrote s t rd (s.readReg rs1 ^^^ imm) (s.pc + 4#32) :=
  writeResult_spec rd _ s

theorem exec_ori_spec : ∃ t, exec (.ori rd rs1 imm) s = .next t ∧
    Wrote s t rd (s.readReg rs1 ||| imm) (s.pc + 4#32) :=
  writeResult_spec rd _ s

theorem exec_andi_spec : ∃ t, exec (.andi rd rs1 imm) s = .next t ∧
    Wrote s t rd (s.readReg rs1 &&& imm) (s.pc + 4#32) :=
  writeResult_spec rd _ s

end

/-! ### The obligations -/

/-- Settles O7: the sum is word addition, written through the lock check. -/
theorem addiAddsTheImmediate : Obligations.AddiAddsTheImmediate := by
  unfold Obligations.AddiAddsTheImmediate
  refine ⟨encodedBy_addi, fun s rd rs1 imm => ?_⟩
  obtain ⟨t, ht, hw⟩ := exec_addi_spec s rd rs1 imm
  exact ⟨t, _, ht, hw, BitVec.toNat_add _ _⟩

/-- Settles O8: both compare with the word `immI` extends by sign; only the reading of the two words
differs. -/
theorem sltiAndSltiuCompareImmediate : Obligations.SltiAndSltiuCompareImmediate :=
  ⟨encodedBy_slti, encodedBy_sltiu, fun _ => rfl, fun s rd rs1 imm =>
    ⟨exec_slti_spec s rd rs1 imm, exec_sltiu_spec s rd rs1 imm⟩⟩

/-- Settles O9: the words written are Lean's bitwise operations, whose bits the library states. -/
theorem immediateLogicIsBitwise : Obligations.ImmediateLogicIsBitwise := by
  unfold Obligations.ImmediateLogicIsBitwise
  refine ⟨encodedBy_xori, encodedBy_ori, encodedBy_andi, fun s rd rs1 imm => ⟨?_, ?_, ?_⟩⟩
  · obtain ⟨t, ht, hw⟩ := exec_xori_spec s rd rs1 imm
    exact ⟨t, _, ht, hw, fun _ => BitVec.getLsbD_xor⟩
  · obtain ⟨t, ht, hw⟩ := exec_ori_spec s rd rs1 imm
    exact ⟨t, _, ht, hw, fun _ => BitVec.getLsbD_or⟩
  · obtain ⟨t, ht, hw⟩ := exec_andi_spec s rd rs1 imm
    exact ⟨t, _, ht, hw, fun _ => BitVec.getLsbD_and⟩

end Sys2Proof.Machine
end

section
/-! SUPPORT. Upper-immediate instructions (43_upper_imm.md): the encodings and effects of AUIPC and
LUI. -/

namespace Sys2Proof.Machine

open Sys2Proof.Safety

/-! ### Encodings -/

/-- The rows that examine the opcode alone. -/
theorem encodedBy_of_opcode {m : Mnemonic} {op : BitVec 7} {build : Word → Instr}
    (hrow : ⟨m, packR 0#7 0 0 0#3 0 0x7F#7, packR 0#7 0 0 0#3 0 op⟩ ∈ opcodeTable)
    (hm : ∀ w, (build w).mnemonic = m)
    (hdecode : ∀ w, opcode w = op → decode w = .ok (build w)) :
    EncodedBy m (packR 0#7 0 0 0#3 0 0x7F#7) (packR 0#7 0 0 0#3 0 op) build :=
  encodedBy_of_decode hrow hm fun w h => hdecode w ((matches_opcode_iff w op).1 h)

theorem encodedBy_auipc : EncodedBy .auipc 0x0000007F#32 0x00000017#32
    (fun w => .auipc (rdField w) (immU w)) :=
  encodedBy_of_opcode (op := 0x17#7) (by decide) (fun _ => rfl) fun w ho => by
    simp [decode, formatOf, decodeU, ho]

theorem encodedBy_lui : EncodedBy .lui 0x0000007F#32 0x00000037#32
    (fun w => .lui (rdField w) (immU w)) :=
  encodedBy_of_opcode (op := 0x37#7) (by decide) (fun _ => rfl) fun w ho => by
    simp [decode, formatOf, decodeU, ho]

/-- R105: the word as its upper 20 and lower 12 bits, of which the mask keeps the upper. -/
theorem immU_eq_and (w : Word) : immU w = w &&& 0xFFFFF000#32 := by
  have hw : w = w.extractLsb' 12 20 ++ w.extractLsb' 0 12 := by
    rw [BitVec.extractLsb'_append_extractLsb'_eq_extractLsb' (by decide), BitVec.extractLsb'_eq_self]
  calc immU w = (w.extractLsb' 12 20 &&& BitVec.allOnes 20) ++ (w.extractLsb' 0 12 &&& 0#12) := by
        rw [BitVec.and_allOnes, BitVec.and_zero, immU]
    _ = (w.extractLsb' 12 20 ++ w.extractLsb' 0 12) &&& (BitVec.allOnes 20 ++ 0#12) :=
        BitVec.and_append.symm
    _ = w &&& 0xFFFFF000#32 := by rw [← hw]; rfl

/-! ### Effects -/

section

variable (s : State) (rd : Reg) (imm : Word)

theorem exec_auipc_spec : ∃ t, exec (.auipc rd imm) s = .next t ∧
    Wrote s t rd (s.pc + imm) (s.pc + 4#32) :=
  writeResult_spec rd _ s

theorem exec_lui_spec : ∃ t, exec (.lui rd imm) s = .next t ∧ Wrote s t rd imm (s.pc + 4#32) :=
  writeResult_spec rd _ s

end

/-- R34: an instruction that writes register 0 and completes in a running engine warns. -/
theorem lockedWriteOf_of_wrote_zero {i : Instr} {s t : State} {rd : Reg} {v p : Word}
    (hi : destOf i = some rd) (hw : Wrote s t rd v p) (hrd : rd = 0) (hrun : s.halted = false) :
    lockedWriteOf i s t = true := by
  have ht : t.halted = false := hw.runStatus.halted.trans hrun
  simp [lockedWriteOf, hi, hrd, ht]

/-! ### The obligation -/

/-- Settles O17: both write their word through the lock check, and the lock of register 0 raises the
warning. -/
theorem upperImmediatesFillTheUpper20Bits : Obligations.UpperImmediatesFillTheUpper20Bits := by
  unfold Obligations.UpperImmediatesFillTheUpper20Bits
  refine ⟨encodedBy_auipc, encodedBy_lui, immU_eq_and, fun s rd imm => ⟨?_, ?_⟩⟩
  · obtain ⟨t, ht, hw⟩ := exec_auipc_spec s rd imm
    exact ⟨t, _, ht, hw, BitVec.toNat_add _ _, lockedWriteOf_of_wrote_zero rfl hw⟩
  · obtain ⟨t, ht, hw⟩ := exec_lui_spec s rd imm
    exact ⟨t, ht, hw, lockedWriteOf_of_wrote_zero rfl hw⟩

end Sys2Proof.Machine
end

section
/-! SUPPORT. Jumps (44_control_transfer.md): the transfer JAL and JALR end with. -/

namespace Sys2Proof.Machine

/-- R207: JAL jumps relative to its own address. -/
theorem exec_jal_eq_jumpAndLink (s : State) (rd : Reg) (imm : Word) :
    exec (.jal rd imm) s = jumpAndLink rd (s.pc + imm) s := rfl

/-- R208: JALR jumps to an even address taken from the old x[rs1], whatever its funct3. -/
theorem exec_jalr_eq_jumpAndLink (s : State) (rd rs1 : Reg) (imm : Word) (f3 : BitVec 3) :
    exec (.jalr rd rs1 imm f3) s = jumpAndLink rd ((s.readReg rs1 + imm) &&& 0xFFFFFFFE#32) s := rfl

/-! ### The obligation -/

/-- Settles O24: both end in `jumpAndLink`, whose link write the lock drops and whose pc write it does
not touch. -/
theorem jumpWithLockedLinkStillJumps : Obligations.JumpWithLockedLinkStillJumps := by
  unfold Obligations.JumpWithLockedLinkStillJumps
  intro s rd rs1 imm f3 hlocked
  constructor
  · rw [exec_jal_eq_jumpAndLink, jumpAndLink_locked hlocked]
  · rw [exec_jalr_eq_jumpAndLink, jumpAndLink_locked hlocked]

end Sys2Proof.Machine
end

section
/-! SUPPORT. The decoder and the encoder are inverse to each other (30_encoding.md): on the
well-formed instructions, and on the words that decode. -/

namespace Sys2Proof.Laws.RoundTrip

theorem decode_encode : ∀ i : Instr, Statement i
  | .add .. => add _ _ _
  | .sub .. => sub _ _ _
  | .sll .. => sll _ _ _ _
  | .slt .. => slt _ _ _ _
  | .sltu .. => sltu _ _ _ _
  | .xor .. => xor _ _ _ _
  | .srl .. => srl _ _ _
  | .sra .. => sra _ _ _
  | .or .. => or _ _ _ _
  | .and .. => and _ _ _ _
  | .addi .. => addi _ _ _
  | .slli .. => slli _ _ _
  | .slti .. => slti _ _ _
  | .sltiu .. => sltiu _ _ _
  | .xori .. => xori _ _ _
  | .srli .. => srli _ _ _
  | .srai .. => srai _ _ _
  | .ori .. => ori _ _ _
  | .andi .. => andi _ _ _
  | .sb .. => sb _ _ _
  | .sh .. => sh _ _ _
  | .sw .. => sw _ _ _
  | .lb .. => lb _ _ _
  | .lh .. => lh _ _ _
  | .lw .. => lw _ _ _
  | .lbu .. => lbu _ _ _
  | .lhu .. => lhu _ _ _
  | .auipc .. => auipc _ _
  | .lui .. => lui _ _
  | .beq .. => beq _ _ _
  | .bne .. => bne _ _ _
  | .blt .. => blt _ _ _
  | .bge .. => bge _ _ _
  | .bltu .. => bltu _ _ _
  | .bgeu .. => bgeu _ _ _
  | .jal .. => jal _ _
  | .jalr .. => jalr _ _ _ _
  | .ecall _ => ecall _

end Sys2Proof.Laws.RoundTrip

namespace Sys2Proof

/-- Settles O52, one constructor at a time: the fields the decoder looks at are those the layout of
the constructor's format assembled. -/
theorem decodeOfEncodeIsTheInstruction : Obligations.DecodeOfEncodeIsTheInstruction :=
  Laws.RoundTrip.decode_encode

/-! ### The encoding of what a word decodes to -/

/-- `i` lies in the ranges of its format, and `w` is its encoding. -/
def IsWordOf (w : Word) (i : Instr) : Prop := i.wellFormed = true ∧ encode i = w

section

variable {w : Word} {op : BitVec 7} {f3 : BitVec 3} (ho : opcode w = op)
include ho

/-! The layouts, with the fields the dispatch examined replaced by their values. -/

theorem packR_of_fields {f7 : BitVec 7} (h3 : funct3 w = f3) (h7 : funct7 w = f7) :
    packR f7 (rs2Field w) (rs1Field w) f3 (rdField w) op = w := by
  rw [← h7, ← h3, ← ho, packR_fields]

theorem packI_of_fields (h3 : funct3 w = f3) : packI (immI w) (rs1Field w) f3 (rdField w) op = w := by
  rw [← h3, ← ho, packI_fields]

theorem packS_of_fields (h3 : funct3 w = f3) : packS (immS w) (rs2Field w) (rs1Field w) f3 op = w := by
  rw [← h3, ← ho, packS_fields]

theorem packB_of_fields (h3 : funct3 w = f3) : packB (immB w) (rs2Field w) (rs1Field w) f3 op = w := by
  rw [← h3, ← ho, packB_fields]

theorem packU_of_fields : packU (immU w) (rdField w) op = w := by
  rw [← ho, packU_fields]

theorem packJ_of_fields : packJ (immJ w) (rdField w) op = w := by
  rw [← ho, packJ_fields]

theorem packSys_of_fields : packSys (w.extractLsb' 7 25) op = w := by
  rw [← ho, packSys_fields]

end

section

variable {w : Word} {i : Instr}

theorem isWordOf_of_decodeR (ho : opcode w = 0x33#7) (h : decodeR w = .ok i) : IsWordOf w i := by
  unfold decodeR at h
  split_ifs at h with h0 h00 h20 h1 h2 h3 h4 h5 h00 h20 h6 <;> cases h
  · exact ⟨rfl, packR_of_fields ho h0 h00⟩
  · exact ⟨rfl, packR_of_fields ho h0 h20⟩
  · exact ⟨rfl, packR_of_fields ho h1 rfl⟩
  · exact ⟨rfl, packR_of_fields ho h2 rfl⟩
  · exact ⟨rfl, packR_of_fields ho h3 rfl⟩
  · exact ⟨rfl, packR_of_fields ho h4 rfl⟩
  · exact ⟨rfl, packR_of_fields ho h5 h00⟩
  · exact ⟨rfl, packR_of_fields ho h5 h20⟩
  · exact ⟨rfl, packR_of_fields ho h6 rfl⟩
  · exact ⟨rfl, packR_of_fields ho (eq_seven_of_ne h0 h1 h2 h3 h4 h5 h6) rfl⟩

theorem wellFormed_srli {rd rs1 : Reg} (hb : w.getLsbD 30 = false) :
    (Instr.srli rd rs1 (immI w)).wellFormed = true := by
  rw [Instr.wellFormed, fitsI_immI, bit10_immI, hb]
  rfl

theorem wellFormed_srai {rd rs1 : Reg} (hb : ¬ w.getLsbD 30 = false) :
    (Instr.srai rd rs1 (immI w)).wellFormed = true := by
  rw [Instr.wellFormed, fitsI_immI, bit10_immI, Bool.eq_true_of_not_eq_false hb]
  rfl

theorem isWordOf_of_decodeI (ho : opcode w = 0x13#7) (h : decodeI w = .ok i) : IsWordOf w i := by
  unfold decodeI at h
  split_ifs at h with h0 h1 h2 h3 h4 h5 hb h6 <;> cases h
  · exact ⟨fitsI_immI w, packI_of_fields ho h0⟩
  · exact ⟨fitsI_immI w, packI_of_fields ho h1⟩
  · exact ⟨fitsI_immI w, packI_of_fields ho h2⟩
  · exact ⟨fitsI_immI w, packI_of_fields ho h3⟩
  · exact ⟨fitsI_immI w, packI_of_fields ho h4⟩
  · exact ⟨wellFormed_srli hb, packI_of_fields ho h5⟩
  · exact ⟨wellFormed_srai hb, packI_of_fields ho h5⟩
  · exact ⟨fitsI_immI w, packI_of_fields ho h6⟩
  · exact ⟨fitsI_immI w, packI_of_fields ho (eq_seven_of_ne h0 h1 h2 h3 h4 h5 h6)⟩

theorem isWordOf_of_decodeS (ho : opcode w = 0x23#7) (h : decodeS w = .ok i) : IsWordOf w i := by
  unfold decodeS at h
  split_ifs at h with h0 h1 h2 <;> cases h
  · exact ⟨fitsS_immS w, packS_of_fields ho h0⟩
  · exact ⟨fitsS_immS w, packS_of_fields ho h1⟩
  · exact ⟨fitsS_immS w, packS_of_fields ho h2⟩

theorem isWordOf_of_decodeL (ho : opcode w = 0x03#7) (h : decodeL w = .ok i) : IsWordOf w i := by
  unfold decodeL at h
  split_ifs at h with h0 h1 h2 h4 h5 <;> cases h
  · exact ⟨fitsI_immI w, packI_of_fields ho h0⟩
  · exact ⟨fitsI_immI w, packI_of_fields ho h1⟩
  · exact ⟨fitsI_immI w, packI_of_fields ho h2⟩
  · exact ⟨fitsI_immI w, packI_of_fields ho h4⟩
  · exact ⟨fitsI_immI w, packI_of_fields ho h5⟩

theorem isWordOf_of_decodeU (ho : opcode w = 0x37#7 ∨ opcode w = 0x17#7) (h : decodeU w = .ok i) :
    IsWordOf w i := by
  unfold decodeU at h
  split_ifs at h with h37 <;> cases h
  · exact ⟨fitsU_immU w, packU_of_fields h37⟩
  · exact ⟨fitsU_immU w, packU_of_fields (ho.resolve_left h37)⟩

theorem isWordOf_of_decodeB (ho : opcode w = 0x63#7) (h : decodeB w = .ok i) : IsWordOf w i := by
  unfold decodeB at h
  split_ifs at h with h0 h1 h4 h5 h6 h7 <;> cases h
  · exact ⟨fitsB_immB w, packB_of_fields ho h0⟩
  · exact ⟨fitsB_immB w, packB_of_fields ho h1⟩
  · exact ⟨fitsB_immB w, packB_of_fields ho h4⟩
  · exact ⟨fitsB_immB w, packB_of_fields ho h5⟩
  · exact ⟨fitsB_immB w, packB_of_fields ho h6⟩
  · exact ⟨fitsB_immB w, packB_of_fields ho h7⟩

theorem isWordOf_of_decode (h : decode w = .ok i) : IsWordOf w i := by
  obtain ⟨hr, hi, hs, hl, hu, hb, hj, hjalr, hsys⟩ := Machine.formatOf_cases (opcode w)
  unfold decode at h
  split at h
  next hf => exact isWordOf_of_decodeR (hr.1 hf) h
  next hf => exact isWordOf_of_decodeI (hi.1 hf) h
  next hf => exact isWordOf_of_decodeS (hs.1 hf) h
  next hf => exact isWordOf_of_decodeL (hl.1 hf) h
  next hf => exact isWordOf_of_decodeU (hu.1 hf) h
  next hf => exact isWordOf_of_decodeB (hb.1 hf) h
  next hf => cases h; exact ⟨fitsJ_immJ w, packJ_of_fields (hj.1 hf)⟩
  next hf => cases h; exact ⟨fitsI_immI w, packI_of_fields (hjalr.1 hf) rfl⟩
  next hf => cases h; exact ⟨rfl, packSys_of_fields (hsys.1 hf)⟩
  next => cases h

end

/-- Settles O53, format by format: the dispatch examined the fields that the instruction does not
hold, and the others assemble to the word. -/
theorem encodeOfDecodeIsTheWord : Obligations.EncodeOfDecodeIsTheWord :=
  fun _ _ h => isWordOf_of_decode h

end Sys2Proof
end

section
/-! SUPPORT. The invariant of the engine (`Inv`), by the updates a cycle is made of: each update
keeps it under the condition its place in the cycle guarantees. -/

namespace Sys2Proof.Machine

open Sys2Proof.Safety

/-! ### Even targets -/

theorem even_iff_getLsbD {w : Word} : w.toNat % 2 = 0 ↔ w.getLsbD 0 = false := by
  simp [BitVec.getLsbD, Nat.testBit_zero]

theorem even_add {a b : Word} (ha : a.toNat % 2 = 0) (hb : b.toNat % 2 = 0) : (a + b).toNat % 2 = 0 := by
  rw [BitVec.toNat_add]; omega

/-- R208: the mask of JALR clears bit 0. -/
theorem toNat_and_mask (a : Word) : (a &&& 0xFFFFFFFE#32).toNat = a.toNat / 2 * 2 := by
  have hshift : a &&& 0xFFFFFFFE#32 = a >>> 1 <<< 1 := by
    apply BitVec.eq_of_getLsbD_eq
    intro k hk
    interval_cases k <;> simp
  have ha := a.isLt
  rw [hshift, BitVec.toNat_shiftLeft, BitVec.toNat_ushiftRight, Nat.shiftLeft_eq, Nat.shiftRight_eq_div_pow]
  omega

theorem even_and_mask (a : Word) : (a &&& 0xFFFFFFFE#32).toNat % 2 = 0 := by
  rw [toNat_and_mask, Nat.mul_mod_left]

theorem even_of_fitsB {imm : Word} (h : fitsB imm = true) : imm.toNat % 2 = 0 :=
  even_iff_getLsbD.2 (fitsB_iff.1 h).2.2

theorem even_of_fitsJ {imm : Word} (h : fitsJ imm = true) : imm.toNat % 2 = 0 :=
  even_iff_getLsbD.2 (fitsJ_iff.1 h).2.2

theorem even_of_branch {i : Instr} {rs1 rs2 : Reg} {imm : Word} (hw : i.wellFormed = true)
    (hi : i ∈ [Instr.beq rs1 rs2 imm, .bne rs1 rs2 imm, .blt rs1 rs2 imm, .bge rs1 rs2 imm,
      .bltu rs1 rs2 imm, .bgeu rs1 rs2 imm]) : imm.toNat % 2 = 0 := by
  simp only [List.mem_cons, List.not_mem_nil, or_false] at hi
  rcases hi with rfl | rfl | rfl | rfl | rfl | rfl <;> exact even_of_fitsB hw

theorem even_pc_next {s : State} (hpc : s.pc.toNat % 2 = 0) : (s.pc + 4#32).toNat % 2 = 0 :=
  even_add hpc (by decide)

/-- From an even pc every ending of a well-formed instruction reaches an even pc. -/
theorem Ending.even_pc {i : Instr} {s t : State} (h : Ending i s t) (hw : i.wellFormed = true)
    (hpc : s.pc.toNat % 2 = 0) : t.pc.toNat % 2 = 0 := by
  have hnext : (s.pc + 4#32).toNat % 2 = 0 := even_pc_next hpc
  cases h with
  | wrote | stored => exact hnext
  | outOfBounds | ecall => exact hpc
  | branched p hp =>
    rcases hp with rfl | ⟨rs1, rs2, imm, rfl, hi⟩
    · exact hnext
    · exact even_add hpc (even_of_branch hw hi)
  | jumped rd p _ _ hp =>
    rcases hp with ⟨imm, rfl, rfl⟩ | ⟨rs1, imm, f3, rfl, rfl⟩
    · exact even_add hpc (even_of_fitsJ hw)
    · exact even_and_mask _

/-! ### The two policies on an undecodable word -/

theorem State.decodeFault_of_halt {s : State} (h : s.cfg.decodeFaultPolicy = .halt) (w : Word) :
    s.decodeFault w = s.haltWith .decodeFault w 0#32 := by
  simp only [State.decodeFault, h]

theorem State.decodeFault_of_skip {s : State} (h : s.cfg.decodeFaultPolicy = .skip) (w : Word) :
    s.decodeFault w = s.advancePc.countStep := by
  simp only [State.decodeFault, h]

theorem State.decodeFault_cases (s : State) (w : Word) :
    (s.cfg.decodeFaultPolicy = .halt ∧ s.decodeFault w = s.haltWith .decodeFault w 0#32) ∨
    (s.cfg.decodeFaultPolicy = .skip ∧ s.decodeFault w = s.advancePc.countStep) := by
  cases h : s.cfg.decodeFaultPolicy
  · exact .inl ⟨rfl, State.decodeFault_of_halt h w⟩
  · exact .inr ⟨rfl, State.decodeFault_of_skip h w⟩

/-! ### What an ending leaves alone -/

theorem Ending.cfg_eq {i : Instr} {s t : State} (h : Ending i s t) : t.cfg = s.cfg := by
  cases h <;> simp

theorem Ending.steps_eq {i : Instr} {s t : State} (h : Ending i s t) : t.steps = s.steps := by
  cases h <;> simp

theorem stepLimitReached_congr {s t : State} (hc : t.cfg = s.cfg) (hs : t.steps = s.steps) :
    t.stepLimitReached = s.stepLimitReached := by
  unfold State.stepLimitReached
  rw [hc, hs]

end Sys2Proof.Machine

namespace Sys2Proof.Safety

open Sys2Proof.Machine

/-! ### The invariant through the updates -/

section

variable {s : State} (h : Inv s)
include h

theorem Inv.setPc (hrun : s.halted = false) {p : Word} (hp : p.toNat % 2 = 0) : Inv (s.setPc p) :=
  { h with
    pcEven := hp
    halted := fun hh => by cases hrun.symm.trans hh }

theorem Inv.writeReg (rd : Reg) (v : Word) : Inv (s.writeReg rd v) := by
  rcases State.writeReg_cases s rd v with ⟨-, he⟩ | ⟨hl, he⟩
  · rwa [he]
  have hlocked : ∀ r : Reg, s.rfLocked[r.val] = true → (s.writeReg rd v).rfValue[r.val] = s.rfValue[r.val] :=
    fun r hr => State.rfValue_writeReg_of_locked (by simp [State.isLocked, hr]) rd v
  rw [he] at hlocked ⊢
  have hlock0 : s.rfLocked[(0 : Reg).val] = true := h.locks 0
  exact { h with
    zero := (hlocked 0 hlock0).trans h.zero
    lockedZero := fun r hr => (hlocked r hr).trans (h.lockedZero r hr)
    halted := fun hh => { h.halted hh with } }

/-- A store in bounds. -/
theorem Inv.store {addr : Word} {n : Width} (hb : addr.toNat + n.bytes ≤ s.cfg.dmemSize) (v : Word) :
    Inv (s.setDmem (Memory.writeAll s.dmem (storeCells addr.toNat n v))) := by
  obtain ⟨hwf, hbound⟩ := State.memWrite_keeps (State.memWrite_of_inBounds v hb) h.canonical h.inMemory
  exact { h with
    canonical := hwf
    inMemory := hbound
    halted := fun hh => { h.halted hh with } }

theorem Inv.countStep (hl : s.stepLimitReached = false) : Inv s.countStep :=
  { h with
    limit := State.stepLimitReached_eq_false.1 hl
    halted := fun hh => { h.halted hh with } }

/-- A halt keeps the invariant when what it records belongs to its cause. -/
theorem Inv.haltWith {c : HaltCause} {w a : Word} (hr : HaltRecorded (s.haltWith c w a)) :
    Inv (s.haltWith c w a) :=
  { h with
    running := fun hh => by cases hh
    halted := fun _ => hr }

end

/-! ### What the halts record -/

section

variable (s : State)

theorem haltRecorded_stepLimit : HaltRecorded (s.haltWith .stepLimit 0#32 0#32) := by
  constructor <;> simp

theorem haltRecorded_endOfStream : HaltRecorded (s.haltWith .endOfStream 0#32 0#32) := by
  constructor <;> simp

theorem haltRecorded_decodeFault {w : Word} {e : DecodeReject} (hd : decode w = .error e) :
    HaltRecorded (s.haltWith .decodeFault w 0#32) := by
  constructor <;> simp [hd]

theorem haltRecorded_ecallHalt (rest : BitVec 25) :
    HaltRecorded (s.haltWith .ecallHalt (encode (.ecall rest)) 0#32) := by
  constructor <;> simp [encode]

theorem haltRecorded_memoryBoundsFault {w a : Word} {n : Width} (hb : s.cfg.dmemSize < a.toNat + n.bytes) :
    HaltRecorded (s.haltWith .memoryBoundsFault w a) := by
  constructor <;> simp
  exact ⟨n, hb⟩

end

/-! ### The invariant through a cycle -/

section

variable {s : State} (h : Inv s) (hrun : s.halted = false)
include h hrun

theorem Inv.ending {i : Instr} {t : State} (he : Ending i s t) (hw : i.wellFormed = true) : Inv t := by
  have heven := he.even_pc hw h.pcEven
  cases he with
  | wrote rd v => exact (h.writeReg rd v).setPc ((State.writeReg_halted ..).trans hrun) heven
  | jumped rd p => exact (h.writeReg rd _).setPc ((State.writeReg_halted ..).trans hrun) heven
  | branched p => exact h.setPc hrun heven
  | stored n rs1 rs2 imm _ _ hb => exact (h.store hb _).setPc hrun heven
  | outOfBounds n rs1 imm _ hb => exact h.haltWith (haltRecorded_memoryBoundsFault s hb)
  | ecall rest hi =>
    subst hi
    exact h.haltWith (haltRecorded_ecallHalt s rest)

theorem Inv.decodeFault (hl : s.stepLimitReached = false) {w : Word} {e : DecodeReject}
    (hd : decode w = .error e) : Inv (s.decodeFault w) := by
  rcases s.decodeFault_cases w with ⟨-, he⟩ | ⟨-, he⟩ <;> rw [he]
  · exact h.haltWith (haltRecorded_decodeFault s hd)
  · exact (h.setPc hrun (even_pc_next h.pcEven)).countStep hl

end

theorem Inv.cycleEnding {f : Option Word} {s t : State} (h : Inv s) (he : CycleEnding f s t) : Inv t := by
  cases he with
  | idle => exact h
  | limit => exact h.haltWith (haltRecorded_stepLimit s)
  | stream => exact h.haltWith (haltRecorded_endOfStream s)
  | undecodable w e hrun hl _ hd => exact h.decodeFault hrun hl hd
  | ran w i u hrun hl _ hd hend =>
    have hu : Inv u := h.ending hrun hend (isWordOf_of_decode hd).1
    split
    · exact hu
    · exact hu.countStep ((stepLimitReached_congr hend.cfg_eq hend.steps_eq).trans hl)

end Sys2Proof.Safety

namespace Sys2Proof.Machine

open Sys2Proof.Safety

/-- Settles O51: the updates a cycle is made of keep the invariant, the pc even because a decoded
offset is, the step count within its limit because the limit was not reached. -/
theorem everyCycleKeepsTheInvariant : Obligations.EveryCycleKeepsTheInvariant :=
  fun _ _ h hstep => h.cycleEnding (ending_of_step hstep)

/-- Settles O41, as the clause of the invariant but from an even pc alone. -/
theorem programCounterStaysEven : Obligations.ProgramCounterStaysEven := by
  unfold Obligations.ProgramCounterStaysEven
  intro s t hpc hstep
  cases ending_of_step hstep with
  | idle | limit | stream => exact hpc
  | undecodable w =>
    rcases s.decodeFault_cases w with ⟨-, he⟩ | ⟨-, he⟩ <;> rw [he]
    · exact hpc
    · exact even_pc_next hpc
  | ran w i u _ _ _ hd he =>
    have hu : u.pc.toNat % 2 = 0 := he.even_pc (isWordOf_of_decode hd).1 hpc
    split <;> exact hu

end Sys2Proof.Machine
end

section
/-! SUPPORT. The register-register instructions the earlier section leaves out (40_alu_reg.md): the
encodings and effects of SLL, SLT, SLTU, XOR, OR and AND, and of the shifts by an immediate
(41_alu_imm.md). -/

namespace Sys2Proof.Machine

open Sys2Proof.Safety

/-! ### Encodings -/

theorem decode_eq_decodeR {w : Word} (ho : opcode w = 0x33#7) : decode w = decodeR w := by
  rw [decode, ho]
  rfl

theorem encodedBy_sll : EncodedBy .sll 0x0000707F#32 0x00001033#32
    (fun w => .sll (rdField w) (rs1Field w) (rs2Field w) (funct7 w)) :=
  encodedBy_of_funct3 (f3 := 1#3) (op := 0x33#7) (by decide) (fun _ => rfl) fun w ho h3 => by
    simp [decode_eq_decodeR ho, decodeR, h3]

theorem encodedBy_slt : EncodedBy .slt 0x0000707F#32 0x00002033#32
    (fun w => .slt (rdField w) (rs1Field w) (rs2Field w) (funct7 w)) :=
  encodedBy_of_funct3 (f3 := 2#3) (op := 0x33#7) (by decide) (fun _ => rfl) fun w ho h3 => by
    simp [decode_eq_decodeR ho, decodeR, h3]

theorem encodedBy_sltu : EncodedBy .sltu 0x0000707F#32 0x00003033#32
    (fun w => .sltu (rdField w) (rs1Field w) (rs2Field w) (funct7 w)) :=
  encodedBy_of_funct3 (f3 := 3#3) (op := 0x33#7) (by decide) (fun _ => rfl) fun w ho h3 => by
    simp [decode_eq_decodeR ho, decodeR, h3]

theorem encodedBy_xor : EncodedBy .xor 0x0000707F#32 0x00004033#32
    (fun w => .xor (rdField w) (rs1Field w) (rs2Field w) (funct7 w)) :=
  encodedBy_of_funct3 (f3 := 4#3) (op := 0x33#7) (by decide) (fun _ => rfl) fun w ho h3 => by
    simp [decode_eq_decodeR ho, decodeR, h3]

theorem encodedBy_or : EncodedBy .or 0x0000707F#32 0x00006033#32
    (fun w => .or (rdField w) (rs1Field w) (rs2Field w) (funct7 w)) :=
  encodedBy_of_funct3 (f3 := 6#3) (op := 0x33#7) (by decide) (fun _ => rfl) fun w ho h3 => by
    simp [decode_eq_decodeR ho, decodeR, h3]

theorem encodedBy_and : EncodedBy .and 0x0000707F#32 0x00007033#32
    (fun w => .and (rdField w) (rs1Field w) (rs2Field w) (funct7 w)) :=
  encodedBy_of_funct3 (f3 := 7#3) (op := 0x33#7) (by decide) (fun _ => rfl) fun w ho h3 => by
    simp [decode_eq_decodeR ho, decodeR, h3]

theorem encodedBy_slli : EncodedBy .slli 0x0000707F#32 0x00001013#32
    (fun w => .slli (rdField w) (rs1Field w) (immI w)) :=
  encodedBy_of_funct3 (f3 := 1#3) (op := 0x13#7) (by decide) (fun _ => rfl) fun w ho h3 => by
    simp [decode_eq_decodeI ho, decodeI, h3]

/-- The rows that examine the opcode, funct3 and bit 30 (R109). -/
theorem encodedBy_of_bit30 {m : Mnemonic} {b : Bool} {f3 : BitVec 3} {op : BitVec 7} {build : Word → Instr}
    (hrow : ⟨m, packR 0x20#7 0 0 7#3 0 0x7F#7, packR (if b then 0x20#7 else 0#7) 0 0 f3 0 op⟩ ∈ opcodeTable)
    (hm : ∀ w, (build w).mnemonic = m)
    (hdecode : ∀ w, opcode w = op → funct3 w = f3 → w.getLsbD 30 = b → decode w = .ok (build w)) :
    EncodedBy m (packR 0x20#7 0 0 7#3 0 0x7F#7) (packR (if b then 0x20#7 else 0#7) 0 0 f3 0 op) build :=
  encodedBy_of_decode hrow hm fun w h =>
    have ⟨ho, h3, hb⟩ := (matches_bit30_iff w b f3 op).1 h
    hdecode w ho h3 hb

theorem encodedBy_srli : EncodedBy .srli 0x4000707F#32 0x00005013#32
    (fun w => .srli (rdField w) (rs1Field w) (immI w)) :=
  encodedBy_of_bit30 (b := false) (f3 := 5#3) (op := 0x13#7) (by decide) (fun _ => rfl) fun w ho h3 hb => by
    rw [decode_eq_decodeI ho, decodeI, h3, hb]
    rfl

theorem encodedBy_srai : EncodedBy .srai 0x4000707F#32 0x40005013#32
    (fun w => .srai (rdField w) (rs1Field w) (immI w)) :=
  encodedBy_of_bit30 (b := true) (f3 := 5#3) (op := 0x13#7) (by decide) (fun _ => rfl) fun w ho h3 hb => by
    rw [decode_eq_decodeI ho, decodeI, h3, hb]
    rfl

/-! ### Effects -/

section

variable (s : State) (rd rs1 rs2 : Reg) (f7 : BitVec 7) (imm : Word)

theorem exec_sll_spec : ∃ t, exec (.sll rd rs1 rs2 f7) s = .next t ∧
    Wrote s t rd (shiftLeft (s.readReg rs1) (shiftAmount (s.readReg rs2))) (s.pc + 4#32) :=
  writeResult_spec rd _ s

theorem exec_slt_spec : ∃ t, exec (.slt rd rs1 rs2 f7) s = .next t ∧
    Wrote s t rd (if (s.readReg rs1).toInt < (s.readReg rs2).toInt then 1#32 else 0#32) (s.pc + 4#32) := by
  rw [← boolWord_decide]
  exact writeResult_spec rd _ s

theorem exec_sltu_spec : ∃ t, exec (.sltu rd rs1 rs2 f7) s = .next t ∧
    Wrote s t rd (if (s.readReg rs1).toNat < (s.readReg rs2).toNat then 1#32 else 0#32) (s.pc + 4#32) := by
  rw [← boolWord_decide]
  exact writeResult_spec rd _ s

theorem exec_xor_spec : ∃ t, exec (.xor rd rs1 rs2 f7) s = .next t ∧
    Wrote s t rd (s.readReg rs1 ^^^ s.readReg rs2) (s.pc + 4#32) :=
  writeResult_spec rd _ s

theorem exec_or_spec : ∃ t, exec (.or rd rs1 rs2 f7) s = .next t ∧
    Wrote s t rd (s.readReg rs1 ||| s.readReg rs2) (s.pc + 4#32) :=
  writeResult_spec rd _ s

theorem exec_and_spec : ∃ t, exec (.and rd rs1 rs2 f7) s = .next t ∧
    Wrote s t rd (s.readReg rs1 &&& s.readReg rs2) (s.pc + 4#32) :=
  writeResult_spec rd _ s

theorem exec_slli_spec : ∃ t, exec (.slli rd rs1 imm) s = .next t ∧
    Wrote s t rd (shiftLeft (s.readReg rs1) (shiftAmount imm)) (s.pc + 4#32) :=
  writeResult_spec rd _ s

theorem exec_srli_spec : ∃ t, exec (.srli rd rs1 imm) s = .next t ∧
    Wrote s t rd (shiftRightLogical (s.readReg rs1) (shiftAmount imm)) (s.pc + 4#32) :=
  writeResult_spec rd _ s

theorem exec_srai_spec : ∃ t, exec (.srai rd rs1 imm) s = .next t ∧
    Wrote s t rd (shiftRightArith (s.readReg rs1) (shiftAmount imm)) (s.pc + 4#32) :=
  writeResult_spec rd _ s

end

/-! ### Signed and unsigned comparison -/

/-- R142: the two comparisons of a pair agree exactly when the signs do. -/
theorem toInt_lt_iff_toNat_lt_iff (a b : Word) :
    (a.toInt < b.toInt ↔ a.toNat < b.toNat) ↔ (a.toInt < 0 ↔ b.toInt < 0) := by
  have ha := a.isLt
  have hb := b.isLt
  rw [BitVec.toInt_eq_toNat_cond, BitVec.toInt_eq_toNat_cond]
  split <;> split <;> omega

theorem bit_ne_bit_iff (p q : Prop) [Decidable p] [Decidable q] :
    (if p then 1#32 else 0#32) ≠ (if q then 1#32 else 0#32) ↔ ¬ (p ↔ q) := by
  by_cases hp : p <;> by_cases hq : q <;> simp [hp, hq]

/-! ### The shift amount of an immediate -/

/-- R107: the five bits above rs1's field, whatever stands in the upper bits. -/
theorem toNat_immI_mod (w : Word) : (immI w).toNat % 32 = (w.extractLsb' 20 5).toNat := by
  have hlow : (immI w).setWidth 5 = w.extractLsb' 20 5 := by
    apply BitVec.eq_of_getLsbD_eq
    intro k hk
    simp only [immI, BitVec.getLsbD_setWidth, BitVec.getLsbD_signExtend, BitVec.getLsbD_extractLsb', hk,
      show k < 32 by omega, show k < 12 by omega, decide_true, Bool.true_and, if_true]
  rw [← hlow, BitVec.toNat_setWidth]

/-! ### The obligations -/

/-- Settles O3: `<<` is the product by a power of two (`toNat_shiftLeft`), the amount x[rs2] mod 32. -/
theorem sllMultipliesByPowerOfTwo : Obligations.SllMultipliesByPowerOfTwo := by
  unfold Obligations.SllMultipliesByPowerOfTwo
  refine ⟨encodedBy_sll, fun s rd rs1 rs2 f7 => ?_⟩
  obtain ⟨t, ht, hw⟩ := exec_sll_spec s rd rs1 rs2 f7
  exact ⟨t, _, ht, hw, by rw [toNat_shiftLeft, shiftAmount_eq]⟩

/-- Settles O4: both write their comparison as a word through the lock check. -/
theorem sltAndSltuCompareRegisters : Obligations.SltAndSltuCompareRegisters :=
  ⟨encodedBy_slt, encodedBy_sltu, fun s rd rs1 rs2 f7 =>
    ⟨exec_slt_spec s rd rs1 rs2 f7, exec_sltu_spec s rd rs1 rs2 f7⟩⟩

/-- Settles O5: the words written are Lean's bitwise operations, whose bits the library states. -/
theorem registerLogicIsBitwise : Obligations.RegisterLogicIsBitwise := by
  unfold Obligations.RegisterLogicIsBitwise
  refine ⟨encodedBy_xor, encodedBy_or, encodedBy_and, fun s rd rs1 rs2 f7 => ⟨?_, ?_, ?_⟩⟩
  · obtain ⟨t, ht, hw⟩ := exec_xor_spec s rd rs1 rs2 f7
    exact ⟨t, _, ht, hw, fun _ => BitVec.getLsbD_xor⟩
  · obtain ⟨t, ht, hw⟩ := exec_or_spec s rd rs1 rs2 f7
    exact ⟨t, _, ht, hw, fun _ => BitVec.getLsbD_or⟩
  · obtain ⟨t, ht, hw⟩ := exec_and_spec s rd rs1 rs2 f7
    exact ⟨t, _, ht, hw, fun _ => BitVec.getLsbD_and⟩

/-- Settles O6: the two results differ when the two comparisons do, and those agree exactly on
operands of one sign. -/
theorem sltAndSltuDisagreeExactlyOnMixedSigns : Obligations.SltAndSltuDisagreeExactlyOnMixedSigns := by
  unfold Obligations.SltAndSltuDisagreeExactlyOnMixedSigns
  intro s t u rd rs1 rs2 f7 hl ht hu
  obtain ⟨t', ht', hslt⟩ := exec_slt_spec s rd rs1 rs2 f7
  obtain ⟨u', hu', hsltu⟩ := exec_sltu_spec s rd rs1 rs2 f7
  cases ht.symm.trans ht'
  cases hu.symm.trans hu'
  rw [readReg_dest_of_unlocked hslt hl, readReg_dest_of_unlocked hsltu hl, bit_ne_bit_iff,
    toInt_lt_iff_toNat_lt_iff]
  omega

/-- Settles O10: products and quotients by 2^n as for the register shifts, n the low five bits of the
immediate, which are bits 24:20 of the word. -/
theorem shiftImmediatesUseBits24To20 : Obligations.ShiftImmediatesUseBits24To20 := by
  unfold Obligations.ShiftImmediatesUseBits24To20
  refine ⟨encodedBy_slli, encodedBy_srli, encodedBy_srai, toNat_immI_mod, fun s rd rs1 imm => ⟨?_, ?_, ?_⟩⟩
  · obtain ⟨t, ht, hw⟩ := exec_slli_spec s rd rs1 imm
    exact ⟨t, _, ht, hw, by rw [toNat_shiftLeft, shiftAmount_eq]⟩
  · obtain ⟨t, ht, hw⟩ := exec_srli_spec s rd rs1 imm
    exact ⟨t, _, ht, hw, by rw [toNat_shiftRightLogical, shiftAmount_eq]⟩
  · obtain ⟨t, ht, hw⟩ := exec_srai_spec s rd rs1 imm
    exact ⟨t, _, ht, hw, by rw [toInt_shiftRightArith, shiftAmount_eq]⟩

end Sys2Proof.Machine
end

section
/-! SUPPORT. Loads and stores (42_store_load.md, 20_memory.md): their encodings, the values loads
extend, the offsets of the two formats, and accesses outside DataMemory. -/

namespace Sys2Proof.Machine

open Sys2Proof.Safety

/-! ### Encodings -/

theorem decode_eq_decodeS {w : Word} (ho : opcode w = 0x23#7) : decode w = decodeS w := by
  rw [decode, ho]
  rfl

theorem decode_eq_decodeL {w : Word} (ho : opcode w = 0x03#7) : decode w = decodeL w := by
  rw [decode, ho]
  rfl

theorem encodedBy_sb : EncodedBy .sb 0x0000707F#32 0x00000023#32
    (fun w => .sb (rs1Field w) (rs2Field w) (immS w)) :=
  encodedBy_of_funct3 (f3 := 0#3) (op := 0x23#7) (by decide) (fun _ => rfl) fun w ho h3 => by
    simp [decode_eq_decodeS ho, decodeS, h3]

theorem encodedBy_sh : EncodedBy .sh 0x0000707F#32 0x00001023#32
    (fun w => .sh (rs1Field w) (rs2Field w) (immS w)) :=
  encodedBy_of_funct3 (f3 := 1#3) (op := 0x23#7) (by decide) (fun _ => rfl) fun w ho h3 => by
    simp [decode_eq_decodeS ho, decodeS, h3]

theorem encodedBy_sw : EncodedBy .sw 0x0000707F#32 0x00002023#32
    (fun w => .sw (rs1Field w) (rs2Field w) (immS w)) :=
  encodedBy_of_funct3 (f3 := 2#3) (op := 0x23#7) (by decide) (fun _ => rfl) fun w ho h3 => by
    simp [decode_eq_decodeS ho, decodeS, h3]

theorem encodedBy_lb : EncodedBy .lb 0x0000707F#32 0x00000003#32
    (fun w => .lb (rdField w) (rs1Field w) (immI w)) :=
  encodedBy_of_funct3 (f3 := 0#3) (op := 0x03#7) (by decide) (fun _ => rfl) fun w ho h3 => by
    simp [decode_eq_decodeL ho, decodeL, h3]

theorem encodedBy_lh : EncodedBy .lh 0x0000707F#32 0x00001003#32
    (fun w => .lh (rdField w) (rs1Field w) (immI w)) :=
  encodedBy_of_funct3 (f3 := 1#3) (op := 0x03#7) (by decide) (fun _ => rfl) fun w ho h3 => by
    simp [decode_eq_decodeL ho, decodeL, h3]

theorem encodedBy_lw : EncodedBy .lw 0x0000707F#32 0x00002003#32
    (fun w => .lw (rdField w) (rs1Field w) (immI w)) :=
  encodedBy_of_funct3 (f3 := 2#3) (op := 0x03#7) (by decide) (fun _ => rfl) fun w ho h3 => by
    simp [decode_eq_decodeL ho, decodeL, h3]

theorem encodedBy_lbu : EncodedBy .lbu 0x0000707F#32 0x00004003#32
    (fun w => .lbu (rdField w) (rs1Field w) (immI w)) :=
  encodedBy_of_funct3 (f3 := 4#3) (op := 0x03#7) (by decide) (fun _ => rfl) fun w ho h3 => by
    simp [decode_eq_decodeL ho, decodeL, h3]

theorem encodedBy_lhu : EncodedBy .lhu 0x0000707F#32 0x00005003#32
    (fun w => .lhu (rdField w) (rs1Field w) (immI w)) :=
  encodedBy_of_funct3 (f3 := 5#3) (op := 0x03#7) (by decide) (fun _ => rfl) fun w ho h3 => by
    simp [decode_eq_decodeL ho, decodeL, h3]

/-! ### The values loads write (R174) -/

theorem toInt_append_byte {n : Nat} (x : BitVec (n + 1)) (y : Byte) :
    (x ++ y).toInt = x.toInt * 256 + y.toNat := by
  have hy := y.isLt
  have hpow : 2 ^ (n + 1 + 8) = 2 ^ (n + 1) * 256 := by rw [Nat.pow_add]
  rw [BitVec.toInt_eq_toNat_cond, BitVec.toInt_eq_toNat_cond, toNat_append_byte, hpow]
  split <;> split <;> push_cast <;> omega

section

variable (m : Memory) (a : Nat)

theorem toInt_extendLoaded_byte :
    (extendLoaded .sign .byte (Memory.readValue m a .byte)).toInt = (Memory.read m a).toInt := by
  have hx : ((Memory.read m a).setWidth 32).setWidth 8 = Memory.read m a :=
    BitVec.setWidth_setWidth_of_le _ (by decide)
  rw [Memory.readValue_byte, extendLoaded, hx, BitVec.toInt_signExtend_of_le (by decide)]

theorem toInt_extendLoaded_half : (extendLoaded .sign .half (Memory.readValue m a .half)).toInt =
    (Memory.read m (a + 1)).toInt * 256 + (Memory.read m a).toNat := by
  have hx : ((Memory.read m (a + 1) ++ Memory.read m a).setWidth 32).setWidth 16 =
      Memory.read m (a + 1) ++ Memory.read m a := BitVec.setWidth_setWidth_of_le _ (by decide)
  rw [Memory.readValue_half, extendLoaded, hx, BitVec.toInt_signExtend_of_le (by decide), toInt_append_byte]

theorem toNat_readValue_byte : (Memory.readValue m a .byte).toNat = (Memory.read m a).toNat := by
  rw [Memory.readValue_byte, BitVec.toNat_setWidth_of_le (by decide)]

theorem toNat_readValue_half : (Memory.readValue m a .half).toNat =
    (Memory.read m (a + 1)).toNat * 256 + (Memory.read m a).toNat := by
  rw [Memory.readValue_half, BitVec.toNat_setWidth_of_le (by decide), toNat_append_byte]

/-- The value of an n-byte read is zero-extended (R65). -/
theorem Memory.readValue_lt (n : Width) : (Memory.readValue m a n).toNat < 2 ^ (8 * n.bytes) := by
  cases n with
  | byte =>
    rw [toNat_readValue_byte]
    exact (Memory.read m a).isLt
  | half =>
    have hlow := (Memory.read m a).isLt
    have hhigh := (Memory.read m (a + 1)).isLt
    rw [toNat_readValue_half, Width.bytes]
    omega
  | word => exact (Memory.readValue m a .word).isLt

end

/-! ### Accesses outside DataMemory -/

theorem exec_of_accesses_outOfBounds {i : Instr} {n : Width} {rs1 : Reg} {imm : Word} {s : State}
    (h : Accesses i n rs1 imm) (hb : s.cfg.dmemSize < (s.effAddr rs1 imm).toNat + n.bytes) :
    exec i s = .next (s.haltWith .memoryBoundsFault (encode i) (s.effAddr rs1 imm)) := by
  obtain ⟨rs2, hs⟩ | ⟨rd, hl⟩ := h
  · rw [exec_of_stores hs, storeValue_outOfBounds _ hb]
  · obtain ⟨e, he⟩ := exec_of_loads hl
    rw [he, loadValue_outOfBounds _ _ hb]

/-! The cycle of a fetched word that decodes, by how its instruction leaves the engine. -/

theorem step_of_exec_halted {s t : State} {w : Word} {i : Instr} (hf : Fetches s w) (hd : decode w = .ok i)
    (hx : exec i s = .next t) (ht : t.halted = true) : step s = .next t := by
  rw [step_of_fetches hf, runWord_ok hd hx, if_pos ht]

theorem step_of_exec_running {s t : State} {w : Word} {i : Instr} (hf : Fetches s w) (hd : decode w = .ok i)
    (hx : exec i s = .next t) (ht : t.halted = false) : step s = .next t.countStep := by
  rw [step_of_fetches hf, runWord_ok hd hx, if_neg (by simp [ht])]

theorem step_haltedWith {s : State} {w x a : Word} {i : Instr} {c : HaltCause} (hf : Fetches s w)
    (hd : decode w = .ok i) (hx : exec i s = .next (s.haltWith c x a)) :
    ∃ t, step s = .next t ∧ HaltedWith s t c x a :=
  ⟨_, step_of_exec_halted hf hd hx rfl, haltWith_spec s c x a⟩

/-- A cycle that runs an access outside DataMemory; the word recorded is the word fetched, because it
is the encoding of what it decodes to. -/
theorem step_of_accesses_outOfBounds {s : State} {w : Word} {i : Instr} {n : Width} {rs1 : Reg} {imm : Word}
    (hf : Fetches s w) (hb : s.cfg.dmemSize < (s.effAddr rs1 imm).toNat + n.bytes)
    (ha : Accesses i n rs1 imm) (hd : decode w = .ok i) :
    ∃ t, step s = .next t ∧ HaltedWith s t .memoryBoundsFault w (s.effAddr rs1 imm) := by
  obtain ⟨-, henc⟩ := isWordOf_of_decode hd
  have hx := exec_of_accesses_outOfBounds ha hb
  rw [henc] at hx
  exact step_haltedWith hf hd hx

/-! ### Store and load offsets -/

/-- Sign extension of n bits is their zero extension, less 2^n when the top bit is set: here with
4096 added back (R181). -/
theorem setWidth_eq_signExtend_add (x : BitVec 12) :
    x.setWidth 32 = if x.msb then x.signExtend 32 + 4096#32 else x.signExtend 32 := by
  have hx := x.isLt
  apply BitVec.eq_of_toNat_eq
  split <;> simp only [*, BitVec.toNat_add, BitVec.toNat_signExtend, BitVec.toNat_setWidth,
    BitVec.toNat_ofNat, if_true, if_false, Bool.false_eq_true] <;> omega

theorem msb_extract_offset (w : Word) : (w.extractLsb' 20 12).msb = w.getLsbD 31 := by
  simp [BitVec.msb_eq_getLsbD_last]

/-! ### The obligations -/

/-- Settles O11: a store in bounds ends in `storeValue_spec`. -/
theorem storesWriteTheirBytesOnly : Obligations.StoresWriteTheirBytesOnly :=
  ⟨encodedBy_sb, encodedBy_sh, encodedBy_sw, fun _ _ _ _ =>
    ⟨storeValue_spec (n := .byte) _, storeValue_spec (n := .half) _, storeValue_spec (n := .word) _⟩⟩

/-- Settles O12: a load in bounds ends in `loadValue_spec`; the values are those of the bytes read. -/
theorem loadsExtendTheBytesTheyRead : Obligations.LoadsExtendTheBytesTheyRead := by
  unfold Obligations.LoadsExtendTheBytesTheyRead
  refine ⟨encodedBy_lb, encodedBy_lh, encodedBy_lw, encodedBy_lbu, encodedBy_lhu, ?_⟩
  rintro s rd rs1 imm _ rfl
  refine ⟨fun hb => ⟨?_, ?_⟩, fun hb => ⟨?_, ?_⟩, fun hb => ?_⟩
  · obtain ⟨t, ht, hw⟩ := loadValue_spec (n := .byte) (rd := rd) (encode (.lb rd rs1 imm)) .sign hb
    exact ⟨t, _, ht, hw, toInt_extendLoaded_byte _ _⟩
  · obtain ⟨t, ht, hw⟩ := loadValue_spec (n := .byte) (rd := rd) (encode (.lbu rd rs1 imm)) .zero hb
    exact ⟨t, _, ht, hw, toNat_readValue_byte _ _⟩
  · obtain ⟨t, ht, hw⟩ := loadValue_spec (n := .half) (rd := rd) (encode (.lh rd rs1 imm)) .sign hb
    exact ⟨t, _, ht, hw, toInt_extendLoaded_half _ _⟩
  · obtain ⟨t, ht, hw⟩ := loadValue_spec (n := .half) (rd := rd) (encode (.lhu rd rs1 imm)) .zero hb
    exact ⟨t, _, ht, hw, toNat_readValue_half _ _⟩
  · obtain ⟨t, ht, hw⟩ := loadValue_spec (n := .word) (rd := rd) (encode (.lw rd rs1 imm)) .sign hb
    exact ⟨t, _, ht, hw, fun k hk => Memory.byteOf_readValue s.dmem _ .word hk⟩

/-- Settles O13: each of the eight forms is an access of its width, and an access outside DataMemory
halts. -/
theorem outOfBoundsAccessesHalt : Obligations.OutOfBoundsAccessesHalt := by
  unfold Obligations.OutOfBoundsAccessesHalt
  intro s w hf n rd rs1 rs2 imm hb hd
  have hhalt := fun i => step_of_accesses_outOfBounds (i := i) hf hb
  rcases hd with ⟨rfl, hd | hd | hd⟩ | ⟨rfl, hd | hd | hd⟩ | ⟨rfl, hd | hd⟩
  · exact hhalt _ (.inr ⟨rd, .inl rfl⟩) hd
  · exact hhalt _ (.inr ⟨rd, .inr rfl⟩) hd
  · exact hhalt _ (.inl ⟨rs2, rfl⟩) hd
  · exact hhalt _ (.inr ⟨rd, .inl rfl⟩) hd
  · exact hhalt _ (.inr ⟨rd, .inr rfl⟩) hd
  · exact hhalt _ (.inl ⟨rs2, rfl⟩) hd
  · exact hhalt _ (.inr ⟨rd, rfl⟩) hd
  · exact hhalt _ (.inl ⟨rs2, rfl⟩) hd

/-- Settles O15: out of bounds both answer none; in bounds the value read has the bytes there, and the
write has the frame of a store. -/
theorem memoryPrimitivesAreBytewiseAndBounded : Obligations.MemoryPrimitivesAreBytewiseAndBounded := by
  unfold Obligations.MemoryPrimitivesAreBytewiseAndBounded
  refine fun s A v n => ⟨fun hb => ?_, fun hb => ⟨?_, ?_⟩⟩
  · exact ⟨State.memRead_eq_none_iff.2 hb, State.memWrite_eq_none_iff.2 hb⟩
  · exact ⟨_, State.memRead_of_inBounds hb, fun k hk => Memory.byteOf_readValue s.dmem A.toNat n hk,
      Memory.readValue_lt s.dmem A.toNat n⟩
  · exact ⟨_, State.memWrite_of_inBounds v hb, stored_setDmem s A.toNat n v⟩

/-- Settles O16: the same 12 bits, zero-extended in the store and sign-extended in the load. -/
theorem storeOffsetsAreUnsignedLoadOffsetsSigned : Obligations.StoreOffsetsAreUnsignedLoadOffsetsSigned := by
  unfold Obligations.StoreOffsetsAreUnsignedLoadOffsetsSigned
  intro st ld hbits
  have hstore : (immS st).toNat ≤ 4095 := of_decide_eq_true (fitsS_immS st)
  obtain ⟨hl, hu⟩ := fitsI_iff.1 (fitsI_immI ld)
  refine ⟨?_, hstore, hl, hu⟩
  rw [immS, hbits, setWidth_eq_signExtend_add, msb_extract_offset, immI]

end Sys2Proof.Machine
end

section
/-! SUPPORT. Control transfer (44_control_transfer.md): the encodings and effects of the branches and
jumps, the bits of the immediates (30_encoding.md), and what a transfer does to the next fetch. -/

namespace Sys2Proof.Machine

open Sys2Proof.Safety

/-! ### Encodings -/

theorem decode_eq_decodeB {w : Word} (ho : opcode w = 0x63#7) : decode w = decodeB w := by
  rw [decode, ho]
  rfl

theorem encodedBy_beq : EncodedBy .beq 0x0000707F#32 0x00000063#32
    (fun w => .beq (rs1Field w) (rs2Field w) (immB w)) :=
  encodedBy_of_funct3 (f3 := 0#3) (op := 0x63#7) (by decide) (fun _ => rfl) fun w ho h3 => by
    simp [decode_eq_decodeB ho, decodeB, h3]

theorem encodedBy_bne : EncodedBy .bne 0x0000707F#32 0x00001063#32
    (fun w => .bne (rs1Field w) (rs2Field w) (immB w)) :=
  encodedBy_of_funct3 (f3 := 1#3) (op := 0x63#7) (by decide) (fun _ => rfl) fun w ho h3 => by
    simp [decode_eq_decodeB ho, decodeB, h3]

theorem encodedBy_blt : EncodedBy .blt 0x0000707F#32 0x00004063#32
    (fun w => .blt (rs1Field w) (rs2Field w) (immB w)) :=
  encodedBy_of_funct3 (f3 := 4#3) (op := 0x63#7) (by decide) (fun _ => rfl) fun w ho h3 => by
    simp [decode_eq_decodeB ho, decodeB, h3]

theorem encodedBy_bge : EncodedBy .bge 0x0000707F#32 0x00005063#32
    (fun w => .bge (rs1Field w) (rs2Field w) (immB w)) :=
  encodedBy_of_funct3 (f3 := 5#3) (op := 0x63#7) (by decide) (fun _ => rfl) fun w ho h3 => by
    simp [decode_eq_decodeB ho, decodeB, h3]

theorem encodedBy_bltu : EncodedBy .bltu 0x0000707F#32 0x00006063#32
    (fun w => .bltu (rs1Field w) (rs2Field w) (immB w)) :=
  encodedBy_of_funct3 (f3 := 6#3) (op := 0x63#7) (by decide) (fun _ => rfl) fun w ho h3 => by
    simp [decode_eq_decodeB ho, decodeB, h3]

theorem encodedBy_bgeu : EncodedBy .bgeu 0x0000707F#32 0x00007063#32
    (fun w => .bgeu (rs1Field w) (rs2Field w) (immB w)) :=
  encodedBy_of_funct3 (f3 := 7#3) (op := 0x63#7) (by decide) (fun _ => rfl) fun w ho h3 => by
    simp [decode_eq_decodeB ho, decodeB, h3]

theorem encodedBy_jal : EncodedBy .jal 0x0000007F#32 0x0000006F#32
    (fun w => .jal (rdField w) (immJ w)) :=
  encodedBy_of_opcode (op := 0x6F#7) (by decide) (fun _ => rfl) fun w ho => by
    simp [decode, formatOf, ho]

theorem encodedBy_jalr : EncodedBy .jalr 0x0000007F#32 0x00000067#32
    (fun w => .jalr (rdField w) (rs1Field w) (immI w) (funct3 w)) :=
  encodedBy_of_opcode (op := 0x67#7) (by decide) (fun _ => rfl) fun w ho => by
    simp [decode, formatOf, ho]

/-! ### Branches -/

theorem branchOn_decide_spec (p : Prop) [Decidable p] (imm : Word) (s : State) :
    ∃ t, branchOn (decide p) imm s = .next t ∧ Branched s t (if p then s.pc + imm else s.pc + 4#32) := by
  simpa only [decide_eq_true_eq] using branchOn_spec (decide p) imm s

theorem branchOn_not_decide_spec (p : Prop) [Decidable p] (imm : Word) (s : State) :
    ∃ t, branchOn (!decide p) imm s = .next t ∧ Branched s t (if p then s.pc + 4#32 else s.pc + imm) := by
  simpa only [Bool.not_eq_true', decide_eq_false_iff_not, ite_not] using branchOn_spec (!decide p) imm s

section

variable (s : State) (rd rs1 rs2 : Reg) (imm : Word) (f3 : BitVec 3)

theorem exec_beq_spec : ∃ t, exec (.beq rs1 rs2 imm) s = .next t ∧
    Branched s t (if s.readReg rs1 = s.readReg rs2 then s.pc + imm else s.pc + 4#32) :=
  branchOn_decide_spec (s.readReg rs1 = s.readReg rs2) imm s

theorem exec_bne_spec : ∃ t, exec (.bne rs1 rs2 imm) s = .next t ∧
    Branched s t (if s.readReg rs1 = s.readReg rs2 then s.pc + 4#32 else s.pc + imm) :=
  branchOn_not_decide_spec (s.readReg rs1 = s.readReg rs2) imm s

theorem exec_blt_spec : ∃ t, exec (.blt rs1 rs2 imm) s = .next t ∧
    Branched s t (if (s.readReg rs1).toInt < (s.readReg rs2).toInt then s.pc + imm else s.pc + 4#32) :=
  branchOn_decide_spec ((s.readReg rs1).toInt < (s.readReg rs2).toInt) imm s

theorem exec_bge_spec : ∃ t, exec (.bge rs1 rs2 imm) s = .next t ∧
    Branched s t (if (s.readReg rs1).toInt ≥ (s.readReg rs2).toInt then s.pc + imm else s.pc + 4#32) := by
  simp only [ge_iff_le, ← not_lt, ite_not]
  exact branchOn_not_decide_spec ((s.readReg rs1).toInt < (s.readReg rs2).toInt) imm s

theorem exec_bltu_spec : ∃ t, exec (.bltu rs1 rs2 imm) s = .next t ∧
    Branched s t (if (s.readReg rs1).toNat < (s.readReg rs2).toNat then s.pc + imm else s.pc + 4#32) :=
  branchOn_decide_spec ((s.readReg rs1).toNat < (s.readReg rs2).toNat) imm s

theorem exec_bgeu_spec : ∃ t, exec (.bgeu rs1 rs2 imm) s = .next t ∧
    Branched s t (if (s.readReg rs1).toNat ≥ (s.readReg rs2).toNat then s.pc + imm else s.pc + 4#32) := by
  simp only [ge_iff_le, ← not_lt, ite_not]
  exact branchOn_not_decide_spec ((s.readReg rs1).toNat < (s.readReg rs2).toNat) imm s

theorem exec_jal_spec : ∃ t, exec (.jal rd imm) s = .next t ∧ Wrote s t rd (s.pc + 4#32) (s.pc + imm) := by
  rw [exec_jal_eq_jumpAndLink]
  exact jumpAndLink_spec rd _ s

theorem exec_jalr_spec : ∃ t, exec (.jalr rd rs1 imm f3) s = .next t ∧
    Wrote s t rd (s.pc + 4#32) ((s.readReg rs1 + imm) &&& 0xFFFFFFFE#32) := by
  rw [exec_jalr_eq_jumpAndLink]
  exact jumpAndLink_spec rd _ s

end

/-- Settles O18: a branch goes by its comparison. -/
theorem equalityBranchesCompareRegisters : Obligations.EqualityBranchesCompareRegisters :=
  ⟨encodedBy_beq, encodedBy_bne, fun s rs1 rs2 imm =>
    ⟨exec_beq_spec s rs1 rs2 imm, exec_bne_spec s rs1 rs2 imm⟩⟩

/-- Settles O19: BGE branches where BLT does not. -/
theorem signedBranchesCompareSigned : Obligations.SignedBranchesCompareSigned :=
  ⟨encodedBy_blt, encodedBy_bge, fun s rs1 rs2 imm =>
    ⟨exec_blt_spec s rs1 rs2 imm, exec_bge_spec s rs1 rs2 imm⟩⟩

/-- Settles O20: BGEU branches where BLTU does not. -/
theorem unsignedBranchesCompareUnsigned : Obligations.UnsignedBranchesCompareUnsigned :=
  ⟨encodedBy_bltu, encodedBy_bgeu, fun s rs1 rs2 imm =>
    ⟨exec_bltu_spec s rs1 rs2 imm, exec_bgeu_spec s rs1 rs2 imm⟩⟩

/-! ### Jumps -/

/-- Settles O21: the jump through the lock, and a target without four image bytes fetches no word. -/
theorem jalLinksAndJumpsRelative : Obligations.JalLinksAndJumpsRelative := by
  unfold Obligations.JalLinksAndJumpsRelative
  refine ⟨encodedBy_jal, fun w => ⟨rfl, rfl⟩, fun s rd imm => ?_⟩
  obtain ⟨t, ht, hw⟩ := exec_jal_spec s rd imm
  refine ⟨t, ht, hw, fun hb => ?_, lockedWriteOf_of_wrote_zero rfl hw⟩
  rw [State.fetch_eq_none_iff, hw.cfg, hw.pc]
  exact hb

/-- Settles O22: the jump through the lock; the mask clears bit 0 of the target. -/
theorem jalrLinksAndJumpsToEvenTarget : Obligations.JalrLinksAndJumpsToEvenTarget := by
  unfold Obligations.JalrLinksAndJumpsToEvenTarget
  refine ⟨encodedBy_jalr, fun s rd rs1 imm f3 => ?_⟩
  obtain ⟨t, ht, hw⟩ := exec_jalr_spec s rd rs1 imm f3
  exact ⟨t, _, ht, hw, by rw [toNat_and_mask, BitVec.toNat_add]⟩

/-! ### The bits of the immediates -/

/-- Bit k of a sign-extended immediate: its own, or its top bit from there on. -/
theorem getLsbD_signExtend_of_lt {n : Nat} (x : BitVec (n + 1)) {k : Nat} (hk : k < 32) :
    (x.signExtend 32).getLsbD k = x.getLsbD (min k n) := by
  rw [BitVec.getLsbD_signExtend, BitVec.msb_eq_getLsbD_last, decide_eq_true hk, Bool.true_and]
  split
  · rw [Nat.min_eq_left (by omega)]
  · rw [Nat.min_eq_right (by omega), Nat.add_sub_cancel]

/-- Settles O25: the bits of a concatenation of slices, position by position. -/
theorem immediatesTakeTheirBitsFromTheWord : Obligations.ImmediatesTakeTheirBitsFromTheWord := by
  unfold Obligations.ImmediatesTakeTheirBitsFromTheWord
  intro w
  refine ⟨fun k hk => ?_, fun k hk => ?_, fun k hk => ?_, fun k hk => ?_, fun k hk => ?_⟩
  · rw [immI, getLsbD_signExtend_of_lt _ hk]
    interval_cases k <;> simp
  · simp only [immS, BitVec.getLsbD_setWidth, BitVec.getLsbD_append, BitVec.getLsbD_extractLsb']
    interval_cases k <;> simp
  · simp only [immB, getLsbD_signExtend_of_lt _ hk, BitVec.getLsbD_append, BitVec.getLsbD_extractLsb']
    interval_cases k <;> simp
  · simp only [immU, BitVec.getLsbD_append, BitVec.getLsbD_extractLsb']
    interval_cases k <;> simp
  · simp only [immJ, getLsbD_signExtend_of_lt _ hk, BitVec.getLsbD_append, BitVec.getLsbD_extractLsb']
    interval_cases k <;> simp

/-! ### The cycle, check by check -/

section

variable {s : State} (f : Option Word)

theorem cycle_of_halted (h : s.halted = true) : cycle f s = .next s := by
  simp [cycle, h]

theorem cycle_of_stepLimit (hrun : s.halted = false) (hl : s.stepLimitReached = true) :
    cycle f s = .next (s.haltWith .stepLimit 0#32 0#32) := by
  simp [cycle, hrun, hl]

theorem cycle_none (hrun : s.halted = false) (hl : s.stepLimitReached = false) :
    cycle none s = .next (s.haltWith .endOfStream 0#32 0#32) := by
  simp [cycle, hrun, hl]

theorem cycle_some {w : Word} (hrun : s.halted = false) (hl : s.stepLimitReached = false) :
    cycle (some w) s = runWord w s := by
  simp [cycle, hrun, hl]

/-- Too few image bytes at the pc end the stream. -/
theorem step_endOfStream (hrun : s.halted = false) (hl : s.stepLimitReached = false)
    (hb : s.cfg.imageSize < s.pc.toNat + 4) :
    ∃ t, step s = .next t ∧ HaltedWith s t .endOfStream 0#32 0#32 := by
  rw [step, State.fetch_eq_none_iff.2 hb, cycle_none hrun hl]
  exact ⟨_, rfl, haltWith_spec s _ _ _⟩

end

/-! ### Transfers out of the image -/

/-- What is left for the next cycle after a transfer to `p`. -/
structure ArrivesAt (s t : State) (p : Word) : Prop where
  pc : t.pc = p
  halted : t.halted = s.halted
  steps : t.steps = s.steps
  cfg : t.cfg = s.cfg

theorem arrivesAt_of_wrote {s t : State} {rd : Reg} {v p : Word} (h : Wrote s t rd v p) : ArrivesAt s t p :=
  ⟨h.pc, h.runStatus.halted, h.steps, h.cfg⟩

theorem arrivesAt_of_branched {s t : State} {p q : Word} {c : Prop} [Decidable c]
    (h : Branched s t (if c then p else q)) (hc : c) : ArrivesAt s t p :=
  ⟨h.pc.trans (if_pos hc), h.runStatus.halted, h.steps, h.cfg⟩

theorem arrivesAt_of_not_branched {s t : State} {p q : Word} {c : Prop} [Decidable c]
    (h : Branched s t (if c then q else p)) (hc : ¬ c) : ArrivesAt s t p :=
  ⟨h.pc.trans (if_neg hc), h.runStatus.halted, h.steps, h.cfg⟩

theorem endOfStream_of_arrivesAt {s t : State} {w p : Word} {i : Instr} (hf : Fetches s w) (hd : decode w = .ok i)
    (hx : exec i s = .next t) (ht : ArrivesAt s t p) (hb : s.cfg.imageSize < p.toNat + 4)
    (hl : ∀ n, s.cfg.maxSteps = some n → s.steps + 1 < n) :
    ∃ t u, step s = .next t ∧ t.pc = p ∧ t.halted = false ∧ step t = .next u ∧
      HaltedWith t u .endOfStream 0#32 0#32 := by
  have hrun : t.halted = false := ht.halted.trans hf.running
  have hstep : step s = .next t.countStep := step_of_exec_running hf hd hx hrun
  have hlimit : t.countStep.stepLimitReached = false := by
    rw [State.stepLimitReached_eq_false, State.countStep_cfg, State.countStep_steps, ht.cfg, ht.steps]
    exact hl
  have himage : t.countStep.cfg.imageSize < t.countStep.pc.toNat + 4 := by
    rw [State.countStep_cfg, State.countStep_pc, ht.cfg, ht.pc]
    exact hb
  obtain ⟨u, hu, hhalt⟩ := step_endOfStream (s := t.countStep) hrun hlimit himage
  exact ⟨_, u, hstep, ht.pc, hrun, hu, hhalt⟩

/-- Settles O23: a jump arrives at its target, and so does a branch whose comparison holds; the next
cycle finds too few image bytes there. -/
theorem transferOutsideTheImageEndsTheStream : Obligations.TransferOutsideTheImageEndsTheStream := by
  unfold Obligations.TransferOutsideTheImageEndsTheStream
  intro s w i p hf hd hi hb hl
  suffices h : ∃ t, exec i s = .next t ∧ ArrivesAt s t p by
    obtain ⟨t, hx, ht⟩ := h
    exact endOfStream_of_arrivesAt hf hd hx ht hb hl
  rcases hi with ⟨rd, imm, rfl, rfl⟩ | ⟨rd, rs1, imm, f3, rfl, rfl⟩ | ⟨rs1, rs2, imm, rfl, hi⟩
  · obtain ⟨t, hx, ht⟩ := exec_jal_spec s rd imm
    exact ⟨t, hx, arrivesAt_of_wrote ht⟩
  · obtain ⟨t, hx, ht⟩ := exec_jalr_spec s rd rs1 imm f3
    exact ⟨t, hx, arrivesAt_of_wrote ht⟩
  rcases hi with ⟨rfl, hc⟩ | ⟨rfl, hc⟩ | ⟨rfl, hc⟩ | ⟨rfl, hc⟩ | ⟨rfl, hc⟩ | ⟨rfl, hc⟩
  · obtain ⟨t, hx, ht⟩ := exec_beq_spec s rs1 rs2 imm
    exact ⟨t, hx, arrivesAt_of_branched ht hc⟩
  · obtain ⟨t, hx, ht⟩ := exec_bne_spec s rs1 rs2 imm
    exact ⟨t, hx, arrivesAt_of_not_branched ht hc⟩
  · obtain ⟨t, hx, ht⟩ := exec_blt_spec s rs1 rs2 imm
    exact ⟨t, hx, arrivesAt_of_branched ht hc⟩
  · obtain ⟨t, hx, ht⟩ := exec_bge_spec s rs1 rs2 imm
    exact ⟨t, hx, arrivesAt_of_branched ht hc⟩
  · obtain ⟨t, hx, ht⟩ := exec_bltu_spec s rs1 rs2 imm
    exact ⟨t, hx, arrivesAt_of_branched ht hc⟩
  · obtain ⟨t, hx, ht⟩ := exec_bgeu_spec s rs1 rs2 imm
    exact ⟨t, hx, arrivesAt_of_branched ht hc⟩

end Sys2Proof.Machine
end

section
/-! SUPPORT. The pseudo-instructions (30_encoding.md R123): their expansions through the effects of
the instructions they expand to. -/

namespace Sys2Proof.Machine

open Sys2Proof.Safety

/-! ### Writes in sequence -/

/-- Of two writes to one register the second counts. -/
theorem wrote_trans {s t u : State} {rd : Reg} {v v' p p' : Word} (h : Wrote s t rd v p)
    (h' : Wrote t u rd v' p') : Wrote s u rd v' p' where
  dest := by
    rw [h'.dest, h.locks, h.dest]
    split <;> rfl
  others r hr := (h'.others r hr).trans (h.others r hr)
  locks r := (h'.locks r).trans (h.locks r)
  pc := h'.pc
  memory a := (h'.memory a).trans (h.memory a)
  runStatus :=
    { halted := h'.runStatus.halted.trans h.runStatus.halted
      haltCause := h'.runStatus.haltCause.trans h.runStatus.haltCause
      haltPc := h'.runStatus.haltPc.trans h.runStatus.haltPc
      haltWord := h'.runStatus.haltWord.trans h.runStatus.haltWord
      haltAddr := h'.runStatus.haltAddr.trans h.runStatus.haltAddr }
  steps := h'.steps.trans h.steps
  cfg := h'.cfg.trans h.cfg

/-- What is written matters only to an unlocked register. -/
theorem wrote_congr {s t : State} {rd : Reg} {v v' p : Word} (h : Wrote s t rd v p)
    (hv : s.isLocked rd = false → v = v') : Wrote s t rd v' p :=
  { h with
    dest := by
      rw [h.dest]
      cases hl : s.isLocked rd
      · exact hv hl
      · rfl }

/-! ### Writes that register 0 drops -/

theorem lockedWriteOf_zero {i : Instr} {s t : State} (hi : destOf i = some 0) (ht : t.halted = false) :
    lockedWriteOf i s t = true := by
  simp [lockedWriteOf, hi, ht]

theorem exec_addi_zero (s : State) (rs1 : Reg) (imm : Word) :
    exec (.addi 0 rs1 imm) s = .next (s.setPc (s.pc + 4#32)) := by
  rw [exec, execAddi, writeResult_eq, State.writeReg_zero]

theorem exec_jal_zero (s : State) (imm : Word) : exec (.jal 0 imm) s = .next (s.setPc (s.pc + imm)) := by
  rw [exec_jal_eq_jumpAndLink, jumpAndLink_locked s.isLocked_zero]

/-- `jr`, and `ret` with rs1 = 1. -/
theorem exec_jalr_zero (s : State) (rs1 : Reg) (f3 : BitVec 3) :
    exec (.jalr 0 rs1 0#32 f3) s = .next (s.setPc (s.readReg rs1 &&& 0xFFFFFFFE#32)) := by
  rw [exec_jalr_eq_jumpAndLink, jumpAndLink_locked s.isLocked_zero, BitVec.add_zero]

/-! ### Effects of the expansions -/

section

variable (s : State) (rd rs : Reg) (imm off : Word)

theorem exec_mv : ∃ t, exec (.addi rd rs 0#32) s = .next t ∧ Wrote s t rd (s.readReg rs) (s.pc + 4#32) := by
  simpa only [BitVec.add_zero] using exec_addi_spec s rd rs 0#32

theorem exec_li : ∃ t, exec (.addi rd 0 imm) s = .next t ∧ Wrote s t rd imm (s.pc + 4#32) := by
  simpa only [State.readReg_zero, BitVec.zero_add] using exec_addi_spec s rd 0 imm

theorem exec_seqz : ∃ t, exec (.sltiu rd rs 1#32) s = .next t ∧
    Wrote s t rd (if s.readReg rs = 0#32 then 1#32 else 0#32) (s.pc + 4#32) := by
  have hzero : (s.readReg rs).toNat < (1#32).toNat ↔ s.readReg rs = 0#32 := by
    rw [← BitVec.toNat_inj]
    exact Nat.lt_one_iff
  simpa only [hzero] using exec_sltiu_spec s rd rs 1#32

theorem exec_snez : ∃ t, exec (.sltu rd 0 rs 0#7) s = .next t ∧
    Wrote s t rd (if s.readReg rs = 0#32 then 0#32 else 1#32) (s.pc + 4#32) := by
  have hpos : (s.readReg 0).toNat < (s.readReg rs).toNat ↔ ¬ s.readReg rs = 0#32 := by
    rw [← BitVec.toNat_inj]
    exact Nat.pos_iff_ne_zero
  simpa only [hpos, ite_not] using exec_sltu_spec s rd 0 rs 0#7

/-- The wide `li`: LUI writes the upper part, ADDI adds the signed lower part to it. -/
theorem exec_liWide : ∃ t u, exec (.lui rd (liUpper imm)) s = .next t ∧
    exec (.addi rd rd (liLower imm)) t = .next u ∧ Wrote s u rd imm (s.pc + 8#32) := by
  obtain ⟨t, ht, hupper⟩ := exec_lui_spec s rd (liUpper imm)
  obtain ⟨u, hu, hlower⟩ := exec_addi_spec t rd rd (liLower imm)
  have hpc : t.pc + 4#32 = s.pc + 8#32 := by
    rw [hupper.pc, BitVec.add_assoc]
    rfl
  refine ⟨t, u, ht, hu, hpc ▸ wrote_congr (wrote_trans hupper hlower) fun hl => ?_⟩
  rw [readReg_dest_of_unlocked hupper hl, liUpper_add_liLower]

end

/-- Settles O26: row by row, what the expansion does. -/
theorem pseudoInstructionsDoWhatTheyAbbreviate : Obligations.PseudoInstructionsDoWhatTheyAbbreviate := by
  unfold Obligations.PseudoInstructionsDoWhatTheyAbbreviate
  refine ⟨fun s => ?_, fun s rd rs => ⟨?_, ?_, ?_, ?_, ?_⟩, fun s rd imm => ⟨?_, ?_⟩,
    fun s rs off => ⟨?_, ?_, ?_, ?_, ?_, ?_⟩⟩
  · exact ⟨_, rfl, exec_addi_zero s 0 0#32, fun hrun => lockedWriteOf_zero rfl hrun⟩
  · obtain ⟨t, ht, hw⟩ := exec_mv s rd rs
    exact ⟨_, t, rfl, ht, hw⟩
  · obtain ⟨t, ht, hw⟩ := exec_xori_spec s rd rs 0xFFFFFFFF#32
    refine ⟨_, t, _, rfl, ht, hw, fun k hk => ?_⟩
    rw [show 0xFFFFFFFF#32 = BitVec.allOnes 32 from rfl, BitVec.xor_allOnes, BitVec.getLsbD_not,
      decide_eq_true hk, Bool.true_and]
  · obtain ⟨t, ht, hw⟩ := exec_sub_spec s rd 0 rs
    exact ⟨_, t, _, rfl, ht, hw, BitVec.toNat_sub _ _⟩
  · obtain ⟨t, ht, hw⟩ := exec_seqz s rd rs
    exact ⟨_, t, rfl, ht, hw⟩
  · obtain ⟨t, ht, hw⟩ := exec_snez s rd rs
    exact ⟨_, t, rfl, ht, hw⟩
  · obtain ⟨t, ht, hw⟩ := exec_li s rd imm
    exact ⟨_, t, rfl, ht, hw⟩
  · obtain ⟨t, u, ht, hu, hw⟩ := exec_liWide s rd imm
    exact ⟨_, _, t, u, rfl, fitsU_liUpper imm, fitsI_liLower imm, ht, hu, hw⟩
  · obtain ⟨t, ht, hb⟩ := exec_beq_spec s rs 0 off
    exact ⟨_, t, rfl, ht, hb⟩
  · obtain ⟨t, ht, hb⟩ := exec_bne_spec s rs 0 off
    exact ⟨_, t, rfl, ht, hb⟩
  · exact ⟨_, _, rfl, exec_jal_zero s off, rfl, fun hrun => lockedWriteOf_zero rfl hrun⟩
  · exact ⟨_, _, rfl, exec_jalr_zero s rs 0#3, rfl, fun hrun => lockedWriteOf_zero rfl hrun⟩
  · exact ⟨_, _, rfl, exec_jalr_zero s 1 0#3, rfl, fun hrun => lockedWriteOf_zero rfl hrun⟩
  · obtain ⟨t, ht, hw⟩ := exec_jal_spec s 1 off
    exact ⟨_, t, rfl, ht, hw⟩

end Sys2Proof.Machine
end

section
/-! SUPPORT. Halts (60_exceptions.md) and the cycle (10_state.md R55): which check ends a cycle, what
it records, and what no cycle changes or looks at. -/

namespace Sys2Proof.Machine

open Sys2Proof.Safety

/-! ### ECALL -/

theorem encodedBy_ecall : EncodedBy .ecall 0x0000007F#32 0x00000073#32
    (fun w => .ecall (w.extractLsb' 7 25)) :=
  encodedBy_of_opcode (op := 0x73#7) (by decide) (fun _ => rfl) fun w ho => by
    simp [decode, formatOf, ho]

theorem exec_ecall (s : State) (rest : BitVec 25) :
    exec (.ecall rest) s = .next (s.haltWith .ecallHalt (encode (.ecall rest)) 0#32) := rfl

/-- Settles O27: the word recorded is the encoding of the ECALL, which is the word fetched. -/
theorem ecallHaltsWithItsWord : Obligations.EcallHaltsWithItsWord := by
  unfold Obligations.EcallHaltsWithItsWord
  refine ⟨encodedBy_ecall, fun s rest => ⟨_, exec_ecall s rest, haltWith_spec s _ _ _⟩, fun s w hf hw => ?_⟩
  have hd := (encodedBy_ecall w).2 hw
  obtain ⟨-, henc⟩ := isWordOf_of_decode hd
  have hx := exec_ecall s (w.extractLsb' 7 25)
  rw [henc] at hx
  exact step_haltedWith hf hd hx

/-! ### The checks before execution -/

theorem cycleTrace_of_halted {s : State} (f : Option Word) (h : s.halted = true) : cycleTrace f s = none := by
  simp [cycleTrace, h]

/-- Settles O28: the first check of the cycle, and of its trace. -/
theorem haltedEngineDoesNothing : Obligations.HaltedEngineDoesNothing :=
  fun s h => ⟨cycle_of_halted s.fetch h, cycleTrace_of_halted s.fetch h, fun f =>
    ⟨cycle_of_halted f h, cycleTrace_of_halted f h⟩⟩

/-- Settles O29: the second check, made whatever the fetch answers. -/
theorem stepLimitHaltsBeforeFetch : Obligations.StepLimitHaltsBeforeFetch :=
  fun s n hrun hmax hle =>
    ⟨_, cycle_of_stepLimit s.fetch hrun (State.stepLimitReached_eq_true.2 ⟨n, hmax, hle⟩),
      haltWith_spec s _ _ _⟩

/-- Settles O30: the third check. -/
theorem pcPastTheImageEndsTheStream : Obligations.PcPastTheImageEndsTheStream :=
  fun _ hrun hl hb => step_endOfStream hrun (State.stepLimitReached_eq_false.2 hl) hb

/-- Settles O31: the two policies of `State.decodeFault`. -/
theorem undecodableWordFollowsThePolicy : Obligations.UndecodableWordFollowsThePolicy := by
  unfold Obligations.UndecodableWordFollowsThePolicy
  intro s w e hf hd
  have hstep : step s = .next (s.decodeFault w) := (step_of_fetches hf).trans (runWord_error hd)
  refine ⟨fun hp => ?_, fun hp => ?_⟩
  · rw [State.decodeFault_of_halt hp] at hstep
    exact ⟨_, hstep, haltWith_spec s _ _ _⟩
  · rw [State.decodeFault_of_skip hp] at hstep
    exact ⟨_, hstep, SameRegisters.of_eq rfl rfl, SameMemory.of_eq rfl, ⟨rfl, rfl, rfl, rfl, rfl⟩, rfl,
      rfl, rfl⟩

/-! ### The halts of a cycle -/

/-- R240: an instruction that leaves a running engine halted is an ECALL or an access outside
DataMemory. -/
theorem Ending.of_halted {i : Instr} {s t : State} (h : Ending i s t) (hrun : s.halted = false)
    (ht : t.halted = true) :
    ((∃ rest, i = .ecall rest) ∧ HaltedWith s t .ecallHalt (encode i) 0#32) ∨
    ∃ n rs1 imm, Accesses i n rs1 imm ∧ s.cfg.dmemSize < (s.effAddr rs1 imm).toNat + n.bytes ∧
      HaltedWith s t .memoryBoundsFault (encode i) (s.effAddr rs1 imm) := by
  cases h with
  | wrote | branched | jumped | stored => simp [hrun] at ht
  | ecall rest hi => exact .inl ⟨⟨rest, hi⟩, haltWith_spec s _ _ _⟩
  | outOfBounds n rs1 imm ha hb => exact .inr ⟨n, rs1, imm, ha, hb, haltWith_spec s _ _ _⟩

/-- Settles O32: of the endings of a cycle those that halt a running engine, each with the checks that
lead to it. -/
theorem haltsWriteOnlyTheRunStatus : Obligations.HaltsWriteOnlyTheRunStatus := by
  unfold Obligations.HaltsWriteOnlyTheRunStatus
  intro s t hrun hstep ht
  refine ⟨cycle_of_halted _ ht, ?_⟩
  cases ending_of_step hstep with
  | idle hh => cases hrun.symm.trans hh
  | limit _ hl => exact .inl ⟨State.stepLimitReached_eq_true.1 hl, haltWith_spec s _ _ _⟩
  | stream _ hl hf =>
    exact .inr (.inl ⟨State.stepLimitReached_eq_false.1 hl, State.fetch_eq_none_iff.1 hf, haltWith_spec s _ _ _⟩)
  | undecodable w e _ hl hf hd =>
    refine .inr (.inr ⟨w, ⟨hrun, State.stepLimitReached_eq_false.1 hl, hf⟩, .inr (.inl ?_)⟩)
    rcases s.decodeFault_cases w with ⟨hp, he⟩ | ⟨-, he⟩ <;> rw [he] at ht ⊢
    · exact ⟨⟨e, hd⟩, hp, haltWith_spec s _ _ _⟩
    · cases hrun.symm.trans ht
  | ran w i u _ hl hf hd he =>
    refine .inr (.inr ⟨w, ⟨hrun, State.stepLimitReached_eq_false.1 hl, hf⟩, ?_⟩)
    cases hu : u.halted
    · simp [hu] at ht
    obtain ⟨-, henc⟩ := isWordOf_of_decode hd
    simp only [if_true]
    rcases he.of_halted hrun hu with ⟨⟨rest, rfl⟩, hh⟩ | ⟨n, rs1, imm, ha, hb, hh⟩
    · exact .inl ⟨⟨rest, hd⟩, henc ▸ hh⟩
    · exact .inr (.inr ⟨i, n, rs1, imm, hd, ha, hb, henc ▸ hh⟩)

/-- Settles O33, by evaluating `HaltCause.code`. -/
theorem haltCausesHaveTheirCodes : Obligations.HaltCausesHaveTheirCodes :=
  ⟨rfl, rfl, rfl, rfl, rfl, rfl⟩

/-! ### The bytes at the pc -/

/-- Four bytes of the image from the pc on are the word fetched. -/
theorem fetch_of_drop {s : State} {b0 b1 b2 b3 : Byte} {l : List Byte}
    (h : s.cfg.image.drop s.pc.toNat = b0 :: b1 :: b2 :: b3 :: l) :
    s.fetch = some (wordOfBytes b0 b1 b2 b3) := by
  have hbyte : ∀ k, s.cfg.image.getD (s.pc.toNat + k) 0#8 = (b0 :: b1 :: b2 :: b3 :: l).getD k 0#8 := fun k => by
    rw [← h, List.getD_eq_getElem?_getD, List.getD_eq_getElem?_getD, List.getElem?_drop]
  have hlen : ¬ s.cfg.imageSize < s.pc.toNat + 4 := by
    have := congrArg List.length h
    simp only [List.length_drop, List.length_cons] at this
    simp only [Config.imageSize]
    omega
  have h0 := hbyte 0
  rw [Nat.add_zero] at h0
  simp only [State.fetch, if_neg hlen, h0, hbyte 1, hbyte 2, hbyte 3]
  rfl

theorem fetch_of_decodeBytes {s : State} {i : Instr} {rest : List Byte}
    (h : decodeBytes (s.cfg.image.drop s.pc.toNat) = .ok (i, rest)) :
    ∃ w, s.fetch = some w ∧ decode w = .ok i := by
  unfold decodeBytes at h
  split at h
  next b0 b1 b2 b3 l hdrop =>
    refine ⟨_, fetch_of_drop hdrop, ?_⟩
    split at h
    next j hj =>
      cases h
      exact hj
    next => cases h
  next => cases h

/-- Settles O34: the bytes at the pc are the word fetched, and the cycle runs what it decodes to. -/
theorem stepRunsTheDecodedInstruction : Obligations.StepRunsTheDecodedInstruction := by
  unfold Obligations.StepRunsTheDecodedInstruction
  intro s t i rest hrun hl hbytes hx
  obtain ⟨w, hf, hd⟩ := fetch_of_decodeBytes hbytes
  have hfetches : Fetches s w := ⟨hrun, hl, hf⟩
  exact ⟨step_of_exec_halted hfetches hd hx, step_of_exec_running hfetches hd hx⟩

/-- Settles O35: every ending is a next state. -/
theorem everyCycleAnswersANextState : Obligations.EveryCycleAnswersANextState := by
  unfold Obligations.EveryCycleAnswersANextState
  refine ⟨fun s => ?_, fun i s => ?_⟩
  · obtain ⟨t, ht, -⟩ := cycle_ending s.fetch s
    exact ⟨t, ht⟩
  · obtain ⟨t, ht, -⟩ := exec_ending i s
    exact ⟨t, ht⟩

/-! ### The step counter -/

/-- The step counter replaced. -/
def State.setSteps (s : State) (n : Nat) : State := { s with steps := n }

@[simp] theorem State.setSteps_isLocked (s : State) (n : Nat) (r : Reg) :
    (s.setSteps n).isLocked r = s.isLocked r := rfl

theorem State.memRead_setSteps (s : State) (n : Nat) (A : Word) (k : Width) :
    (s.setSteps n).memRead A k = s.memRead A k := rfl

theorem State.memWrite_setSteps (s : State) (n : Nat) (A : Word) (k : Width) (v : Word) :
    (s.setSteps n).memWrite A k v = (s.memWrite A k v).map (State.setSteps · n) := by
  rcases Nat.lt_or_ge s.cfg.dmemSize (A.toNat + k.bytes) with h | h
  · rw [State.memWrite_eq_none_iff.2 h]
    exact State.memWrite_eq_none_iff.2 h
  · rw [State.memWrite_of_inBounds v h]
    exact State.memWrite_of_inBounds v h

theorem unnoticed_setSteps (n : Nat) : Unnoticed (State.setSteps · n) where
  readReg _ _ := rfl
  pc _ := rfl
  writeReg s r v := by
    unfold State.writeReg
    rw [State.setSteps_isLocked]
    split <;> rfl
  setPc _ _ := rfl
  haltWith _ _ _ _ := rfl

theorem exec_setSteps {i : Instr} {s t : State} (n : Nat) (h : exec i s = .next t) :
    exec i (s.setSteps n) = .next (t.setSteps n) :=
  (unnoticed_setSteps n).exec_next (fun s => s.memRead_setSteps n) (fun s => s.memWrite_setSteps n) h

/-- A cycle whose step-limit check answers the same takes the same course, but for the counter. -/
theorem cycle_setSteps {f : Option Word} {s t : State} {n : Nat}
    (hl : (s.setSteps n).stepLimitReached = s.stepLimitReached) (h : CycleEnding f s t) :
    ∃ m, cycle f (s.setSteps n) = .next (t.setSteps m) := by
  cases h with
  | idle hh => exact ⟨n, cycle_of_halted f hh⟩
  | limit hh hlim => exact ⟨n, cycle_of_stepLimit f hh (hl.trans hlim)⟩
  | stream hh hlim hf => exact ⟨n, hf ▸ cycle_none hh (hl.trans hlim)⟩
  | undecodable w e hh hlim hf hd =>
    subst hf
    have hrun : cycle (some w) (s.setSteps n) = .next ((s.setSteps n).decodeFault w) := by
      rw [← runWord_error hd, cycle_some (s := s.setSteps n) hh (hl.trans hlim)]
    rcases s.decodeFault_cases w with ⟨hp, he⟩ | ⟨hp, he⟩ <;> rw [he, hrun]
    · exact ⟨n, congrArg _ (State.decodeFault_of_halt (s := s.setSteps n) hp w)⟩
    · exact ⟨n + 1, congrArg _ (State.decodeFault_of_skip (s := s.setSteps n) hp w)⟩
  | ran w i u hh hlim hf hd _ hx =>
    subst hf
    have hrun : cycle (some w) (s.setSteps n) =
        .next (if u.halted then u.setSteps n else (u.setSteps n).countStep) := by
      rw [cycle_some (s := s.setSteps n) hh (hl.trans hlim), runWord_ok hd (exec_setSteps n hx)]
      rfl
    rw [hrun]
    split
    · exact ⟨n, rfl⟩
    · exact ⟨n + 1, rfl⟩

theorem steps_of_step {s t : State} (hrun : s.halted = false) (h : step s = .next t) :
    t.steps = if t.halted then s.steps else s.steps + 1 := by
  cases ending_of_step h with
  | idle hh => cases hrun.symm.trans hh
  | limit | stream => rfl
  | undecodable w =>
    rcases s.decodeFault_cases w with ⟨-, he⟩ | ⟨-, he⟩ <;> rw [he] <;> simp [hrun]
  | ran w i u _ _ _ _ he =>
    have hu := he.steps_eq
    cases hh : u.halted <;> simp [hh, hu]

/-- Settles O36: `exec` does not look at the counter, and the cycle looks at it in one check. -/
theorem stepsCountsCompletedCycles : Obligations.StepsCountsCompletedCycles := by
  unfold Obligations.StepsCountsCompletedCycles
  refine ⟨fun c t h => ?_, fun s t hrun h => steps_of_step hrun h, fun s t n hl h => ?_⟩
  · obtain ⟨-, rfl⟩ := resetWith_eq_next.1 h
    rfl
  · obtain ⟨m, hm⟩ := cycle_setSteps (n := n) hl (ending_of_step h)
    exact ⟨t.setSteps m, hm, rfl⟩

/-! ### Lock flags and configuration -/

@[simp] theorem State.decodeFault_cfg (s : State) (w : Word) : (s.decodeFault w).cfg = s.cfg := by
  unfold State.decodeFault; split <;> rfl

theorem CycleEnding.cfg_eq {f : Option Word} {s t : State} (h : CycleEnding f s t) : t.cfg = s.cfg := by
  cases h with
  | idle | limit | stream => rfl
  | undecodable w => exact s.decodeFault_cfg w
  | ran w i u _ _ _ _ he => split <;> exact he.cfg_eq

/-- Settles O37: no ending writes either. -/
theorem locksParametersAndImageNeverChange : Obligations.LocksParametersAndImageNeverChange :=
  ⟨fun _ _ h => ⟨rfLocked_of_step h, (ending_of_step h).cfg_eq⟩,
    fun _ _ _ h => ⟨(ending_of_exec h).rfLocked_eq, (ending_of_exec h).cfg_eq⟩⟩

end Sys2Proof.Machine
end

section
/-! SUPPORT. Registers an instruction does not name (10_state.md R53), the trace record (00_scope.md
R19) and the ports (R18). -/

namespace Sys2Proof.Machine

open Sys2Proof.Safety

/-! ### Registers that are not the destination -/

theorem Ending.readReg_of_ne {i : Instr} {s t : State} (h : Ending i s t) {r : Reg} (hr : destOf i ≠ some r) :
    t.readReg r = s.readReg r := by
  have hne : ∀ rd, destOf i = some rd → r ≠ rd := fun rd hd he => hr (he ▸ hd)
  cases h with
  | wrote rd v hd => exact s.readReg_writeReg_ne (hne rd hd) v
  | jumped rd p hd => exact s.readReg_writeReg_ne (hne rd hd) _
  | branched | stored | outOfBounds | ecall => rfl

/-! ### A register set before an instruction that does not name it -/

theorem State.writeReg_setReg (s : State) {rd r : Reg} (hne : rd ≠ r) (v x : Word) :
    (s.setReg r x).writeReg rd v = (s.writeReg rd v).setReg r x := by
  have hval : rd.val ≠ r.val := fun h => hne (Fin.ext h)
  unfold State.writeReg
  rw [State.setReg_isLocked]
  split
  · rfl
  · simp only [State.setReg, Vector.set_comm _ _ hval]

section

variable {s t : State} {r : Reg} {x : Word}

theorem writeResult_setReg {rd : Reg} {v v' : Word} (hne : rd ≠ r) (h : writeResult rd v s = .next t)
    (hv : v' = v) : writeResult rd v' (s.setReg r x) = .next (t.setReg r x) := by
  cases h
  rw [hv, writeResult, s.writeReg_setReg hne]
  rfl

theorem branchOn_setReg {c c' : Bool} {imm : Word} (h : branchOn c imm s = .next t) (hc : c' = c) :
    branchOn c' imm (s.setReg r x) = .next (t.setReg r x) := by
  cases h
  subst hc
  cases c' <;> rfl

theorem jumpAndLink_setReg {rd : Reg} {p p' : Word} (hne : rd ≠ r) (h : jumpAndLink rd p s = .next t)
    (hp : p' = p) : jumpAndLink rd p' (s.setReg r x) = .next (t.setReg r x) := by
  cases h
  rw [hp, jumpAndLink, s.writeReg_setReg hne]
  rfl

theorem loadValue_setReg {w : Word} {n : Width} {e : Extend} {rd rs1 : Reg} {imm : Word} (hne : rd ≠ r)
    (ha : (s.setReg r x).effAddr rs1 imm = s.effAddr rs1 imm) (h : loadValue w n e rd rs1 imm s = .next t) :
    loadValue w n e rd rs1 imm (s.setReg r x) = .next (t.setReg r x) := by
  unfold loadValue at h ⊢
  rw [ha, show (s.setReg r x).memRead (s.effAddr rs1 imm) n = s.memRead (s.effAddr rs1 imm) n from rfl]
  cases hm : s.memRead (s.effAddr rs1 imm) n with
  | some v =>
    rw [hm] at h
    exact writeResult_setReg hne h rfl
  | none =>
    rw [hm] at h
    cases h
    rfl

theorem storeValue_setReg {w : Word} {n : Width} {rs1 rs2 : Reg} {imm : Word}
    (ha : (s.setReg r x).effAddr rs1 imm = s.effAddr rs1 imm)
    (hv : (s.setReg r x).readReg rs2 = s.readReg rs2) (h : storeValue w n rs1 rs2 imm s = .next t) :
    storeValue w n rs1 rs2 imm (s.setReg r x) = .next (t.setReg r x) := by
  rcases storeValue_cases w n rs1 rs2 imm s with ⟨hb, he⟩ | ⟨hb, he⟩ <;> cases h.symm.trans he
  · rw [storeValue, ha, hv, State.memWrite_of_inBounds (s := s.setReg r x) _ hb]
    rfl
  · rw [storeValue, ha, hv, State.memWrite_eq_none_iff (s := s.setReg r x).2 hb]
    rfl

theorem State.readReg_setReg_ne {j : Reg} (h : j ≠ r) : (s.setReg r x).readReg j = s.readReg j := by
  rw [State.readReg_setReg, if_neg h]
  split
  · next h0 => rw [h0, State.readReg_zero]
  · rfl

/-- An instruction reads only its sources. -/
theorem exec_setReg {i : Instr} (hd : destOf i ≠ some r) (hs : r ∉ sourcesOf i) (h : exec i s = .next t) :
    exec i (s.setReg r x) = .next (t.setReg r x) := by
  have hne : ∀ rd, destOf i = some rd → rd ≠ r := fun rd hrd he => hd (he ▸ hrd)
  have hread : ∀ j ∈ sourcesOf i, (s.setReg r x).readReg j = s.readReg j :=
    fun j hj => State.readReg_setReg_ne fun he => hs (he ▸ hj)
  cases i with
  | add rd rs1 rs2 | sub rd rs1 rs2 | srl rd rs1 rs2 | sra rd rs1 rs2
  | sll rd rs1 rs2 | slt rd rs1 rs2 | sltu rd rs1 rs2 | xor rd rs1 rs2 | or rd rs1 rs2 | and rd rs1 rs2 =>
    refine writeResult_setReg (hne rd rfl) h ?_
    rw [hread rs1 (by simp [sourcesOf]), hread rs2 (by simp [sourcesOf])]
  | addi rd rs1 | slli rd rs1 | slti rd rs1 | sltiu rd rs1 | xori rd rs1 | srli rd rs1 | srai rd rs1
  | ori rd rs1 | andi rd rs1 =>
    refine writeResult_setReg (hne rd rfl) h ?_
    rw [hread rs1 (by simp [sourcesOf])]
  | auipc rd | lui rd => exact writeResult_setReg (hne rd rfl) h rfl
  | beq rs1 rs2 | bne rs1 rs2 | blt rs1 rs2 | bge rs1 rs2 | bltu rs1 rs2 | bgeu rs1 rs2 =>
    refine branchOn_setReg h ?_
    rw [hread rs1 (by simp [sourcesOf]), hread rs2 (by simp [sourcesOf])]
  | jal rd => exact jumpAndLink_setReg (hne rd rfl) h rfl
  | jalr rd rs1 =>
    refine jumpAndLink_setReg (hne rd rfl) h ?_
    rw [State.jalrTarget, hread rs1 (by simp [sourcesOf])]
    rfl
  | lb rd rs1 | lh rd rs1 | lw rd rs1 | lbu rd rs1 | lhu rd rs1 =>
    refine loadValue_setReg (hne rd rfl) ?_ h
    rw [State.effAddr, hread rs1 (by simp [sourcesOf])]
    rfl
  | sb rs1 rs2 | sh rs1 rs2 | sw rs1 rs2 =>
    refine storeValue_setReg ?_ (hread rs2 (by simp [sourcesOf])) h
    rw [State.effAddr, hread rs1 (by simp [sourcesOf])]
    rfl
  | ecall rest =>
    cases h
    rfl

end

/-- Settles O39: the endings write the destination alone, and every operand is read from a source. -/
theorem registersNotNamedAreUntouched : Obligations.RegistersNotNamedAreUntouched :=
  fun _ _ _ _ _ h hd => ⟨(ending_of_exec h).readReg_of_ne hd, fun hs => exec_setReg hd hs h⟩

/-! ### The record of a cycle -/

section

variable (w : Word) (s t : State)

@[simp] theorem recordOf_pc : (recordOf w s t).pc = s.pc := by
  unfold recordOf; split <;> rfl
@[simp] theorem recordOf_rawWord : (recordOf w s t).rawWord = w := by
  unfold recordOf; split <;> rfl
@[simp] theorem recordOf_opcode : (recordOf w s t).opcode = opcode w := by
  unfold recordOf; split <;> rfl
@[simp] theorem recordOf_mnemonic : (recordOf w s t).mnemonic = mnemonicOf w := by
  unfold recordOf mnemonicOf; cases decode w <;> rfl
@[simp] theorem recordOf_registersBefore : (recordOf w s t).registersBefore = s.registerValues := by
  unfold recordOf; split <;> rfl
@[simp] theorem recordOf_registersAfter : (recordOf w s t).registersAfter = t.registerValues := by
  unfold recordOf; split <;> rfl

@[simp] theorem State.registerValues_getElem (r : Reg) : s.registerValues[r.val] = s.readReg r :=
  Vector.getElem_ofFn r.isLt

end

section

variable {w : Word} {s t : State} {i : Instr}

theorem recordOf_memoryWrites_ok (hd : decode w = .ok i) :
    (recordOf w s t).memoryWrites = memoryWritesOf i s := by
  simp only [recordOf, hd]

theorem recordOf_memoryWrites_error {e : DecodeReject} (hd : decode w = .error e) :
    (recordOf w s t).memoryWrites = [] := by
  simp only [recordOf, hd]

theorem recordOf_lockedWriteWarning (hd : decode w = .ok i) :
    (recordOf w s t).lockedWriteWarning = lockedWriteOf i s t := by
  simp only [recordOf, hd]

theorem stepTrace_of_fetches (hf : Fetches s w) (h : step s = .next t) : stepTrace s = some (recordOf w s t) := by
  have hl := State.stepLimitReached_eq_false.2 hf.belowLimit
  rw [step, hf.fetched] at h
  simp [stepTrace, cycleTrace, hf.running, hl, hf.fetched, h]

/-- The two ways a cycle with a fetched word ends. -/
theorem ending_of_fetches (hf : Fetches s w) (h : step s = .next t) :
    (∃ e, decode w = .error e ∧ t = s.decodeFault w) ∨
    ∃ i u, decode w = .ok i ∧ Ending i s u ∧ t = if u.halted then u else u.countStep := by
  rw [step_of_fetches hf] at h
  cases hd : decode w with
  | error e =>
    cases (runWord_error hd).symm.trans h
    exact .inl ⟨e, rfl, rfl⟩
  | ok i =>
    obtain ⟨u, hu, he⟩ := exec_ending i s
    cases (runWord_ok hd hu).symm.trans h
    exact .inr ⟨i, u, rfl, he, rfl⟩

end

/-! ### The memory writes of the record -/

section

variable {i : Instr} {s : State}

theorem memoryWritesOf_of_stores {n : Width} {rs1 rs2 : Reg} {imm : Word} (h : Stores i n rs1 rs2 imm) :
    memoryWritesOf i s = if (s.effAddr rs1 imm).toNat + n.bytes ≤ s.cfg.dmemSize then
      storeCells (s.effAddr rs1 imm).toNat n (s.readReg rs2) else [] := by
  simp only [memoryWritesOf, storeOf_eq_some.2 h, State.inBounds_iff]

theorem memoryWritesOf_of_storeOf_none (h : storeOf i = none) : memoryWritesOf i s = [] := by
  simp only [memoryWritesOf, h]

theorem storeOf_eq_none (h : ∀ n rs1 rs2 imm, ¬ Stores i n rs1 rs2 imm) : storeOf i = none := by
  cases hs : storeOf i with
  | none => rfl
  | some q =>
    obtain ⟨n, rs1, rs2, imm⟩ := q
    exact absurd (storeOf_eq_some.1 hs) (h n rs1 rs2 imm)

theorem memoryWritesOf_outOfBounds {n : Width} {rs1 : Reg} {imm : Word} (h : Accesses i n rs1 imm)
    (hb : s.cfg.dmemSize < (s.effAddr rs1 imm).toNat + n.bytes) : memoryWritesOf i s = [] := by
  obtain ⟨rs2, hs⟩ | ⟨rd, hl⟩ := h
  · rw [memoryWritesOf_of_stores hs, if_neg (by omega)]
  · exact memoryWritesOf_of_storeOf_none (storeOf_of_loads hl)

/-- No address is written twice. -/
theorem memoryWritesOf_distinct : (memoryWritesOf i s).Pairwise fun c d => c.1 ≠ d.1 := by
  unfold memoryWritesOf
  split
  · split
    · exact storeCells_distinct _ _ _
    · exact .nil
  · exact .nil

theorem Ending.dmem_eq {t : State} (h : Ending i s t) :
    t.dmem = Memory.writeAll s.dmem (memoryWritesOf i s) := by
  cases h with
  | wrote rd v hd hs =>
    rw [memoryWritesOf_of_storeOf_none hs]
    exact State.writeReg_dmem ..
  | jumped rd p hd hs =>
    rw [memoryWritesOf_of_storeOf_none hs]
    exact State.writeReg_dmem ..
  | branched p hp hd hs =>
    rw [memoryWritesOf_of_storeOf_none hs]
    rfl
  | stored n rs1 rs2 imm hs hd hb =>
    rw [memoryWritesOf_of_stores (storeOf_eq_some.1 hs), if_pos hb]
    rfl
  | outOfBounds n rs1 imm ha hb =>
    rw [memoryWritesOf_outOfBounds ha hb]
    rfl
  | ecall rest hi =>
    subst hi
    rfl

end

section

variable {w : Word} {s t : State}

/-- The writes of the record lead from the memory before to the memory after. -/
theorem dmem_of_step (hf : Fetches s w) (h : step s = .next t) :
    t.dmem = Memory.writeAll s.dmem (recordOf w s t).memoryWrites := by
  rcases ending_of_fetches hf h with ⟨e, hd, rfl⟩ | ⟨i, u, hd, he, rfl⟩
  · rw [recordOf_memoryWrites_error hd]
    rcases s.decodeFault_cases w with ⟨-, he⟩ | ⟨-, he⟩ <;> rw [he] <;> rfl
  · rw [recordOf_memoryWrites_ok hd, ← he.dmem_eq]
    split <;> rfl

theorem recordOf_memoryWrites_distinct :
    (recordOf w s t).memoryWrites.Pairwise fun c d => c.1 ≠ d.1 := by
  cases hd : decode w with
  | error e =>
    rw [recordOf_memoryWrites_error hd]
    exact .nil
  | ok i =>
    rw [recordOf_memoryWrites_ok hd]
    exact memoryWritesOf_distinct

end

/-- Settles O43: the fields of `recordOf`; its writes are those of the instruction's ending. -/
theorem traceRecordDescribesTheCycle : Obligations.TraceRecordDescribesTheCycle := by
  unfold Obligations.TraceRecordDescribesTheCycle
  intro s t w hf h
  have hdmem := dmem_of_step hf h
  refine ⟨_, stepTrace_of_fetches hf h, by simp, by simp, by simp [opcode], by simp, by simp,
    fun i n rs1 rs2 imm hd hs => ?_, fun hns => ?_, fun a => ?_, fun c hc => ?_⟩
  · rw [recordOf_memoryWrites_ok hd, memoryWritesOf_of_stores hs]
    rfl
  · cases hd : decode w with
    | error e => exact recordOf_memoryWrites_error hd
    | ok i =>
      rw [recordOf_memoryWrites_ok hd]
      exact memoryWritesOf_of_storeOf_none (storeOf_eq_none fun n rs1 rs2 imm => hns i n rs1 rs2 imm hd)
  · rw [State.readByte, hdmem]
  · rw [State.readByte, hdmem]
    exact Memory.read_writeAll_of_mem recordOf_memoryWrites_distinct hc

/-! ### The locked-write warning -/

theorem lockedWriteOf_iff {i : Instr} {s t : State} :
    lockedWriteOf i s t = true ↔ t.halted = false ∧ ∃ rd, destOf i = some rd ∧ s.isLocked rd = true := by
  unfold lockedWriteOf
  cases destOf i <;> simp [and_comm]

/-- R34: an instruction with a locked destination changes no register. -/
theorem Ending.rfValue_of_locked_dest {i : Instr} {s t : State} (h : Ending i s t) {rd : Reg}
    (hd : destOf i = some rd) (hl : s.isLocked rd = true) : t.rfValue = s.rfValue := by
  cases h with
  | wrote rd' v hd' =>
    cases hd.symm.trans hd'
    rw [State.writeReg_of_locked hl]
    rfl
  | jumped rd' p hd' =>
    cases hd.symm.trans hd'
    rw [State.writeReg_of_locked hl]
    rfl
  | branched | stored | outOfBounds | ecall => rfl

/-- Settles O44: the warning is `lockedWriteOf`, and a locked destination is not written. -/
theorem warningExactlyOnLockedDestination : Obligations.WarningExactlyOnLockedDestination := by
  unfold Obligations.WarningExactlyOnLockedDestination
  intro s t w i hf hd h
  refine ⟨_, stepTrace_of_fetches hf h, ?_⟩
  rw [recordOf_lockedWriteWarning hd, lockedWriteOf_iff]
  refine ⟨Iff.rfl, fun ⟨ht, rd, hrd, hl⟩ => ⟨?_, ht⟩⟩
  rcases ending_of_fetches hf h with ⟨e, hd', -⟩ | ⟨j, u, hd', he, rfl⟩
  · cases hd.symm.trans hd'
  · cases hd.symm.trans hd'
    have hvalue := he.rfValue_of_locked_dest hrd hl
    split
    · exact SameRegisters.of_eq hvalue he.rfLocked_eq
    · exact SameRegisters.of_eq hvalue he.rfLocked_eq

/-! ### Ports -/

theorem clockEdge_imageInputs (s : State) : clockEdge (s.imageInputs false) s = step s := by
  unfold clockEdge State.imageInputs step
  cases s.fetch <;> rfl

theorem imageInputs_spec (s : State) (rst : Bool) : (s.imageInputs rst).rst = rst ∧
    (s.imageInputs rst).imemValid = decide (s.pc.toNat + 4 ≤ s.cfg.imageSize) ∧
    ∀ w, s.fetch = some w → (s.imageInputs rst).imemRdata = w := by
  unfold State.imageInputs
  cases hf : s.fetch with
  | none =>
    have hb := State.fetch_eq_none_iff.1 hf
    exact ⟨rfl, (decide_eq_false (by omega)).symm, fun w hw => by cases hw⟩
  | some v =>
    obtain ⟨hb, -⟩ := State.fetch_eq_some hf
    exact ⟨rfl, (decide_eq_true hb).symm, fun w hw => Option.some.inj hw⟩

/-- Settles O45: the edge by its `rst`, and the outputs field by field. -/
theorem clockEdgeResetsOrRunsACycle : Obligations.ClockEdgeResetsOrRunsACycle := by
  unfold Obligations.ClockEdgeResetsOrRunsACycle
  refine ⟨fun s inp h => ?_, fun s inp h => ?_, clockEdge_imageInputs, imageInputs_spec, fun s inp => ?_⟩
  · rw [clockEdge, if_pos h]
  · rw [clockEdge, if_neg (by simp [h]), Inputs.fetched]
  · refine ⟨rfl, rfl, rfl, rfl, rfl, fun r => ⟨s.registerValues_getElem r, Vector.getElem_ofFn r.isLt⟩,
      congrArg HaltCause.code, congrArg HaltCause.code, congrArg HaltCause.code, congrArg HaltCause.code,
      congrArg HaltCause.code, congrArg HaltCause.code, fun h => ?_, fun h => ?_⟩
    · rw [State.outputs, if_pos h]
    · rw [State.outputs, if_neg (by simp [h]), Inputs.fetched]

end Sys2Proof.Machine
end

section
/-! SUPPORT. The state a reset leaves (10_state.md R50, 70_reset_and_hazards.md): its registers, its
memory, its first fetch, and the invariant. -/

namespace Sys2Proof.Machine

open Sys2Proof.Safety

/-! ### Registers and memory -/

section

variable (c : Config)

theorem initialState_readReg (r : Reg) : (initialState c).readReg r = 0#32 := by
  unfold State.readReg
  split
  · rfl
  · exact initialState_rfValue c r

theorem initialState_isLocked (r : Reg) :
    (initialState c).isLocked r = (decide (r = 0) || c.lockInit.getLsbD r.val) := by
  rw [State.isLocked, initialState_rfLocked]
  by_cases hr : r = 0
  · simp [hr]
  · have hv : r.val ≠ 0 := fun h => hr (Fin.ext h)
    simp [hr, hv]

end

/-- A list of cells reads as its first pair for the address. -/
theorem Memory.read_eq_find (m : Memory) (a : Nat) :
    Memory.read m a = match m.find? (fun p => p.1 == a) with | some p => p.2 | none => unlistedByte := by
  induction m with
  | nil => rfl
  | cons p m ih =>
    by_cases h : p.1 = a
    · simp [Memory.read, h]
    · simp [Memory.read, h, ih]

theorem reset_eq_initialState : State.reset = initialState Config.defaults := by
  decide

theorem resetWith_defaults : resetWith Config.defaults = .next State.reset := by
  rw [resetWith_eq_next]
  exact ⟨by decide, reset_eq_initialState⟩

/-! ### The obligations -/

/-- Settles O46: the reset state of the default configuration. -/
theorem resetLeavesTheSpecifiedState : Obligations.ResetLeavesTheSpecifiedState := by
  unfold Obligations.ResetLeavesTheSpecifiedState
  refine ⟨fun r => ?_, by decide, rfl, fun _ => rfl, rfl, rfl, rfl, rfl, rfl, rfl, resetWith_defaults⟩
  rw [reset_eq_initialState, initialState_readReg]

/-- Settles O47: a reset is refused exactly when `configProblem` names a reason. -/
theorem resetRefusesExactlyBadConfigurations : Obligations.ResetRefusesExactlyBadConfigurations := by
  unfold Obligations.ResetRefusesExactlyBadConfigurations
  intro c
  constructor
  · rw [← configProblem_eq_none]
    exact ⟨fun ⟨_, ht⟩ => (resetWith_eq_next.1 ht).1, fun hc => ⟨_, resetWith_eq_next.2 ⟨hc, rfl⟩⟩⟩
  · unfold resetWith
    cases configProblem c with
    | none => exact .inl ⟨_, rfl⟩
    | some r => exact .inr ⟨r, rfl⟩

/-- Settles O48: the fields of `initialState`, and its memory as `read_initialDmem` reads it. -/
theorem resetInitialisesEveryPieceOfState : Obligations.ResetInitialisesEveryPieceOfState := by
  unfold Obligations.ResetInitialisesEveryPieceOfState
  intro c t h
  obtain ⟨-, rfl⟩ := resetWith_eq_next.1 h
  refine ⟨initialState_readReg c, initialState_isLocked c, rfl, rfl, rfl, rfl, rfl, rfl, rfl, rfl, fun a ha => ?_⟩
  exact (read_initialDmem c ha).trans (congrArg (ite _ _) (Memory.read_eq_find c.dmemInit a))

/-- Settles O49: pc is 0 after reset, so the first fetch is from image offset 0. -/
theorem executionStartsAtImageOffsetZero : Obligations.ExecutionStartsAtImageOffsetZero := by
  unfold Obligations.ExecutionStartsAtImageOffsetZero
  intro c t h hmax
  obtain ⟨-, rfl⟩ := resetWith_eq_next.1 h
  have hl : ∀ n, c.maxSteps = some n → 0 < n := fun n hn =>
    Nat.pos_of_ne_zero fun h0 => hmax (h0 ▸ hn)
  refine ⟨fun himg => ?_, fun himg => ?_⟩
  · obtain ⟨w, hw, hbytes⟩ := fetchIsLittleEndian (initialState c)
      (show 0 + 4 ≤ c.imageSize by omega)
    refine ⟨w, ⟨rfl, hl, hw⟩, fun k hk => ?_⟩
    have hbyte := hbytes k hk
    rwa [show (initialState c).pc.toNat + k = k from Nat.zero_add k] at hbyte
  · obtain ⟨u, hu, hh⟩ := step_endOfStream (s := initialState c) rfl (State.stepLimitReached_eq_false.2 hl)
      (show c.imageSize < 0 + 4 by omega)
    exact ⟨u, hu, hh, fun r => (hh.registers.values r).trans (initialState_readReg c r)⟩

theorem inv_initialState {c : Config} (hc : configProblem c = none) : Inv (initialState c) where
  canonical := wf_initialDmem c
  inMemory := bounded_initialDmem (configProblem_eq_none.1 hc).2.2.2
  zero := initialState_rfValue c 0
  locks := initialState_rfLocked c
  lockedZero r _ := initialState_rfValue c r
  pcEven := rfl
  running _ := ⟨rfl, rfl, rfl, rfl⟩
  halted hh := by cases hh
  limit n _ := Nat.zero_le n
  config := hc

/-- Settles O50: `State.reset` is the reset state of the defaults. -/
theorem resetEstablishesTheInvariant : Obligations.ResetEstablishesTheInvariant := by
  unfold Obligations.ResetEstablishesTheInvariant
  have hinv : ∀ c t, resetWith c = .next t → Inv t := fun c t h => by
    obtain ⟨hc, rfl⟩ := resetWith_eq_next.1 h
    exact inv_initialState hc
  exact ⟨hinv _ _ resetWith_defaults, hinv⟩

end Sys2Proof.Machine
end

section
/-! SUPPORT. The opcode table as a whole (30_encoding.md R118) and the list of undecodable words
(R115). -/

namespace Sys2Proof

open Sys2Proof.Safety Sys2Proof.Machine

/-! ### Every row of the table -/

/-- The word of a row is encoded by it. -/
def RowEncodes (row : OpcodeRow) : Prop := ∃ build, EncodedBy row.mnemonic row.mask row.pattern build

theorem rowEncodes_R : ∀ row ∈ opcodeRowsR, RowEncodes row := by
  simp only [opcodeRowsR, List.forall_mem_cons, List.not_mem_nil, false_imp_iff, implies_true, and_true]
  exact ⟨⟨_, encodedBy_add⟩, ⟨_, encodedBy_sub⟩, ⟨_, encodedBy_sll⟩, ⟨_, encodedBy_slt⟩, ⟨_, encodedBy_sltu⟩,
    ⟨_, encodedBy_xor⟩, ⟨_, encodedBy_srl⟩, ⟨_, encodedBy_sra⟩, ⟨_, encodedBy_or⟩, ⟨_, encodedBy_and⟩⟩

theorem rowEncodes_I : ∀ row ∈ opcodeRowsI, RowEncodes row := by
  simp only [opcodeRowsI, List.forall_mem_cons, List.not_mem_nil, false_imp_iff, implies_true, and_true]
  exact ⟨⟨_, encodedBy_addi⟩, ⟨_, encodedBy_slli⟩, ⟨_, encodedBy_slti⟩, ⟨_, encodedBy_sltiu⟩,
    ⟨_, encodedBy_xori⟩, ⟨_, encodedBy_srli⟩, ⟨_, encodedBy_srai⟩, ⟨_, encodedBy_ori⟩, ⟨_, encodedBy_andi⟩⟩

theorem rowEncodes_SLU : ∀ row ∈ opcodeRowsSLU, RowEncodes row := by
  simp only [opcodeRowsSLU, List.forall_mem_cons, List.not_mem_nil, false_imp_iff, implies_true, and_true]
  exact ⟨⟨_, encodedBy_sb⟩, ⟨_, encodedBy_sh⟩, ⟨_, encodedBy_sw⟩, ⟨_, encodedBy_lb⟩, ⟨_, encodedBy_lh⟩,
    ⟨_, encodedBy_lw⟩, ⟨_, encodedBy_lbu⟩, ⟨_, encodedBy_lhu⟩, ⟨_, encodedBy_auipc⟩, ⟨_, encodedBy_lui⟩⟩

theorem rowEncodes_control : ∀ row ∈ opcodeRowsControl, RowEncodes row := by
  simp only [opcodeRowsControl, List.forall_mem_cons, List.not_mem_nil, false_imp_iff, implies_true, and_true]
  exact ⟨⟨_, encodedBy_beq⟩, ⟨_, encodedBy_bne⟩, ⟨_, encodedBy_blt⟩, ⟨_, encodedBy_bge⟩, ⟨_, encodedBy_bltu⟩,
    ⟨_, encodedBy_bgeu⟩, ⟨_, encodedBy_jal⟩, ⟨_, encodedBy_jalr⟩, ⟨_, encodedBy_ecall⟩⟩

theorem rowEncodes_of_mem {row : OpcodeRow} (h : row ∈ opcodeTable) : RowEncodes row := by
  simp only [opcodeTable, List.mem_append] at h
  rcases h with ((h | h) | h) | h
  · exact rowEncodes_R row h
  · exact rowEncodes_I row h
  · exact rowEncodes_SLU row h
  · exact rowEncodes_control row h

theorem mnemonicOf_iff_of_mem (w : Word) {row : OpcodeRow} (h : row ∈ opcodeTable) :
    mnemonicOf w = some row.mnemonic ↔ w &&& row.mask = row.pattern := by
  obtain ⟨build, henc⟩ := rowEncodes_of_mem h
  exact (henc w).1

/-- Settles O54: by its encodings each row is its mnemonic, no mnemonic has two rows, and a word that
decodes lies in the row of its instruction. -/
theorem decoderAgreesWithTheOpcodeTable : Obligations.DecoderAgreesWithTheOpcodeTable := by
  unfold Obligations.DecoderAgreesWithTheOpcodeTable
  refine ⟨fun w row h => mnemonicOf_iff_of_mem w h, fun w a ha b hb hwa hwb => ?_, fun w => ⟨fun h => ?_, ?_⟩⟩
  · have hma := (mnemonicOf_iff_of_mem w ha).2 hwa
    have hmb := (mnemonicOf_iff_of_mem w hb).2 hwb
    exact opcodeTable_mnemonic_inj a ha b hb (Option.some.inj (hma.symm.trans hmb))
  · cases hd : decode w with
    | error e => exact ⟨e, rfl⟩
    | ok i =>
      obtain ⟨mask, pattern, hrow, hw⟩ := inRow_of_decode hd
      exact absurd hw (h _ hrow)
  · rintro ⟨e, hd⟩ row hrow hw
    obtain ⟨i, hi, -⟩ := mnemonicOf_eq_some_iff.1 ((mnemonicOf_iff_of_mem w hrow).2 hw)
    cases hd.symm.trans hi

/-! ### Undecodable words, format by format (R115) -/

section

variable (w : Word)

theorem decodeR_error_iff : (∃ e, decodeR w = .error e) ↔
    funct3 w ∈ [0#3, 5#3] ∧ funct7 w ∉ [0x00#7, 0x20#7] := by
  unfold decodeR
  split_ifs <;> simp [*]

theorem decodeI_ne_error : ¬ ∃ e, decodeI w = .error e := by
  unfold decodeI
  split_ifs <;> simp

theorem decodeS_error_iff : (∃ e, decodeS w = .error e) ↔ funct3 w ∈ [3#3, 4#3, 5#3, 6#3, 7#3] := by
  have hrest : ∀ f : BitVec 3, f ≠ 0#3 → f ≠ 1#3 → f ≠ 2#3 → f ∈ [3#3, 4#3, 5#3, 6#3, 7#3] := by decide
  unfold decodeS
  split_ifs with h0 h1 h2
  · simp [h0]
  · simp [h1]
  · simp [h2]
  · exact ⟨fun _ => hrest _ h0 h1 h2, fun _ => ⟨_, rfl⟩⟩

theorem decodeL_error_iff : (∃ e, decodeL w = .error e) ↔ funct3 w ∈ [3#3, 6#3, 7#3] := by
  have hrest : ∀ f : BitVec 3, f ≠ 0#3 → f ≠ 1#3 → f ≠ 2#3 → f ≠ 4#3 → f ≠ 5#3 → f ∈ [3#3, 6#3, 7#3] := by
    decide
  unfold decodeL
  split_ifs with h0 h1 h2 h4 h5
  · simp [h0]
  · simp [h1]
  · simp [h2]
  · simp [h4]
  · simp [h5]
  · exact ⟨fun _ => hrest _ h0 h1 h2 h4 h5, fun _ => ⟨_, rfl⟩⟩

theorem decodeB_error_iff : (∃ e, decodeB w = .error e) ↔ funct3 w ∈ [2#3, 3#3] := by
  have hrest : ∀ f : BitVec 3, f ≠ 0#3 → f ≠ 1#3 → f ≠ 4#3 → f ≠ 5#3 → f ≠ 6#3 → f ≠ 7#3 →
      f ∈ [2#3, 3#3] := by decide
  unfold decodeB
  split_ifs with h0 h1 h4 h5 h6 h7
  · simp [h0]
  · simp [h1]
  · simp [h4]
  · simp [h5]
  · simp [h6]
  · simp [h7]
  · exact ⟨fun _ => hrest _ h0 h1 h4 h5 h6 h7, fun _ => ⟨_, rfl⟩⟩

theorem decodeU_ne_error : ¬ ∃ e, decodeU w = .error e := by
  unfold decodeU
  split_ifs <;> simp

end

theorem formatOf_eq_none_iff (op : BitVec 7) : formatOf op = none ↔
    op ∉ [0x33#7, 0x13#7, 0x23#7, 0x03#7, 0x37#7, 0x17#7, 0x63#7, 0x6F#7, 0x67#7, 0x73#7] := by
  revert op; decide

/-- Settles O55: the opcode selects the format, and the format says which of its words it rejects. -/
theorem decodeFaultsOnExactlyTheListedWords : Obligations.DecodeFaultsOnExactlyTheListedWords := by
  unfold Obligations.DecodeFaultsOnExactlyTheListedWords
  intro w
  obtain ⟨hr, hi, hs, hl, hu, hb, hj, hjalr, hsys⟩ := Machine.formatOf_cases (opcode w)
  unfold decode
  split
  next hf => simp [decodeR_error_iff, hr.1 hf]
  next hf => simp [decodeI_ne_error, hi.1 hf]
  next hf => simp [decodeS_error_iff, hs.1 hf]
  next hf => simp [decodeL_error_iff, hl.1 hf]
  next hf =>
    rcases hu.1 hf with ho | ho <;> simp [decodeU_ne_error, ho]
  next hf => simp [decodeB_error_iff, hb.1 hf]
  next hf => simp [hj.1 hf]
  next hf => simp [hjalr.1 hf]
  next hf => simp [hsys.1 hf]
  next hf => exact ⟨fun _ => .inl ((formatOf_eq_none_iff _).1 hf), fun _ => ⟨_, rfl⟩⟩

/-- Settles O56: the decoder evaluated on the thirteen words. -/
theorem specWordsDecodeToTheirInstructions : Obligations.SpecWordsDecodeToTheirInstructions :=
  ⟨rfl, rfl, rfl, rfl, rfl, rfl, rfl, rfl, rfl, rfl, rfl, rfl, rfl⟩

end Sys2Proof
end
